-- ==== Sys2Proof/Word.lean ====
section
/-! DEFINITION. The widths of the block: bytes, 32-bit registers, and the two fixed-size groups the spec uses
(4 bytes of a word or 4 columns of a block; 8 key registers). spec/00_scope.md R10, spec/10_state.md R20. -/

namespace Sys2Proof

/-- The addressable unit of buffer memory (spec/20_memory.md R60). -/
abbrev Byte := BitVec 8

/-- The width of every register (spec/10_state.md R20). -/
abbrev Word := BitVec 32

/-- Four like things in order: the four IV registers, the four bytes of a cipher word, the four columns of a block. -/
structure Quad (α : Type) where
  q0 : α
  q1 : α
  q2 : α
  q3 : α
deriving DecidableEq, Repr

/-- Eight like things in order: the eight key registers, the eight words of a key. -/
structure Oct (α : Type) where
  o0 : α
  o1 : α
  o2 : α
  o3 : α
  o4 : α
  o5 : α
  o6 : α
  o7 : α
deriving DecidableEq, Repr

namespace Quad

def fill {α : Type} (x : α) : Quad α := ⟨x, x, x, x⟩

def map {α β : Type} (f : α → β) (a : Quad α) : Quad β := ⟨f a.q0, f a.q1, f a.q2, f a.q3⟩

def zipWith {α β γ : Type} (f : α → β → γ) (a : Quad α) (b : Quad β) : Quad γ :=
  ⟨f a.q0 b.q0, f a.q1 b.q1, f a.q2 b.q2, f a.q3 b.q3⟩

def toList {α : Type} (a : Quad α) : List α := [a.q0, a.q1, a.q2, a.q3]

def get {α : Type} (a : Quad α) : Fin 4 → α
  | 0 => a.q0
  | 1 => a.q1
  | 2 => a.q2
  | 3 => a.q3

def set {α : Type} (a : Quad α) (i : Fin 4) (x : α) : Quad α :=
  match i with
  | 0 => { a with q0 := x }
  | 1 => { a with q1 := x }
  | 2 => { a with q2 := x }
  | 3 => { a with q3 := x }

end Quad

namespace Oct

def fill {α : Type} (x : α) : Oct α := ⟨x, x, x, x, x, x, x, x⟩

def map {α β : Type} (f : α → β) (a : Oct α) : Oct β :=
  ⟨f a.o0, f a.o1, f a.o2, f a.o3, f a.o4, f a.o5, f a.o6, f a.o7⟩

def toList {α : Type} (a : Oct α) : List α := [a.o0, a.o1, a.o2, a.o3, a.o4, a.o5, a.o6, a.o7]

def get {α : Type} (a : Oct α) : Fin 8 → α
  | 0 => a.o0
  | 1 => a.o1
  | 2 => a.o2
  | 3 => a.o3
  | 4 => a.o4
  | 5 => a.o5
  | 6 => a.o6
  | 7 => a.o7

def set {α : Type} (a : Oct α) (i : Fin 8) (x : α) : Oct α :=
  match i with
  | 0 => { a with o0 := x }
  | 1 => { a with o1 := x }
  | 2 => { a with o2 := x }
  | 3 => { a with o3 := x }
  | 4 => { a with o4 := x }
  | 5 => { a with o5 := x }
  | 6 => { a with o6 := x }
  | 7 => { a with o7 := x }

end Oct

/-- Four bytes in order: a word of the key schedule (spec/43_aes256_primitive.md R196), a column of the state (R192). -/
abbrev Col := Quad Byte

/-- 16 bytes in order, as the four columns of the state (spec/43_aes256_primitive.md R192). -/
abbrev Block := Quad Col

/-- 32 key bytes in order, as eight words (spec/43_aes256_primitive.md R197). -/
abbrev Key := Oct Col

end Sys2Proof
end

