-- ==== Sys2Proof/Config.lean ====
section
/-! DEFINITION. What an implementation fixes (spec/00_scope.md R9) and the model's free values. -/

namespace Sys2Proof.Config

/-- CRC_POLY (spec/00_scope.md R9, spec/41_crc32.md R150). -/
def crcPoly : Word := 0xEDB88320#32

/-- CRC_INIT (spec/00_scope.md R9, spec/41_crc32.md R150). -/
def crcInit : Word := 0xFFFFFFFF#32

/-- CRC_XOROUT (spec/00_scope.md R9, spec/41_crc32.md R150). -/
def crcXorOut : Word := 0xFFFFFFFF#32

/-- BLOCK, the cipher block size in bytes (spec/00_scope.md R9). -/
def blockBytes : Nat := 16

/-- MAX_LIT, the longest literal run of one token (spec/00_scope.md R9). -/
def maxLit : Nat := 32

/-- MATCH_LEN_BIAS (spec/00_scope.md R9, spec/90_conflicts.md C1). -/
def matchLenBias : Nat := 2

/-- MATCH_DIST_BIAS (spec/00_scope.md R9, spec/90_conflicts.md C2). -/
def matchDistBias : Nat := 1

/-- L2_FAR_BASE (spec/00_scope.md R9). -/
def l2FarBase : Nat := 8191

/-- LEVEL2_MARKER (spec/00_scope.md R9, spec/92_eei_decisions.md D26). -/
def level2Marker : BitVec 3 := 1#3

/-- What a host read of BLK_ID returns in every state (spec/10_state.md R44). -/
def blkId : Word := 0x46424A44#32

/-- MEM_SIZE of `State.reset`. DESIGN CHOICE, unsafe for claims about the reset state only: MEM_SIZE is an open
parameter (spec/00_scope.md R9) and stands in State as `memSize`; this is the size the tables of
spec/95_test_vectors.md assume. Log entry 1. -/
def memSizeAtReset : Nat := 0x20000

/-- What an address that a memory does not list reads as. Every contents of buffer memory has a list
(`Sys2Proof.Machine.exists_initial_memory`), and the initial memory is an argument of `State.atReset`
(spec/70_reset_and_hazards.md R313, spec/93_implementation_defined.md U7). DESIGN CHOICE, unsafe for `State.reset` only,
whose memory lists nothing. Log entry 2. -/
def memInit : Byte := 0#8

/-- The byte found at an address (second argument) of the output range of an operation that the n-th RESET (first
argument) abandoned. A FREE VALUE: spec/70_reset_and_hazards.md R312 and spec/93_implementation_defined.md U2
allow any value, so nothing is known of it. Log entry 10. -/
opaque resetByte : Nat → Nat → BitVec 8

/-- The block-cipher primitive number n of a block that does not hold the default: for each key a permutation of the
16-byte blocks, encryption one way and decryption the other, and nothing else is known of it
(spec/42_cipher_adapter.md R170). A FREE VALUE: `BC` is an open parameter (spec/00_scope.md R9,
spec/93_implementation_defined.md U11). Log entry 3. -/
opaque otherCipher : Nat → Key → Equiv.Perm Block

end Sys2Proof.Config
end

