-- ==== Sys2Proof/Syntax.lean ====
section
/-! DEFINITION. The instructions: one constructor per row of spec/opcode_table.json, and the raw forms they are
decoded from. Commands are spec/30_encoding.md section 1, tokens sections 2 to 6. -/

namespace Sys2Proof

/-- The three function units (spec/00_scope.md R1). -/
inductive UnitId where
  | crc
  | ciph
  | lzd
deriving DecidableEq, Repr

/-- The two variants of the LZ stream (spec/30_encoding.md R102). -/
inductive Level where
  | one
  | two
deriving DecidableEq, Repr

/-- CIPH_MODE.DIR (spec/10_state.md R39). -/
inductive Dir where
  | enc
  | dec
deriving DecidableEq, Repr

/-- The two steps of a command: the START write (spec/40_commands.md R132) and the unit's completion step (R136).
Log entry 6. -/
inductive Phase where
  | start
  | complete
deriving DecidableEq, Repr

/-- The two unsupported values of CIPH_MODE.ALG: 0 and 3 (spec/10_state.md R39). -/
inductive BadAlg where
  | zero
  | three
deriving DecidableEq, Repr

/-- The instructions of the block (spec/00_scope.md R16): commands the host gives, and tokens of the LZ stream. -/
inductive Instr where
  /-- CRC32 (spec/41_crc32.md R155). -/
  | crc32 (ph : Phase)
  /-- ENC.ECB (spec/42_cipher_adapter.md R176). -/
  | encEcb (ph : Phase)
  /-- ENC.CBC (spec/42_cipher_adapter.md R177). -/
  | encCbc (ph : Phase)
  /-- DEC.ECB (spec/42_cipher_adapter.md R178). -/
  | decEcb (ph : Phase)
  /-- DEC.CBC (spec/42_cipher_adapter.md R179). -/
  | decCbc (ph : Phase)
  /-- CIPH.BADMODE: a CIPH START with an unsupported ALG (spec/30_encoding.md R93, spec/42_cipher_adapter.md R167). -/
  | ciphBadmode (alg : BadAlg) (dir : Dir) (ph : Phase)
  /-- LZD (spec/44_lz_decompressor.md R222). -/
  | lzd (ph : Phase)
  /-- CLEAR of one unit (spec/40_commands.md R139). -/
  | clear (u : UnitId)
  /-- LIT (spec/30_encoding.md R104): the level marker if it is the first token of a stream (R102), and the literal
  bytes, 1 to 32 of them. -/
  | lit (mark : Option Level) (data : List Byte)
  /-- MATCH1.S (spec/30_encoding.md R105): F, H and the distance byte. -/
  | match1S (f : BitVec 3) (h : BitVec 5) (lo : Byte)
  /-- MATCH1.L (spec/30_encoding.md R106): H, the length extension X and the distance byte. -/
  | match1L (h : BitVec 5) (x : Byte) (lo : Byte)
  /-- MATCH2.S (spec/30_encoding.md R107): F, H and the distance byte. -/
  | match2S (f : BitVec 3) (h : BitVec 5) (lo : Byte)
  /-- MATCH2.L (spec/30_encoding.md R108): H, the number of 0xFF bytes that begin the chain, its last byte (not 0xFF)
  and the distance byte. -/
  | match2L (h : BitVec 5) (n : Nat) (x : Byte) (lo : Byte)
  /-- MATCH2.SF (spec/30_encoding.md R109): F and the extended distance offset Xd. -/
  | match2SF (f : BitVec 3) (xd : BitVec 16)
  /-- MATCH2.LF (spec/30_encoding.md R110): the chain as in MATCH2.L, and Xd. -/
  | match2LF (n : Nat) (x : Byte) (xd : BitVec 16)
  /-- LZ.BADLEVEL: a first stream byte with marker 2 to 7 (spec/30_encoding.md R114). -/
  | lzBadlevel (m : BitVec 3) (h : BitVec 5)
deriving DecidableEq, Repr

/-- The raw forms instructions come in. -/
inductive Words where
  /-- A 32-bit host write of `v` to the window offset `off` while CIPH_MODE holds `mode` (spec/30_encoding.md R90). -/
  | ctrlWrite (off : Nat) (mode v : Word)
  /-- A busy unit whose completion step comes, while CIPH_MODE holds `mode`: the command it runs is the one its START
  began, because the write lock keeps the mode (spec/40_commands.md R134). -/
  | unitTurn (u : UnitId) (mode : Word)
  /-- Bytes of an LZ stream, lowest index first, beginning at a control byte (spec/30_encoding.md R100). -/
  | stream (bytes : List Byte)
deriving DecidableEq, Repr

/-- Why a raw form is no instruction. -/
inductive DecodeError where
  /-- The offset written is none of the three CTRL offsets. -/
  | notCtrl
  /-- Bits 1:0 of the value written to a CTRL offset are 00: "no command" (spec/30_encoding.md R90). -/
  | noCommand
  /-- The stream ends inside the token (spec/44_lz_decompressor.md R242). -/
  | truncated
deriving DecidableEq, Repr

end Sys2Proof
end

