-- ==== Sys2Proof/Machine/State.lean ====
section
/-! DEFINITION. The state of the block, of its buffer memory and of what the outside is about to do, as plain data;
the state right after reset; the ways a step can stop. spec/10_state.md. -/

namespace Sys2Proof.Machine

/-- The cause codes of spec/60_exceptions.md R281 (codes 9 to 15 are never produced and have no name). -/
inductive Cause where
  | noCause
  | addr
  | ciphLen
  | ciphMode
  | lzLevel
  | lzInOverrun
  | lzOutOverrun
  | lzRefUnderrun
  | lzShort
deriving DecidableEq, Repr

/-- A STATUS register by its fields (spec/10_state.md R37); reserved bits read 0, so they are no state. `statusWord`
is the register as the host reads it. LEVEL stays `none` in CRC_STATUS and CIPH_STATUS. -/
structure Status where
  busy : Bool
  done : Bool
  err : Bool
  cause : Cause
  level : Option Level
deriving DecidableEq, Repr

/-- The addresses [base, base + len) of buffer memory, on unbounded numbers (spec/20_memory.md R64, R65). -/
structure Span where
  base : Nat
  len : Nat
deriving DecidableEq, Repr

/-- The buffers of an operation: the range it reads and the range it writes (spec/20_memory.md R64, R76). -/
structure Claim where
  rd : Span
  wr : Span
deriving DecidableEq, Repr

/-- The working state of one decompression (spec/10_state.md R50). -/
structure LzRun where
  ip : Nat
  op : Nat
  level : Option Level
  first : Bool
deriving DecidableEq, Repr

/-- The registers of the CRC unit (spec/10_state.md R24 to R26, R37) and the buffers its operations own,
those of the last START first. -/
structure CrcUnit where
  status : Status
  src : Word
  len : Word
  result : Word
  claims : List Claim
deriving DecidableEq, Repr

/-- The registers of the CIPH unit (spec/10_state.md R27 to R29, R37, R39 to R43) and the buffers its
operations own, those of the last START first. -/
structure CiphUnit where
  status : Status
  src : Word
  len : Word
  dst : Word
  mode : Word
  key : Oct Word
  iv : Quad Word
  claims : List Claim
deriving DecidableEq, Repr

/-- The registers of the LZD unit (spec/10_state.md R30 to R35, R37), its working state while it decompresses (R50),
and the buffers its operations own, those of the last START first. -/
structure LzdUnit where
  status : Status
  src : Word
  len : Word
  dst : Word
  expLen : Word
  outLen : Word
  inUsed : Word
  run : Option LzRun
  claims : List Claim
deriving DecidableEq, Repr

/-- What the outside does next, one atomic event each (spec/00_scope.md R6, spec/40_commands.md R141). Log entry 4. -/
inductive Input where
  /-- A host read of the register window, `width` bits at offset `off` (spec/10_state.md R21). -/
  | regRead (width off : Nat)
  /-- A host write of the register window (spec/10_state.md R21). -/
  | regWrite (width off : Nat) (v : Word)
  /-- A host read of `n` bytes of buffer memory from `addr` on (spec/20_memory.md R61). -/
  | memRead (addr n : Nat)
  /-- A host write of buffer memory from `addr` on (spec/20_memory.md R61). -/
  | memWrite (addr : Nat) (bytes : List Byte)
  /-- It is a unit's turn: if it is busy it takes its completion step (spec/40_commands.md R136, R137). -/
  | turn (u : UnitId)
  /-- The event RESET (spec/70_reset_and_hazards.md R310). -/
  | reset
deriving DecidableEq, Repr

/-- The block-cipher primitive `BC` a block holds (spec/00_scope.md R9, spec/42_cipher_adapter.md R170). Log entry 3. -/
inductive Primitive where
  /-- The default, AES-256 (spec/43_aes256_primitive.md). -/
  | aes256
  /-- Any other: number `n` of the free family `Config.otherCipher`. -/
  | other (n : Nat)
deriving DecidableEq, Repr

/-- Everything there is. `crc`, `ciph` and `lzd` are the block, `prim` its parameter `BC`, which no step changes; `mem`
and `memSize` the buffer memory; the other fields are the model's own: `inputs` what the outside does next, `busData`
and `memData` what the host's last reads returned, `resets` the argument of the free value of
spec/70_reset_and_hazards.md R312. -/
structure State where
  crc : CrcUnit
  ciph : CiphUnit
  lzd : LzdUnit
  prim : Primitive
  mem : List Host.Cell
  memSize : Nat
  inputs : List Input
  busData : Word
  memData : List Byte
  resets : Nat
deriving DecidableEq, Repr

/-- The one way the machine stops with a fault. -/
inductive Fault where
  /-- A host access to an address at or beyond MEM_SIZE, which does not exist (spec/20_memory.md R60). Raised by the
  host's accesses to buffer memory, never by a unit (its ranges are checked, R65). Safe. Log entry 14. -/
  | noSuchAddress
deriving DecidableEq, Repr

/-- Steps the spec gives no meaning. -/
inductive Refusal where
  /-- An instruction that has no meaning yet. Raised by `exec` only. Safe. -/
  | notModelled (mnemonic : String)
  /-- A register access that is not an aligned 32-bit access inside the window: "A model gives such an access no
  meaning" (spec/10_state.md R21, spec/93_implementation_defined.md U3). Raised by the host's register accesses.
  Safe. Log entry 15. -/
  | badRegisterAccess
  /-- An access to a buffer that an operation owns: "a model refuses such a host step", and "the same holds between
  units" (spec/20_memory.md R76, spec/93_implementation_defined.md U4). Raised by the host's accesses to buffer memory
  and by completion steps. Safe. Log entries 8, 9. -/
  | rangeOwned
  /-- A step that is not enabled: the completion step of a unit that is not busy (spec/40_commands.md R136), or a token
  outside a decompression. `step` never takes one. Safe. Log entry 16. -/
  | notEnabled
deriving DecidableEq, Repr

/-- A STATUS register after reset: idle (spec/70_reset_and_hazards.md R311). -/
def idleStatus : Status := { busy := false, done := false, err := false, cause := .noCause, level := none }

/-- The CRC unit after reset (spec/70_reset_and_hazards.md R311). -/
def crcAtReset : CrcUnit := { status := idleStatus, src := 0, len := 0, result := 0, claims := [] }

/-- The CIPH unit after reset (spec/70_reset_and_hazards.md R311). -/
def ciphAtReset : CiphUnit :=
  { status := idleStatus, src := 0, len := 0, dst := 0, mode := 0, key := Oct.fill 0, iv := Quad.fill 0,
    claims := [] }

/-- The LZD unit after reset (spec/70_reset_and_hazards.md R311). -/
def lzdAtReset : LzdUnit :=
  { status := idleStatus, src := 0, len := 0, dst := 0, expLen := 0, outLen := 0, inUsed := 0, run := none,
    claims := [] }

/-- Right after reset (spec/10_state.md R54, spec/70_reset_and_hazards.md R311), over the arguments the spec leaves open:
the initial buffer memory `mem` (R313, spec/93_implementation_defined.md U7), its size and the primitive `BC`
(spec/00_scope.md R9, U11). The model's own fields: log entries 4, 10, 12. -/
def State.atReset (mem : List Host.Cell) (memSize : Nat) (prim : Primitive) : State :=
  { crc := crcAtReset, ciph := ciphAtReset, lzd := lzdAtReset, prim := prim, mem := mem, memSize := memSize,
    inputs := [], busData := 0, memData := [], resets := 0 }

/-- `State.atReset` at one choice of its arguments: the default primitive (spec/00_scope.md R9), a memory that lists
nothing and the size of log entry 1 (log entries 1, 2, 3). -/
def State.reset : State := State.atReset [] Config.memSizeAtReset .aes256

end Sys2Proof.Machine
end

