-- ==== Sys2Proof/Machine/Flags.lean ====
section
/-! DEFINITION. The STATUS registers: their only flags (spec/10_state.md R45), who sets them to what, and the words the
host reads (R37). -/

namespace Sys2Proof.Machine

/-- The code of a cause (spec/60_exceptions.md R281). -/
def causeCode : Cause → Nat
  | .noCause => 0
  | .addr => 1
  | .ciphLen => 2
  | .ciphMode => 3
  | .lzLevel => 4
  | .lzInOverrun => 5
  | .lzOutOverrun => 6
  | .lzRefUnderrun => 7
  | .lzShort => 8

/-- The code of LEVEL: 0 for no level detected (spec/10_state.md R37). -/
def levelCode : Option Level → Nat
  | none => 0
  | some .one => 1
  | some .two => 2

/-- A STATUS register as the host reads it: BUSY bit 0, DONE bit 1, ERR bit 2, CAUSE bits 11:8, LEVEL bits 17:16, the
rest 0 (spec/10_state.md R37). -/
def statusWord (st : Status) : Word :=
  BitVec.ofNat 32
    (st.busy.toNat + 2 * st.done.toNat + 4 * st.err.toNat + 256 * causeCode st.cause + 65536 * levelCode st.level)

/-- An accepted START (spec/40_commands.md R132, spec/10_state.md R45). -/
def startedStatus : Status := { busy := true, done := false, err := false, cause := .noCause, level := none }

/-- A completion without error; `level` is LZD's (spec/40_commands.md R136, spec/44_lz_decompressor.md R222). -/
def doneStatus (level : Option Level) : Status :=
  { busy := false, done := true, err := false, cause := .noCause, level := level }

/-- A completion with error (spec/60_exceptions.md R283). -/
def failedStatus (c : Cause) (level : Option Level) : Status :=
  { busy := false, done := true, err := true, cause := c, level := level }

/-- An accepted CLEAR clears DONE, ERR, CAUSE and LEVEL (spec/40_commands.md R139). -/
def clearedStatus (st : Status) : Status :=
  { st with done := false, err := false, cause := .noCause, level := none }

end Sys2Proof.Machine
end

