-- ==== Sys2Proof/Machine/Operands.lean ====
section
/-! DEFINITION. Operands: the numbers a match token stores and the ones it means (spec/30_encoding.md R111), the key
and IV bytes in their registers (spec/10_state.md R41, R43), the ranges of each command (spec/20_memory.md R64). -/

namespace Sys2Proof.Machine

/-! ## Match tokens -/

/-- The stored distance of a near form, 256*H + low byte (spec/30_encoding.md R105 to R108). -/
def nearDv (h : BitVec 5) (lo : Byte) : Nat := 256 * h.toNat + lo.toNat

/-- The stored distance of a far form, L2_FAR_BASE + Xd (spec/30_encoding.md R109, R110). -/
def farDv (xd : BitVec 16) : Nat := Config.l2FarBase + xd.toNat

/-- The stored length of MATCH1.L, 7 + X (spec/30_encoding.md R106). -/
def extLv (x : Byte) : Nat := 7 + x.toNat

/-- The stored length after a chain of `n` bytes 0xFF and a last byte `x` (spec/30_encoding.md R108). -/
def chainLv (n : Nat) (x : Byte) : Nat := 7 + 255 * n + x.toNat

/-- length = Lv + MATCH_LEN_BIAS (spec/30_encoding.md R111). -/
def trueLength (lv : Nat) : Nat := lv + Config.matchLenBias

/-- distance = Dv + MATCH_DIST_BIAS (spec/30_encoding.md R111). -/
def trueDistance (dv : Nat) : Nat := dv + Config.matchDistBias

/-! ## Key and IV bytes -/

/-- Byte `i` of a register, 0 the least significant (spec/10_state.md R41, R43). -/
def wordByte (w : Word) (i : Nat) : Byte := w.extractLsb' (8 * i) 8

/-- The four bytes of a register, the least significant first: le32 read backwards (spec/10_state.md R41). -/
def wordBytes (w : Word) : Quad Byte := ⟨wordByte w 0, wordByte w 1, wordByte w 2, wordByte w 3⟩

/-- The 32 key bytes as eight groups of four, key[4i .. 4i+4) from CIPH_KEYi (spec/10_state.md R41). -/
def keyBytes (k : Oct Word) : Oct (Quad Byte) := k.map wordBytes

/-- The 16 IV bytes as four groups of four, iv[4i .. 4i+4) from CIPH_IVi (spec/10_state.md R43). -/
def ivBytes (iv : Quad Word) : Quad (Quad Byte) := iv.map wordBytes

/-! ## Ranges -/

/-- The empty range. -/
def noSpan : Span := { base := 0, len := 0 }

/-- A range given by two registers. -/
def spanOf (base len : Word) : Span := { base := base.toNat, len := len.toNat }

/-- An address lies in a range. -/
def spanHas (r : Span) (a : Nat) : Bool := decide (r.base ≤ a) && decide (a < r.base + r.len)

/-- Two ranges share an address (spec/20_memory.md R66). -/
def spansMeet (a b : Span) : Bool :=
  decide (0 < a.len) && decide (0 < b.len) && decide (a.base < b.base + b.len) && decide (b.base < a.base + a.len)

/-- A range is in a memory of `memSize` bytes; an empty one always is (spec/20_memory.md R65). -/
def spanInMemory (memSize : Nat) (r : Span) : Bool := decide (r.len = 0) || decide (r.base + r.len ≤ memSize)

/-- The ranges of CRC32 (spec/20_memory.md R64). -/
def crcClaim (s : State) : Claim := { rd := spanOf s.crc.src s.crc.len, wr := noSpan }

/-- The ranges of the four cipher commands (spec/20_memory.md R64). -/
def ciphClaim (s : State) : Claim :=
  { rd := spanOf s.ciph.src s.ciph.len, wr := spanOf s.ciph.dst s.ciph.len }

/-- A CIPH START with an unsupported mode is no command of spec/20_memory.md R64 and touches no memory
(spec/42_cipher_adapter.md R183). Log entry 11. -/
def emptyClaim : Claim := { rd := noSpan, wr := noSpan }

/-- The ranges of LZD (spec/20_memory.md R64). -/
def lzdClaim (s : State) : Claim :=
  { rd := spanOf s.lzd.src s.lzd.len, wr := spanOf s.lzd.dst s.lzd.expLen }

end Sys2Proof.Machine
end

