-- ==== Sys2Proof/Machine/Ops.lean ====
section
/-! DEFINITION. The named operations: buffer memory (spec/20_memory.md), the register window (spec/10_state.md R20 to
R46, spec/40_commands.md R130, R131), the life cycle of an operation (spec/40_commands.md R132, R136, R139), the error
completion (spec/60_exceptions.md R283) and RESET (spec/70_reset_and_hazards.md R311, R312). -/

namespace Sys2Proof.Machine

/-! ## Buffer memory

A list of (address, byte) pairs in one canonical form: addresses strictly rising, no byte equal to what an unlisted
address reads as. -/

/-- The byte at an address. -/
def memGet : List Host.Cell → Nat → Byte
  | [], _ => Config.memInit
  | (b, v) :: m, a => if a = b then v else memGet m a

/-- Store one byte, keeping the canonical form. -/
def memPut : List Host.Cell → Nat → Byte → List Host.Cell
  | [], a, v => if v = Config.memInit then [] else [(a, v)]
  | (b, w) :: m, a, v =>
    if a < b then (if v = Config.memInit then (b, w) :: m else (a, v) :: (b, w) :: m)
    else if a = b then (if v = Config.memInit then m else (a, v) :: m)
    else (b, w) :: memPut m a v

/-- The canonical form, from address `lo` on. -/
def memWfFrom : Nat → List Host.Cell → Bool
  | _, [] => true
  | lo, (b, v) :: m => decide (lo ≤ b) && v != Config.memInit && memWfFrom (b + 1) m

/-- The canonical form of memory. -/
def memWf (m : List Host.Cell) : Bool := memWfFrom 0 m

/-- MemRead(addr, n) (spec/20_memory.md R62). -/
def memRead (m : List Host.Cell) : Nat → Nat → List Byte
  | _, 0 => []
  | a, n + 1 => memGet m a :: memRead m (a + 1) n

/-- MemWrite(addr, n, v), n the length of v (spec/20_memory.md R63). -/
def memWrite (m : List Host.Cell) : Nat → List Byte → List Host.Cell
  | _, [] => m
  | a, v :: vs => memWrite (memPut m a v) (a + 1) vs

/-! ## Units -/

/-- A unit's STATUS. -/
def unitStatus (s : State) : UnitId → Status
  | .crc => s.crc.status
  | .ciph => s.ciph.status
  | .lzd => s.lzd.status

/-- The buffers a unit's operations own: of the last one started, then of earlier ones whose DONE = 1 the host has not
read (spec/20_memory.md R76). -/
def unitClaims (s : State) : UnitId → List Claim
  | .crc => s.crc.claims
  | .ciph => s.ciph.claims
  | .lzd => s.lzd.claims

/-- The buffers of a unit's last operation, which is the running one while the unit is busy. -/
def unitClaim (s : State) (u : UnitId) : Option Claim := (unitClaims s u).head?

/-- A unit's BUSY. -/
def unitBusy (s : State) (u : UnitId) : Bool := (unitStatus s u).busy

/-- Set a unit's STATUS. -/
def setStatus (u : UnitId) (st : Status) (s : State) : State :=
  match u with
  | .crc => { s with crc := { s.crc with status := st } }
  | .ciph => { s with ciph := { s.ciph with status := st } }
  | .lzd => { s with lzd := { s.lzd with status := st } }

/-- All of a unit's buffers are the host's again (spec/20_memory.md R76). -/
def releaseClaims (u : UnitId) (s : State) : State :=
  match u with
  | .crc => { s with crc := { s.crc with claims := [] } }
  | .ciph => { s with ciph := { s.ciph with claims := [] } }
  | .lzd => { s with lzd := { s.lzd with claims := [] } }

/-! ## The life cycle of an operation -/

/-- The state after an accepted START, with the buffers the operation owns from now on (spec/40_commands.md R132). An
earlier operation whose DONE = 1 the host has not read keeps its own (spec/20_memory.md R76). -/
def startUnit (u : UnitId) (c : Claim) (s : State) : State :=
  match u with
  | .crc => { s with crc := { s.crc with status := startedStatus, result := 0, claims := c :: s.crc.claims } }
  | .ciph => { s with ciph := { s.ciph with status := startedStatus, claims := c :: s.ciph.claims } }
  | .lzd =>
    { s with lzd := { s.lzd with
        status := startedStatus, outLen := 0, inUsed := 0, claims := c :: s.lzd.claims } }

/-- The START write: ignored by a busy unit (spec/40_commands.md R132, R133). -/
def startCommand (u : UnitId) (c : Claim) (s : State) : Host.Outcome State Fault Refusal :=
  if unitBusy s u then .next s else .next (startUnit u c s)

/-- The CLEAR write: ignored by a busy unit (spec/40_commands.md R139). -/
def clearUnit (u : UnitId) (s : State) : State :=
  if unitBusy s u then s else setStatus u (clearedStatus (unitStatus s u)) s

/-- TAKING AN EXCEPTION: the error completion `raise <Kind>(CAUSE)` (spec/60_exceptions.md R283, R292). STATUS records
the cause; CRC_RESULT stays as START left it (spec/41_crc32.md R157); LZD records how far it came: OUT_LEN the bytes
written, IN_USED the index of the failing token's control byte, LEVEL the level detected (spec/44_lz_decompressor.md
R249), all 0 if it decoded nothing. There is no trap return: the host leaves this state by CLEAR or START
(spec/60_exceptions.md R293). -/
def raiseError (u : UnitId) (c : Cause) (s : State) : State :=
  match u with
  | .crc => setStatus .crc (failedStatus c none) s
  | .ciph => setStatus .ciph (failedStatus c none) s
  | .lzd =>
    match s.lzd.run with
    | none => { s with lzd := { s.lzd with status := failedStatus c none, outLen := 0, inUsed := 0 } }
    | some r =>
      { s with lzd := { s.lzd with
          status := failedStatus c r.level, outLen := BitVec.ofNat 32 r.op, inUsed := BitVec.ofNat 32 r.ip,
          run := none } }

/-- Two operations whose steps may not both be pending: one writes what the other reads or writes
(spec/20_memory.md R76). -/
def claimsClash (a b : Claim) : Bool := spansMeet a.wr b.rd || spansMeet a.wr b.wr || spansMeet a.rd b.wr

/-- Unit `u`'s buffers clash with those of busy unit `v`. -/
def clashesWith (s : State) (u v : UnitId) : Bool :=
  match unitClaim s u, unitClaim s v with
  | some a, some b => decide (u ≠ v) && unitBusy s v && claimsClash a b
  | _, _ => false

/-- Unit `u`'s buffers clash with those of some other busy unit (spec/20_memory.md R76). Log entry 9. -/
def unitClash (s : State) (u : UnitId) : Bool :=
  clashesWith s u .crc || clashesWith s u .ciph || clashesWith s u .lzd

/-! ## The register window -/

/-- The registers of spec/10_state.md R23. -/
inductive Reg where
  | crcCtrl
  | crcStatus
  | crcSrc
  | crcLen
  | crcResult
  | ciphCtrl
  | ciphStatus
  | ciphSrc
  | ciphLen
  | ciphDst
  | ciphMode
  | ciphKey (i : Fin 8)
  | ciphIv (i : Fin 4)
  | lzdCtrl
  | lzdStatus
  | lzdSrc
  | lzdLen
  | lzdDst
  | lzdExpLen
  | lzdOutLen
  | lzdInUsed
  | blkId
deriving DecidableEq, Repr

/-- The register map (spec/10_state.md R23). -/
def regMap : List (Nat × Reg) :=
  [(0x000, .crcCtrl), (0x004, .crcStatus), (0x008, .crcSrc), (0x00C, .crcLen), (0x010, .crcResult),
   (0x100, .ciphCtrl), (0x104, .ciphStatus), (0x108, .ciphSrc), (0x10C, .ciphLen), (0x110, .ciphDst),
   (0x114, .ciphMode),
   (0x120, .ciphKey 0), (0x124, .ciphKey 1), (0x128, .ciphKey 2), (0x12C, .ciphKey 3),
   (0x130, .ciphKey 4), (0x134, .ciphKey 5), (0x138, .ciphKey 6), (0x13C, .ciphKey 7),
   (0x140, .ciphIv 0), (0x144, .ciphIv 1), (0x148, .ciphIv 2), (0x14C, .ciphIv 3),
   (0x200, .lzdCtrl), (0x204, .lzdStatus), (0x208, .lzdSrc), (0x20C, .lzdLen), (0x210, .lzdDst),
   (0x214, .lzdExpLen), (0x218, .lzdOutLen), (0x21C, .lzdInUsed), (0x300, .blkId)]

/-- The register at an offset; `none` where the window is reserved (spec/10_state.md R22). -/
def regAt (off : Nat) : Option Reg := regMap.lookup off

/-- An access the window answers: 32 bits wide, at a multiple of 4 below 0x400 (spec/10_state.md R21). -/
def legalAccess (width off : Nat) : Bool :=
  decide (width = 32) && decide (off % 4 = 0) && decide (off < 0x400)

/-- The unit whose region an offset lies in (spec/10_state.md R20). -/
def regionUnit (off : Nat) : Option UnitId :=
  if off < 0x100 then some .crc
  else if off < 0x200 then some .ciph
  else if off < 0x300 then some .lzd
  else none

/-- A register as the host reads it; the write-only ones read 0 (spec/10_state.md R23, spec/40_commands.md R130). -/
def regValue (s : State) : Reg → Word
  | .crcCtrl => 0
  | .crcStatus => statusWord s.crc.status
  | .crcSrc => s.crc.src
  | .crcLen => s.crc.len
  | .crcResult => s.crc.result
  | .ciphCtrl => 0
  | .ciphStatus => statusWord s.ciph.status
  | .ciphSrc => s.ciph.src
  | .ciphLen => s.ciph.len
  | .ciphDst => s.ciph.dst
  | .ciphMode => s.ciph.mode
  | .ciphKey _ => 0
  | .ciphIv i => s.ciph.iv.get i
  | .lzdCtrl => 0
  | .lzdStatus => statusWord s.lzd.status
  | .lzdSrc => s.lzd.src
  | .lzdLen => s.lzd.len
  | .lzdDst => s.lzd.dst
  | .lzdExpLen => s.lzd.expLen
  | .lzdOutLen => s.lzd.outLen
  | .lzdInUsed => s.lzd.inUsed
  | .blkId => Config.blkId

/-- The word at an offset; a reserved offset reads 0 (spec/10_state.md R22, spec/40_commands.md R130). -/
def readOffset (s : State) (off : Nat) : Word :=
  match regAt off with
  | some r => regValue s r
  | none => 0

/-- The bits of CIPH_MODE that exist (spec/10_state.md R39, spec/40_commands.md R131). -/
def modeMask : Word := 0x00000103#32

/-- A host write of a register other than CTRL, on a unit that is not busy: the read-write and the key registers take
the value, CIPH_MODE without its reserved bits; the read-only registers ignore it (spec/40_commands.md R131). A CTRL
port stores nothing (spec/10_state.md R36); its commands are decoded, not written. -/
def setReg (r : Reg) (v : Word) (s : State) : State :=
  match r with
  | .crcCtrl => s
  | .crcStatus => s
  | .crcSrc => { s with crc := { s.crc with src := v } }
  | .crcLen => { s with crc := { s.crc with len := v } }
  | .crcResult => s
  | .ciphCtrl => s
  | .ciphStatus => s
  | .ciphSrc => { s with ciph := { s.ciph with src := v } }
  | .ciphLen => { s with ciph := { s.ciph with len := v } }
  | .ciphDst => { s with ciph := { s.ciph with dst := v } }
  | .ciphMode => { s with ciph := { s.ciph with mode := v &&& modeMask } }
  | .ciphKey i => { s with ciph := { s.ciph with key := s.ciph.key.set i v } }
  | .ciphIv i => { s with ciph := { s.ciph with iv := s.ciph.iv.set i v } }
  | .lzdCtrl => s
  | .lzdStatus => s
  | .lzdSrc => { s with lzd := { s.lzd with src := v } }
  | .lzdLen => { s with lzd := { s.lzd with len := v } }
  | .lzdDst => { s with lzd := { s.lzd with dst := v } }
  | .lzdExpLen => { s with lzd := { s.lzd with expLen := v } }
  | .lzdOutLen => s
  | .lzdInUsed => s
  | .blkId => s

/-- Is the offset in the region of a busy unit? Then every host write to it is ignored (spec/10_state.md R46). -/
def writeLocked (s : State) (off : Nat) : Bool :=
  match regionUnit off with
  | some u => unitBusy s u
  | none => false

/-- A host write at an offset that is no CTRL port (spec/40_commands.md R131, spec/10_state.md R22, R46). -/
def writeOffset (off : Nat) (v : Word) (s : State) : State :=
  if writeLocked s off then s
  else
    match regAt off with
    | some r => setReg r v s
    | none => s

/-- The unit whose STATUS stands at an offset (spec/10_state.md R23). -/
def statusUnit (off : Nat) : Option UnitId :=
  match regAt off with
  | some .crcStatus => some .crc
  | some .ciphStatus => some .ciph
  | some .lzdStatus => some .lzd
  | _ => none

/-- A host read of a register. It changes no state of the block (spec/40_commands.md R130); the word goes to the host,
and a read of STATUS that returns DONE = 1 ends the unit's ownership of all its buffers (spec/20_memory.md R76). -/
def readRegister (off : Nat) (s : State) : State :=
  let t := { s with busData := readOffset s off }
  match statusUnit off with
  | some u => if (unitStatus s u).done then releaseClaims u t else t
  | none => t

/-! ## The host at the buffer memory -/

/-- Some operation owns a byte of the range for writing (spec/20_memory.md R76). -/
def ownedForWrite (s : State) (r : Span) (u : UnitId) : Bool :=
  (unitClaims s u).any fun c => spansMeet c.wr r

/-- Some operation owns a byte of the range for reading or writing (spec/20_memory.md R76). -/
def owned (s : State) (r : Span) (u : UnitId) : Bool :=
  (unitClaims s u).any fun c => spansMeet c.wr r || spansMeet c.rd r

/-- A host read of buffer memory: not of a byte in the output range of an operation it does not know to be over
(spec/20_memory.md R61, R62, R76). -/
def hostMemRead (addr n : Nat) (s : State) : Host.Outcome State Fault Refusal :=
  let r : Span := { base := addr, len := n }
  if !spanInMemory s.memSize r then .fault .noSuchAddress
  else if ownedForWrite s r .crc || ownedForWrite s r .ciph || ownedForWrite s r .lzd then .refused .rangeOwned
  else .next { s with memData := memRead s.mem addr n }

/-- A host write of buffer memory: not to a byte in the input or output range of an operation it does not know to be
over (spec/20_memory.md R61, R63, R76). -/
def hostMemWrite (addr : Nat) (bytes : List Byte) (s : State) : Host.Outcome State Fault Refusal :=
  let r : Span := { base := addr, len := bytes.length }
  if !spanInMemory s.memSize r then .fault .noSuchAddress
  else if owned s r .crc || owned s r .ciph || owned s r .lzd then .refused .rangeOwned
  else .next { s with mem := memWrite s.mem addr bytes }

/-! ## RESET -/

/-- Give `n` addresses from `a` on the free values of RESET number `ep` (spec/93_implementation_defined.md U2), as far
as they exist. -/
def scramble (ep memSize : Nat) : Nat → Nat → List Host.Cell → List Host.Cell
  | _, 0, m => m
  | a, n + 1, m =>
    scramble ep memSize (a + 1) n (if a < memSize then memPut m a (Config.resetByte ep a) else m)

/-- The output range of the operation a busy unit abandons; empty if it is not busy (spec/70_reset_and_hazards.md
R312). -/
def abandonedSpan (s : State) (u : UnitId) : Span :=
  if unitBusy s u then
    match unitClaim s u with
    | some c => c.wr
    | none => noSpan
  else noSpan

/-- RESET leaves any value in the output range of unit `u`'s abandoned operation. -/
def scrambleUnit (s : State) (u : UnitId) (m : List Host.Cell) : List Host.Cell :=
  scramble s.resets s.memSize (abandonedSpan s u).base (abandonedSpan s u).len m

/-- The event RESET: every register at its reset value, busy operations abandoned, memory kept but for their output
ranges (spec/70_reset_and_hazards.md R311 to R313). What the outside does next and the parameters are not the block's to
reset. -/
def resetBlock (s : State) : State :=
  { s with
    crc := crcAtReset, ciph := ciphAtReset, lzd := lzdAtReset,
    mem := scrambleUnit s .lzd (scrambleUnit s .ciph (scrambleUnit s .crc s.mem)),
    resets := s.resets + 1 }

end Sys2Proof.Machine
end

