-- ==== Sys2Proof/Machine/Aes.lean ====
section
/-! DEFINITION. The default block-cipher primitive, AES-256 (spec/43_aes256_primitive.md). A block is a quad of columns,
column c holding block bytes 4c to 4c+3 (R192); a key is an oct of such words (R197). -/

namespace Sys2Proof.Machine

/-! ## GF(2^8) -/

/-- Multiplication by x (spec/43_aes256_primitive.md R191). -/
def xtime (a : Byte) : Byte := if a.getLsbD 7 then (a <<< 1) ^^^ 0x1B#8 else a <<< 1

/-- The XOR of xtime^i(a) over the `n` lowest bits i of b that are 1. -/
def gfMulBits : Nat → Byte → Byte → Byte
  | 0, _, _ => 0#8
  | n + 1, a, b => (if b.getLsbD 0 then a else 0#8) ^^^ gfMulBits n (xtime a) (b >>> 1)

/-- The product of spec/43_aes256_primitive.md R191. -/
def gfMul (a b : Byte) : Byte := gfMulBits 8 a b

/-! ## Tables -/

/-- Rows 0 to 3 of the table `sboxTable`. -/
def sboxTableRows0 : List Byte :=
  [0x63, 0x7c, 0x77, 0x7b, 0xf2, 0x6b, 0x6f, 0xc5, 0x30, 0x01, 0x67, 0x2b, 0xfe, 0xd7, 0xab, 0x76,
   0xca, 0x82, 0xc9, 0x7d, 0xfa, 0x59, 0x47, 0xf0, 0xad, 0xd4, 0xa2, 0xaf, 0x9c, 0xa4, 0x72, 0xc0,
   0xb7, 0xfd, 0x93, 0x26, 0x36, 0x3f, 0xf7, 0xcc, 0x34, 0xa5, 0xe5, 0xf1, 0x71, 0xd8, 0x31, 0x15,
   0x04, 0xc7, 0x23, 0xc3, 0x18, 0x96, 0x05, 0x9a, 0x07, 0x12, 0x80, 0xe2, 0xeb, 0x27, 0xb2, 0x75]

/-- Rows 4 to 7 of the table `sboxTable`. -/
def sboxTableRows1 : List Byte :=
  [0x09, 0x83, 0x2c, 0x1a, 0x1b, 0x6e, 0x5a, 0xa0, 0x52, 0x3b, 0xd6, 0xb3, 0x29, 0xe3, 0x2f, 0x84,
   0x53, 0xd1, 0x00, 0xed, 0x20, 0xfc, 0xb1, 0x5b, 0x6a, 0xcb, 0xbe, 0x39, 0x4a, 0x4c, 0x58, 0xcf,
   0xd0, 0xef, 0xaa, 0xfb, 0x43, 0x4d, 0x33, 0x85, 0x45, 0xf9, 0x02, 0x7f, 0x50, 0x3c, 0x9f, 0xa8,
   0x51, 0xa3, 0x40, 0x8f, 0x92, 0x9d, 0x38, 0xf5, 0xbc, 0xb6, 0xda, 0x21, 0x10, 0xff, 0xf3, 0xd2]

/-- Rows 8 to b of the table `sboxTable`. -/
def sboxTableRows2 : List Byte :=
  [0xcd, 0x0c, 0x13, 0xec, 0x5f, 0x97, 0x44, 0x17, 0xc4, 0xa7, 0x7e, 0x3d, 0x64, 0x5d, 0x19, 0x73,
   0x60, 0x81, 0x4f, 0xdc, 0x22, 0x2a, 0x90, 0x88, 0x46, 0xee, 0xb8, 0x14, 0xde, 0x5e, 0x0b, 0xdb,
   0xe0, 0x32, 0x3a, 0x0a, 0x49, 0x06, 0x24, 0x5c, 0xc2, 0xd3, 0xac, 0x62, 0x91, 0x95, 0xe4, 0x79,
   0xe7, 0xc8, 0x37, 0x6d, 0x8d, 0xd5, 0x4e, 0xa9, 0x6c, 0x56, 0xf4, 0xea, 0x65, 0x7a, 0xae, 0x08]

/-- Rows c to f of the table `sboxTable`. -/
def sboxTableRows3 : List Byte :=
  [0xba, 0x78, 0x25, 0x2e, 0x1c, 0xa6, 0xb4, 0xc6, 0xe8, 0xdd, 0x74, 0x1f, 0x4b, 0xbd, 0x8b, 0x8a,
   0x70, 0x3e, 0xb5, 0x66, 0x48, 0x03, 0xf6, 0x0e, 0x61, 0x35, 0x57, 0xb9, 0x86, 0xc1, 0x1d, 0x9e,
   0xe1, 0xf8, 0x98, 0x11, 0x69, 0xd9, 0x8e, 0x94, 0x9b, 0x1e, 0x87, 0xe9, 0xce, 0x55, 0x28, 0xdf,
   0x8c, 0xa1, 0x89, 0x0d, 0xbf, 0xe6, 0x42, 0x68, 0x41, 0x99, 0x2d, 0x0f, 0xb0, 0x54, 0xbb, 0x16]

/-- SBOX, row by row (spec/43_aes256_primitive.md R193). -/
def sboxTable : List Byte := sboxTableRows0 ++ sboxTableRows1 ++ sboxTableRows2 ++ sboxTableRows3

/-- Rows 0 to 3 of the table `invSboxTable`. -/
def invSboxTableRows0 : List Byte :=
  [0x52, 0x09, 0x6a, 0xd5, 0x30, 0x36, 0xa5, 0x38, 0xbf, 0x40, 0xa3, 0x9e, 0x81, 0xf3, 0xd7, 0xfb,
   0x7c, 0xe3, 0x39, 0x82, 0x9b, 0x2f, 0xff, 0x87, 0x34, 0x8e, 0x43, 0x44, 0xc4, 0xde, 0xe9, 0xcb,
   0x54, 0x7b, 0x94, 0x32, 0xa6, 0xc2, 0x23, 0x3d, 0xee, 0x4c, 0x95, 0x0b, 0x42, 0xfa, 0xc3, 0x4e,
   0x08, 0x2e, 0xa1, 0x66, 0x28, 0xd9, 0x24, 0xb2, 0x76, 0x5b, 0xa2, 0x49, 0x6d, 0x8b, 0xd1, 0x25]

/-- Rows 4 to 7 of the table `invSboxTable`. -/
def invSboxTableRows1 : List Byte :=
  [0x72, 0xf8, 0xf6, 0x64, 0x86, 0x68, 0x98, 0x16, 0xd4, 0xa4, 0x5c, 0xcc, 0x5d, 0x65, 0xb6, 0x92,
   0x6c, 0x70, 0x48, 0x50, 0xfd, 0xed, 0xb9, 0xda, 0x5e, 0x15, 0x46, 0x57, 0xa7, 0x8d, 0x9d, 0x84,
   0x90, 0xd8, 0xab, 0x00, 0x8c, 0xbc, 0xd3, 0x0a, 0xf7, 0xe4, 0x58, 0x05, 0xb8, 0xb3, 0x45, 0x06,
   0xd0, 0x2c, 0x1e, 0x8f, 0xca, 0x3f, 0x0f, 0x02, 0xc1, 0xaf, 0xbd, 0x03, 0x01, 0x13, 0x8a, 0x6b]

/-- Rows 8 to b of the table `invSboxTable`. -/
def invSboxTableRows2 : List Byte :=
  [0x3a, 0x91, 0x11, 0x41, 0x4f, 0x67, 0xdc, 0xea, 0x97, 0xf2, 0xcf, 0xce, 0xf0, 0xb4, 0xe6, 0x73,
   0x96, 0xac, 0x74, 0x22, 0xe7, 0xad, 0x35, 0x85, 0xe2, 0xf9, 0x37, 0xe8, 0x1c, 0x75, 0xdf, 0x6e,
   0x47, 0xf1, 0x1a, 0x71, 0x1d, 0x29, 0xc5, 0x89, 0x6f, 0xb7, 0x62, 0x0e, 0xaa, 0x18, 0xbe, 0x1b,
   0xfc, 0x56, 0x3e, 0x4b, 0xc6, 0xd2, 0x79, 0x20, 0x9a, 0xdb, 0xc0, 0xfe, 0x78, 0xcd, 0x5a, 0xf4]

/-- Rows c to f of the table `invSboxTable`. -/
def invSboxTableRows3 : List Byte :=
  [0x1f, 0xdd, 0xa8, 0x33, 0x88, 0x07, 0xc7, 0x31, 0xb1, 0x12, 0x10, 0x59, 0x27, 0x80, 0xec, 0x5f,
   0x60, 0x51, 0x7f, 0xa9, 0x19, 0xb5, 0x4a, 0x0d, 0x2d, 0xe5, 0x7a, 0x9f, 0x93, 0xc9, 0x9c, 0xef,
   0xa0, 0xe0, 0x3b, 0x4d, 0xae, 0x2a, 0xf5, 0xb0, 0xc8, 0xeb, 0xbb, 0x3c, 0x83, 0x53, 0x99, 0x61,
   0x17, 0x2b, 0x04, 0x7e, 0xba, 0x77, 0xd6, 0x26, 0xe1, 0x69, 0x14, 0x63, 0x55, 0x21, 0x0c, 0x7d]

/-- INV_SBOX, row by row (spec/43_aes256_primitive.md R194). -/
def invSboxTable : List Byte := invSboxTableRows0 ++ invSboxTableRows1 ++ invSboxTableRows2 ++ invSboxTableRows3

/-- SBOX[a] (spec/43_aes256_primitive.md R193). -/
def sbox (a : Byte) : Byte := sboxTable.getD a.toNat 0#8

/-- INV_SBOX[a] (spec/43_aes256_primitive.md R194). -/
def invSbox (a : Byte) : Byte := invSboxTable.getD a.toNat 0#8

/-- RC[j] for j from 1 on (spec/43_aes256_primitive.md R195). -/
def roundConst : Nat → Byte
  | 0 => 0x01#8
  | 1 => 0x01#8
  | j + 2 => xtime (roundConst (j + 1))

/-- Rcon[j] (spec/43_aes256_primitive.md R195). -/
def rcon (j : Nat) : Col := ⟨roundConst j, 0#8, 0#8, 0#8⟩

/-! ## Key expansion -/

/-- XOR of words (spec/43_aes256_primitive.md R196). -/
def colXor (a b : Col) : Col := a.zipWith (fun x y => x ^^^ y) b

/-- RotWord (spec/43_aes256_primitive.md R196). -/
def rotWord (w : Col) : Col := ⟨w.q1, w.q2, w.q3, w.q0⟩

/-- SubWord (spec/43_aes256_primitive.md R196). -/
def subWord (w : Col) : Col := w.map sbox

def zeroCol : Col := Quad.fill 0#8

/-- w[i] from w[i-1], w[i-2], …, newest first, i their number (spec/43_aes256_primitive.md R197). -/
def nextKeyWord (ws : List Col) : Col :=
  let i := ws.length
  let t := ws.getD 0 zeroCol
  let t' :=
    if i % 8 = 0 then colXor (subWord (rotWord t)) (rcon (i / 8))
    else if i % 8 = 4 then subWord t
    else t
  colXor (ws.getD 7 zeroCol) t'

/-- `n` more words of the schedule, newest first. -/
def expandKey : Nat → List Col → List Col
  | 0, ws => ws
  | n + 1, ws => expandKey n (nextKeyWord ws :: ws)

/-- The key schedule w[0] to w[59] (spec/43_aes256_primitive.md R197). -/
def keySchedule (k : Key) : List Col := (expandKey 52 k.toList.reverse).reverse

/-- Round key r: words w[4r] to w[4r+3] (spec/43_aes256_primitive.md R197). -/
def roundKey (w : List Col) (r : Nat) : Block :=
  ⟨w.getD (4 * r) zeroCol, w.getD (4 * r + 1) zeroCol, w.getD (4 * r + 2) zeroCol, w.getD (4 * r + 3) zeroCol⟩

/-! ## Round transformations -/

/-- Bytewise XOR of 16-byte sequences (spec/42_cipher_adapter.md R166). -/
def blockXor (a b : Block) : Block := a.zipWith colXor b

/-- AddRoundKey(s, r) (spec/43_aes256_primitive.md R198). -/
def addRoundKey (w : List Col) (r : Nat) (s : Block) : Block := blockXor s (roundKey w r)

/-- SubBytes (spec/43_aes256_primitive.md R199). -/
def subBytes (s : Block) : Block := s.map (fun c => c.map sbox)

/-- InvSubBytes (spec/43_aes256_primitive.md R199). -/
def invSubBytes (s : Block) : Block := s.map (fun c => c.map invSbox)

/-- ShiftRows: row r of column c comes from column (c + r) mod 4 (spec/43_aes256_primitive.md R200). -/
def shiftRows (s : Block) : Block :=
  ⟨⟨s.q0.q0, s.q1.q1, s.q2.q2, s.q3.q3⟩, ⟨s.q1.q0, s.q2.q1, s.q3.q2, s.q0.q3⟩,
   ⟨s.q2.q0, s.q3.q1, s.q0.q2, s.q1.q3⟩, ⟨s.q3.q0, s.q0.q1, s.q1.q2, s.q2.q3⟩⟩

/-- InvShiftRows: row r of column c goes to column (c + r) mod 4 (spec/43_aes256_primitive.md R200). -/
def invShiftRows (s : Block) : Block :=
  ⟨⟨s.q0.q0, s.q3.q1, s.q2.q2, s.q1.q3⟩, ⟨s.q1.q0, s.q0.q1, s.q3.q2, s.q2.q3⟩,
   ⟨s.q2.q0, s.q1.q1, s.q0.q2, s.q3.q3⟩, ⟨s.q3.q0, s.q2.q1, s.q1.q2, s.q0.q3⟩⟩

/-- A row of constants times a column. -/
def gfDot (k0 k1 k2 k3 : Byte) (a : Col) : Byte :=
  gfMul a.q0 k0 ^^^ gfMul a.q1 k1 ^^^ gfMul a.q2 k2 ^^^ gfMul a.q3 k3

/-- MixColumns on one column (spec/43_aes256_primitive.md R201). -/
def mixColumn (a : Col) : Col :=
  ⟨gfDot 2 3 1 1 a, gfDot 1 2 3 1 a, gfDot 1 1 2 3 a, gfDot 3 1 1 2 a⟩

/-- InvMixColumns on one column (spec/43_aes256_primitive.md R201). -/
def invMixColumn (a : Col) : Col :=
  ⟨gfDot 14 11 13 9 a, gfDot 9 14 11 13 a, gfDot 13 9 14 11 a, gfDot 11 13 9 14 a⟩

/-- MixColumns (spec/43_aes256_primitive.md R201). -/
def mixColumns (s : Block) : Block := s.map mixColumn

/-- InvMixColumns (spec/43_aes256_primitive.md R201). -/
def invMixColumns (s : Block) : Block := s.map invMixColumn

/-! ## One block -/

/-- The middle rounds, 1 to 13 (spec/43_aes256_primitive.md R202). -/
def middleRounds : List Nat := [1, 2, 3, 4, 5, 6, 7, 8, 9, 10, 11, 12, 13]

/-- One middle round of encryption (spec/43_aes256_primitive.md R202). -/
def encRound (w : List Col) (s : Block) (r : Nat) : Block :=
  addRoundKey w r (mixColumns (shiftRows (subBytes s)))

/-- One middle round of decryption (spec/43_aes256_primitive.md R206). -/
def decRound (w : List Col) (s : Block) (r : Nat) : Block :=
  invMixColumns (addRoundKey w r (invSubBytes (invShiftRows s)))

/-- AES256_Encrypt with the key schedule `w` (spec/43_aes256_primitive.md R202). -/
def encryptWith (w : List Col) (b : Block) : Block :=
  addRoundKey w 14 (shiftRows (subBytes (middleRounds.foldl (encRound w) (addRoundKey w 0 b))))

/-- AES256_Decrypt with the key schedule `w` (spec/43_aes256_primitive.md R206). -/
def decryptWith (w : List Col) (b : Block) : Block :=
  addRoundKey w 0 (invSubBytes (invShiftRows (middleRounds.reverse.foldl (decRound w) (addRoundKey w 14 b))))

/-- AES256_Encrypt(key, b) (spec/43_aes256_primitive.md R202). -/
def aesEncrypt (k : Key) (b : Block) : Block := encryptWith (keySchedule k) b

/-- AES256_Decrypt(key, b) (spec/43_aes256_primitive.md R206). -/
def aesDecrypt (k : Key) (b : Block) : Block := decryptWith (keySchedule k) b

end Sys2Proof.Machine
end

