-- ==== Sys2Proof/Machine/Cipher.lean ====
section
/-! DEFINITION. The CIPH unit: ECB and CBC over a block-cipher primitive (spec/42_cipher_adapter.md R165 to R175) and
the four commands and the unsupported mode (R167, R176 to R185). -/

namespace Sys2Proof.Machine

/-- A block-cipher primitive `BC` (spec/42_cipher_adapter.md R170). -/
structure BlockCipher where
  enc : Key → Block → Block
  dec : Key → Block → Block

/-- The two functions of a primitive: of the default instantiation AES-256 (spec/43_aes256_primitive.md R190), of any
other a permutation of the blocks and its inverse (spec/42_cipher_adapter.md R170). Log entry 3. -/
def primitive : Primitive → BlockCipher
  | .aes256 => { enc := aesEncrypt, dec := aesDecrypt }
  | .other n => { enc := fun k b => Config.otherCipher n k b, dec := fun k b => (Config.otherCipher n k).symm b }

/-- `BC` of this block, the open parameter of spec/00_scope.md R9. -/
def bc (s : State) : BlockCipher := primitive s.prim

/-! ## Blocks in memory -/

/-- Four bytes of memory from `a` on. -/
def readCol (m : List Host.Cell) (a : Nat) : Col := ⟨memGet m a, memGet m (a + 1), memGet m (a + 2), memGet m (a + 3)⟩

/-- MemRead(a, 16): byte i of the block is at a + i (spec/42_cipher_adapter.md R166). -/
def readBlock (m : List Host.Cell) (a : Nat) : Block :=
  ⟨readCol m a, readCol m (a + 4), readCol m (a + 8), readCol m (a + 12)⟩

/-- The 16 bytes of a block in order (spec/43_aes256_primitive.md R192). -/
def blockBytesOf (b : Block) : List Byte := b.q0.toList ++ b.q1.toList ++ b.q2.toList ++ b.q3.toList

/-- MemWrite(a, 16, b) (spec/42_cipher_adapter.md R166). -/
def writeBlock (m : List Host.Cell) (a : Nat) (b : Block) : List Host.Cell := memWrite m a (blockBytesOf b)

/-- What a mode does with one block: from the chaining value and the input block to the output block and the next
chaining value. -/
abbrev ModeStep := Block → Block → Block × Block

/-- `n` blocks, input from `src` on, output from `dst` on, each read whole before its output is written
(spec/42_cipher_adapter.md R166, R172 to R175, spec/20_memory.md R67). -/
def cipherBlocks (f : ModeStep) : Nat → Block → Nat → Nat → List Host.Cell → List Host.Cell
  | 0, _, _, _, m => m
  | n + 1, chain, src, dst, m =>
    cipherBlocks f n (f chain (readBlock m src)).2 (src + Config.blockBytes) (dst + Config.blockBytes)
      (writeBlock m dst (f chain (readBlock m src)).1)

/-! ## The four mode functions -/

/-- ECB encryption; the chaining value is not used (spec/42_cipher_adapter.md R172). -/
def ecbEncStep (p : BlockCipher) (k : Key) : ModeStep := fun chain b => (p.enc k b, chain)

/-- ECB decryption; the chaining value is not used (spec/42_cipher_adapter.md R173). -/
def ecbDecStep (p : BlockCipher) (k : Key) : ModeStep := fun chain b => (p.dec k b, chain)

/-- CBC encryption (spec/42_cipher_adapter.md R174). -/
def cbcEncStep (p : BlockCipher) (k : Key) : ModeStep :=
  fun chain b => (p.enc k (blockXor b chain), p.enc k (blockXor b chain))

/-- CBC decryption (spec/42_cipher_adapter.md R175). -/
def cbcDecStep (p : BlockCipher) (k : Key) : ModeStep := fun chain b => (blockXor (p.dec k b) chain, b)

/-- The key of the unit's registers (spec/10_state.md R41). -/
def unitKey (s : State) : Key := keyBytes s.ciph.key

/-- The IV of the unit's registers (spec/10_state.md R43). -/
def unitIv (s : State) : Block := ivBytes s.ciph.iv

/-- A chaining value for the modes that use none (spec/42_cipher_adapter.md R181: ECB does not read the IV). -/
def noChain : Block := Quad.fill zeroCol

/-! ## The commands -/

/-- The mode function over all m = N / 16 blocks (spec/42_cipher_adapter.md R166). -/
def ciphMem (f : ModeStep) (chain : Block) (s : State) : List Host.Cell :=
  cipherBlocks f (s.ciph.len.toNat / Config.blockBytes) chain s.ciph.src.toNat s.ciph.dst.toNat s.mem

/-- The state after a CIPH command has succeeded (spec/42_cipher_adapter.md R185). -/
def ciphDone (f : ModeStep) (chain : Block) (s : State) : State :=
  { s with mem := ciphMem f chain s, ciph := { s.ciph with status := doneStatus none } }

/-- The overlap that is allowed only in place (spec/20_memory.md R67, spec/42_cipher_adapter.md R169). -/
def badOverlap (s : State) : Bool :=
  decide (s.ciph.dst ≠ s.ciph.src) && spansMeet (ciphClaim s).rd (ciphClaim s).wr

/-- The completion step common to the four commands, the mode check having chosen among them
(spec/42_cipher_adapter.md R185, R168, R169, R183; spec/60_exceptions.md R290). -/
def completeCiph (f : ModeStep) (chain : Block) (s : State) : Host.Outcome State Fault Refusal :=
  if !unitBusy s .ciph then .refused .notEnabled
  else if s.ciph.len.toNat % Config.blockBytes ≠ 0 then .next (raiseError .ciph .ciphLen s)
  else if !spanInMemory s.memSize (ciphClaim s).rd || !spanInMemory s.memSize (ciphClaim s).wr then
    .next (raiseError .ciph .addr s)
  else if badOverlap s then .next (raiseError .ciph .addr s)
  else if unitClash s .ciph then .refused .rangeOwned
  else .next (ciphDone f chain s)

/-- ENC.ECB (spec/42_cipher_adapter.md R176). -/
def execEncEcb (ph : Phase) (s : State) : Host.Outcome State Fault Refusal :=
  match ph with
  | .start => startCommand .ciph (ciphClaim s) s
  | .complete => completeCiph (ecbEncStep (bc s) (unitKey s)) noChain s

/-- ENC.CBC (spec/42_cipher_adapter.md R177). -/
def execEncCbc (ph : Phase) (s : State) : Host.Outcome State Fault Refusal :=
  match ph with
  | .start => startCommand .ciph (ciphClaim s) s
  | .complete => completeCiph (cbcEncStep (bc s) (unitKey s)) (unitIv s) s

/-- DEC.ECB (spec/42_cipher_adapter.md R178). -/
def execDecEcb (ph : Phase) (s : State) : Host.Outcome State Fault Refusal :=
  match ph with
  | .start => startCommand .ciph (ciphClaim s) s
  | .complete => completeCiph (ecbDecStep (bc s) (unitKey s)) noChain s

/-- DEC.CBC (spec/42_cipher_adapter.md R179). -/
def execDecCbc (ph : Phase) (s : State) : Host.Outcome State Fault Refusal :=
  match ph with
  | .start => startCommand .ciph (ciphClaim s) s
  | .complete => completeCiph (cbcDecStep (bc s) (unitKey s)) (unitIv s) s

/-- The completion of a START with an unsupported mode: the mode check is the first, and fails
(spec/42_cipher_adapter.md R167, R180). -/
def completeBadmode (s : State) : Host.Outcome State Fault Refusal :=
  if !unitBusy s .ciph then .refused .notEnabled
  else .next (raiseError .ciph .ciphMode s)

/-- CIPH.BADMODE: which of the four mode values it was makes no difference (spec/30_encoding.md R93). -/
def execCiphBadmode (_alg : BadAlg) (_dir : Dir) (ph : Phase) (s : State) : Host.Outcome State Fault Refusal :=
  match ph with
  | .start => startCommand .ciph emptyClaim s
  | .complete => completeBadmode s

end Sys2Proof.Machine
end

