-- ==== Sys2Proof/Machine/Control.lean ====
section
/-! DEFINITION. The housekeeping command CLEAR (spec/40_commands.md R139). -/

namespace Sys2Proof.Machine

/-- CLEAR (spec/40_commands.md R139). -/
def execClear (u : UnitId) (s : State) : Host.Outcome State Fault Refusal := .next (clearUnit u s)

end Sys2Proof.Machine
end

