-- ==== Sys2Proof/Machine/Crc.lean ====
section
/-! DEFINITION. The CRC unit: the function of spec/41_crc32.md R150 to R154 and the command CRC32 (R155). -/

namespace Sys2Proof.Machine

/-- One bit step (spec/41_crc32.md R151). -/
def crcBit (a : Word) : Word := if a.getLsbD 0 then (a >>> 1) ^^^ Config.crcPoly else a >>> 1

/-- `n` bit steps. -/
def crcBits : Nat → Word → Word
  | 0, a => a
  | n + 1, a => crcBits n (crcBit a)

/-- One byte step (spec/41_crc32.md R152). -/
def crcByte (a : Word) (b : Byte) : Word := crcBits 8 (a ^^^ b.setWidth 32)

/-- The accumulator after a byte sequence, from `acc` on, bytes in increasing index (spec/41_crc32.md R154). -/
def crcAcc (acc : Word) (bs : List Byte) : Word := bs.foldl crcByte acc

/-- The checksum of a byte sequence (spec/41_crc32.md R154). -/
def crc32 (bs : List Byte) : Word := crcAcc Config.crcInit bs ^^^ Config.crcXorOut

/-- The state after CRC32 has succeeded (spec/41_crc32.md R155). -/
def crcDone (s : State) : State :=
  { s with crc := { s.crc with
      status := doneStatus none, result := crc32 (memRead s.mem s.crc.src.toNat s.crc.len.toNat) } }

/-- The completion step of CRC32 (spec/41_crc32.md R155, R157). -/
def completeCrc (s : State) : Host.Outcome State Fault Refusal :=
  if !unitBusy s .crc then .refused .notEnabled
  else if !spanInMemory s.memSize (crcClaim s).rd then .next (raiseError .crc .addr s)
  else if unitClash s .crc then .refused .rangeOwned
  else .next (crcDone s)

/-- CRC32 (spec/41_crc32.md R155). -/
def execCrc32 (ph : Phase) (s : State) : Host.Outcome State Fault Refusal :=
  match ph with
  | .start => startCommand .crc (crcClaim s) s
  | .complete => completeCrc s

end Sys2Proof.Machine
end

