-- ==== Sys2Proof/WellFormed.lean ====
section
/-! DEFINITION. Which instructions an encoding can name, and where in a stream a token may stand. -/

namespace Sys2Proof

/-- F of a short match form: 1 to 6 (spec/30_encoding.md R105, R107, R109). -/
def shortF (f : BitVec 3) : Bool := f != 0#3 && f != 7#3

/-- H and the distance byte are the far escape of level 2 (spec/30_encoding.md R103). -/
def isEscape (h : BitVec 5) (lo : Byte) : Bool := h == 31#5 && lo == 0xFF#8

/-- The operand ranges of spec/30_encoding.md R104 to R110 and R114. Commands have no operand an encoding could
not name. -/
def Instr.wellFormed : Instr → Bool
  | .crc32 _ => true
  | .encEcb _ => true
  | .encCbc _ => true
  | .decEcb _ => true
  | .decCbc _ => true
  | .ciphBadmode _ _ _ => true
  | .lzd _ => true
  | .clear _ => true
  | .lit _ data => decide (1 ≤ data.length) && decide (data.length ≤ Config.maxLit)
  | .match1S f _ _ => shortF f
  | .match1L _ _ _ => true
  | .match2S f h lo => shortF f && !isEscape h lo
  | .match2L h _ x lo => x != 0xFF#8 && !isEscape h lo
  | .match2SF f _ => shortF f
  | .match2LF _ x _ => x != 0xFF#8
  | .lzBadlevel m _ => decide (2 ≤ m.toNat)

/-- Is it a token of the stream (spec/00_scope.md R16), or the reserved first byte of R114? -/
def Instr.isToken : Instr → Bool
  | .crc32 _ => false
  | .encEcb _ => false
  | .encCbc _ => false
  | .decEcb _ => false
  | .decCbc _ => false
  | .ciphBadmode _ _ _ => false
  | .lzd _ => false
  | .clear _ => false
  | .lit _ _ => true
  | .match1S _ _ _ => true
  | .match1L _ _ _ => true
  | .match2S _ _ _ => true
  | .match2L _ _ _ _ => true
  | .match2SF _ _ => true
  | .match2LF _ _ _ => true
  | .lzBadlevel _ _ => true

/-- Where a token may stand: `none` is the first byte of a stream, `some l` a later place in a stream of level `l`
(spec/30_encoding.md R102, R103). A command does not stand in a stream and fits every context. -/
def Instr.fitsContext : Instr → Option Level → Bool
  | .crc32 _, _ => true
  | .encEcb _, _ => true
  | .encCbc _, _ => true
  | .decEcb _, _ => true
  | .decCbc _, _ => true
  | .ciphBadmode _ _ _, _ => true
  | .lzd _, _ => true
  | .clear _, _ => true
  | .lit mark _, ctx => mark.isSome == ctx.isNone
  | .match1S _ _ _, ctx => ctx == some .one
  | .match1L _ _ _, ctx => ctx == some .one
  | .match2S _ _ _, ctx => ctx == some .two
  | .match2L _ _ _ _, ctx => ctx == some .two
  | .match2SF _ _, ctx => ctx == some .two
  | .match2LF _ _ _, ctx => ctx == some .two
  | .lzBadlevel _ _, ctx => ctx == none

end Sys2Proof
end

