-- ==== Sys2Proof/Decode.lean ====
section
/-! DEFINITION. The decoder (total, rejecting by name), the encoder, and the reading of a word of
spec/opcode_table.json. Commands: spec/30_encoding.md section 1. Tokens: sections 2 to 6. -/

namespace Sys2Proof

/-! ## Commands -/

/-- The CTRL offset of a unit (spec/30_encoding.md R90, spec/10_state.md R23). -/
def ctrlOffset : UnitId → Nat
  | .crc => 0x000
  | .ciph => 0x100
  | .lzd => 0x200

/-- The unit whose CTRL port stands at a window offset (spec/10_state.md R23). -/
def ctrlUnit (off : Nat) : Option UnitId :=
  if off = 0x000 then some .crc
  else if off = 0x100 then some .ciph
  else if off = 0x200 then some .lzd
  else none

/-- CIPH_MODE.ALG, bits 1:0 (spec/10_state.md R39). -/
def modeAlg (mode : Word) : BitVec 2 := mode.extractLsb' 0 2

/-- CIPH_MODE.DIR, bit 8 (spec/10_state.md R39). -/
def modeDir (mode : Word) : Dir := if mode.getLsbD 8 then .dec else .enc

/-- The CIPH command that CIPH_MODE selects (spec/30_encoding.md R90, R92, R93). -/
def decodeCiph (mode : Word) (ph : Phase) : Instr :=
  if modeAlg mode = 1#2 then
    match modeDir mode with
    | .enc => .encEcb ph
    | .dec => .decEcb ph
  else if modeAlg mode = 2#2 then
    match modeDir mode with
    | .enc => .encCbc ph
    | .dec => .decCbc ph
  else if modeAlg mode = 0#2 then .ciphBadmode .zero (modeDir mode) ph
  else .ciphBadmode .three (modeDir mode) ph

/-- The command a unit runs (spec/30_encoding.md R90, spec/40_commands.md R134). -/
def decodeCommand (u : UnitId) (mode : Word) (ph : Phase) : Instr :=
  match u with
  | .crc => .crc32 ph
  | .ciph => decodeCiph mode ph
  | .lzd => .lzd ph

/-- A value written to a unit's CTRL port: bit 0 is START and wins, bit 1 is CLEAR, bits 31:2 are ignored
(spec/30_encoding.md R90, R91). -/
def decodeCtrl (u : UnitId) (mode v : Word) : Except DecodeError Instr :=
  if v.getLsbD 0 then .ok (decodeCommand u mode .start)
  else if v.getLsbD 1 then .ok (.clear u)
  else .error .noCommand

/-! ## Tokens

A token is read through `rd`, which answers the byte at an index counted from the token's control byte, or `none` at
or beyond the end of the input. -/

/-- Bits 7:5 of a control byte: F, or the level marker M (spec/30_encoding.md R101, R102). -/
def ctrlF (c : Byte) : BitVec 3 := c.extractLsb' 5 3

/-- Bits 4:0 of a control byte: H (spec/30_encoding.md R101, R102). -/
def ctrlH (c : Byte) : BitVec 5 := c.extractLsb' 0 5

/-- be16 (spec/00_scope.md R11). -/
def be16 (b0 b1 : Byte) : BitVec 16 := BitVec.ofNat 16 (256 * b0.toNat + b1.toNat)

/-- The level that the marker of a first byte selects (spec/30_encoding.md R102). -/
def markerLevel (m : BitVec 3) : Option Level :=
  if m = 0#3 then some .one
  else if m = Config.level2Marker then some .two
  else none

/-- `n` bytes from index `pos` on. -/
def takeBytes (rd : Nat → Option Byte) : Nat → Nat → Option (List Byte)
  | _, 0 => some []
  | pos, n + 1 =>
    match rd pos with
    | none => none
    | some b =>
      match takeBytes rd (pos + 1) n with
      | none => none
      | some bs => some (b :: bs)

/-- The length-extension chain from index `pos` on: how many 0xFF bytes begin it, and the byte that ends it
(spec/30_encoding.md R108). The last argument bounds the bytes looked at. -/
def readChain (rd : Nat → Option Byte) : Nat → Nat → Option (Nat × Byte)
  | _, 0 => none
  | pos, fuel + 1 =>
    match rd pos with
    | none => none
    | some x =>
      if x = 0xFF#8 then
        match readChain rd (pos + 1) fuel with
        | none => none
        | some (n, y) => some (n + 1, y)
      else some (0, x)

/-- LIT with run length H + 1 (spec/30_encoding.md R104). -/
def decodeLit (mark : Option Level) (h : BitVec 5) (rd : Nat → Option Byte) : Except DecodeError Instr :=
  match takeBytes rd 1 (h.toNat + 1) with
  | none => .error .truncated
  | some data => .ok (.lit mark data)

/-- MATCH1.S and MATCH1.L (spec/30_encoding.md R103, R105, R106). -/
def decodeMatch1 (f : BitVec 3) (h : BitVec 5) (rd : Nat → Option Byte) : Except DecodeError Instr :=
  if f = 7#3 then
    match rd 1, rd 2 with
    | some x, some lo => .ok (.match1L h x lo)
    | _, _ => .error .truncated
  else
    match rd 1 with
    | some lo => .ok (.match1S f h lo)
    | none => .error .truncated

/-- The tail of a level-2 match from its distance byte at index `pos` on: near, or far if H = 31 and the byte is 0xFF
(spec/30_encoding.md R103, R107 to R110). -/
def decodeTail2 (h : BitVec 5) (rd : Nat → Option Byte) (pos : Nat) (near : Byte → Instr)
    (far : BitVec 16 → Instr) : Except DecodeError Instr :=
  match rd pos with
  | none => .error .truncated
  | some lo =>
    if isEscape h lo then
      match rd (pos + 1), rd (pos + 2) with
      | some b0, some b1 => .ok (far (be16 b0 b1))
      | _, _ => .error .truncated
    else .ok (near lo)

/-- MATCH2.S, MATCH2.SF, MATCH2.L and MATCH2.LF (spec/30_encoding.md R103, R107 to R110). -/
def decodeMatch2 (f : BitVec 3) (h : BitVec 5) (rd : Nat → Option Byte) (fuel : Nat) :
    Except DecodeError Instr :=
  if f = 7#3 then
    match readChain rd 1 fuel with
    | none => .error .truncated
    | some (n, x) => decodeTail2 h rd (n + 2) (fun lo => .match2L h n x lo) (fun xd => .match2LF n x xd)
  else decodeTail2 h rd 1 (fun lo => .match2S f h lo) (fun xd => .match2SF f xd)

/-- One token (spec/30_encoding.md R102, R103). `ctx` is `none` at the first byte of a stream and otherwise the
stream's level. -/
def decodeToken (ctx : Option Level) (rd : Nat → Option Byte) (fuel : Nat) : Except DecodeError Instr :=
  match rd 0 with
  | none => .error .truncated
  | some c =>
    match ctx with
    | none =>
      match markerLevel (ctrlF c) with
      | some l => decodeLit (some l) (ctrlH c) rd
      | none => .ok (.lzBadlevel (ctrlF c) (ctrlH c))
    | some l =>
      if ctrlF c = 0#3 then decodeLit none (ctrlH c) rd
      else
        match l with
        | .one => decodeMatch1 (ctrlF c) (ctrlH c) rd
        | .two => decodeMatch2 (ctrlF c) (ctrlH c) rd fuel

/-- The level known once the control byte `c` of a token has been fetched (spec/44_lz_decompressor.md R225). -/
def levelAfter (ctx : Option Level) (c : Byte) : Option Level :=
  match ctx with
  | none => markerLevel (ctrlF c)
  | some l => some l

/-- The instruction a raw form stands for; `ctx` is read for a stream only. -/
def decode (ctx : Option Level) : Words → Except DecodeError Instr
  | .ctrlWrite off mode v =>
    match ctrlUnit off with
    | none => .error .notCtrl
    | some u => decodeCtrl u mode v
  | .unitTurn u mode => .ok (decodeCommand u mode .complete)
  | .stream bytes => decodeToken ctx (fun i => bytes[i]?) bytes.length

/-! ## The encoder -/

/-- A control byte from its two fields (spec/30_encoding.md R101). -/
def ctrlByte (f : BitVec 3) (h : BitVec 5) : Byte := f ++ h

/-- The level marker a first token carries; a later token has 000 there (spec/30_encoding.md R102, R104). -/
def markerBits : Option Level → BitVec 3
  | none => 0#3
  | some .one => 0#3
  | some .two => Config.level2Marker

/-- The two bytes of an extended distance offset, the more significant first (spec/30_encoding.md R109). -/
def be16Bytes (x : BitVec 16) : List Byte := [x.extractLsb' 8 8, x.extractLsb' 0 8]

/-- The bytes of a token (spec/30_encoding.md R104 to R110, R114); a command has none. -/
def tokenBytes : Instr → List Byte
  | .crc32 _ => []
  | .encEcb _ => []
  | .encCbc _ => []
  | .decEcb _ => []
  | .decCbc _ => []
  | .ciphBadmode _ _ _ => []
  | .lzd _ => []
  | .clear _ => []
  | .lit mark data => ctrlByte (markerBits mark) (BitVec.ofNat 5 (data.length - 1)) :: data
  | .match1S f h lo => [ctrlByte f h, lo]
  | .match1L h x lo => [ctrlByte 7#3 h, x, lo]
  | .match2S f h lo => [ctrlByte f h, lo]
  | .match2L h n x lo => ctrlByte 7#3 h :: (List.replicate n 0xFF#8 ++ [x, lo])
  | .match2SF f xd => ctrlByte f 31#5 :: 0xFF#8 :: be16Bytes xd
  | .match2LF n x xd => ctrlByte 7#3 31#5 :: (List.replicate n 0xFF#8 ++ (x :: 0xFF#8 :: be16Bytes xd))
  | .lzBadlevel m h => [ctrlByte m h]

/-- The size of a token in bytes (spec/30_encoding.md R113; one byte for the reserved first byte of R114). -/
def tokenSize : Instr → Nat
  | .crc32 _ => 0
  | .encEcb _ => 0
  | .encCbc _ => 0
  | .decEcb _ => 0
  | .decCbc _ => 0
  | .ciphBadmode _ _ _ => 0
  | .lzd _ => 0
  | .clear _ => 0
  | .lit _ data => 1 + data.length
  | .match1S _ _ _ => 2
  | .match1L _ _ _ => 3
  | .match2S _ _ _ => 2
  | .match2L _ n _ _ => 2 + (n + 1)
  | .match2SF _ _ => 4
  | .match2LF n _ _ => 4 + (n + 1)
  | .lzBadlevel _ _ => 1

/-- CIPH_MODE from its two fields (spec/30_encoding.md R92). -/
def modeWord (alg : BitVec 2) (dir : Dir) : Word :=
  BitVec.ofNat 32 (alg.toNat + (match dir with | .enc => 0 | .dec => 0x100))

def badAlgBits : BadAlg → BitVec 2
  | .zero => 0#2
  | .three => 3#2

/-- A command's START write, or its unit's turn. -/
def encodeCommand (u : UnitId) (mode : Word) : Phase → Words
  | .start => .ctrlWrite (ctrlOffset u) mode 1#32
  | .complete => .unitTurn u mode

/-- The raw form of an instruction (spec/30_encoding.md R90 to R93, R104 to R112). -/
def encode : Instr → Words
  | .crc32 ph => encodeCommand .crc 0#32 ph
  | .encEcb ph => encodeCommand .ciph (modeWord 1#2 .enc) ph
  | .encCbc ph => encodeCommand .ciph (modeWord 2#2 .enc) ph
  | .decEcb ph => encodeCommand .ciph (modeWord 1#2 .dec) ph
  | .decCbc ph => encodeCommand .ciph (modeWord 2#2 .dec) ph
  | .ciphBadmode alg dir ph => encodeCommand .ciph (modeWord (badAlgBits alg) dir) ph
  | .lzd ph => encodeCommand .lzd 0#32 ph
  | .clear u => .ctrlWrite (ctrlOffset u) 0#32 2#32
  | .lit mark data => .stream (tokenBytes (.lit mark data))
  | .match1S f h lo => .stream (tokenBytes (.match1S f h lo))
  | .match1L h x lo => .stream (tokenBytes (.match1L h x lo))
  | .match2S f h lo => .stream (tokenBytes (.match2S f h lo))
  | .match2L h n x lo => .stream (tokenBytes (.match2L h n x lo))
  | .match2SF f xd => .stream (tokenBytes (.match2SF f xd))
  | .match2LF n x xd => .stream (tokenBytes (.match2LF n x xd))
  | .lzBadlevel m h => .stream (tokenBytes (.lzBadlevel m h))

/-! ## A word of the opcode table

The table's rows are of two kinds, values written to a CTRL port and stream tokens, and a word alone says neither
which kind it is nor the offset, the mode and the level that go with it. Log entry 13 fixes them. -/

/-- A word with START or CLEAR and no other bit is a CTRL value; every other word is a token. Log entry 13. -/
def isCtrlWord (w : Nat) : Bool := decide (w < 4) && decide (w ≠ 0)

/-- The bytes of a table word, the first in the most significant place, as the table numbers the one row of several
bytes it numbers (MATCH2.SF). -/
def tableBytes (nbits w : Nat) : List Byte :=
  let n := (nbits + 7) / 8
  (List.range n).map (fun k => BitVec.ofNat 8 (w >>> (8 * (n - 1 - k))))

/-- The zero bytes that follow a table word: enough for the longest literal run. -/
def tablePad : List Byte := List.replicate 64 0#8

/-- The instruction the decoder reads from a word of the table: a CTRL value as written to CRC_CTRL, a token as a
later token of a level-2 stream. Log entry 13. -/
def decodeTableWord (nbits w : Nat) : Option Instr :=
  if isCtrlWord w then (decode none (.ctrlWrite 0x000 0#32 (BitVec.ofNat 32 w))).toOption
  else (decode (some .two) (.stream (tableBytes nbits w ++ tablePad))).toOption

end Sys2Proof
end

