-- ==== Sys2Proof/Machine/Lzd.lean ====
section
/-! DEFINITION. The LZD unit: the tokens (spec/44_lz_decompressor.md R227 to R233, R240, R241), the loop that runs
them (R222 to R226, R242 to R249) and the command LZD (R222). -/

namespace Sys2Proof.Machine

/-! ## Tokens

A token is executed with the working state at its control byte: `ip` is the index of that byte. All of a token's
checks are made before it writes anything (spec/44_lz_decompressor.md R249). -/

/-- The working state after a token that is `size` bytes long and produces `n` bytes (spec/10_state.md R50). -/
def advance (r : LzRun) (size n : Nat) : LzRun := { r with ip := r.ip + size, op := r.op + n, first := false }

/-- The byte-serial copy of a match: each byte is read after the one before it was written. `a` is the address written
next, `dist` the distance, and the last number the bytes left to copy (spec/44_lz_decompressor.md R240, R241). -/
def copyMatch (dist : Nat) : Nat → Nat → List Host.Cell → List Host.Cell
  | _, 0, m => m
  | a, n + 1, m => copyMatch dist (a + 1) n (memPut m a (memGet m (a - dist)))

/-- The state after a match has been executed (spec/44_lz_decompressor.md R240). -/
def matchDone (r : LzRun) (size length dist : Nat) (s : State) : State :=
  { s with
    mem := copyMatch dist (s.lzd.dst.toNat + r.op) length s.mem,
    lzd := { s.lzd with run := some (advance r size length) } }

/-- A match token of `size` bytes with stored length `lv` and stored distance `dv`: `need`, then copy_match
(spec/44_lz_decompressor.md R228 to R233, R240, R242 to R244; spec/60_exceptions.md R290). -/
def runMatch (size lv dv : Nat) (s : State) : Host.Outcome State Fault Refusal :=
  match s.lzd.run with
  | none => .refused .notEnabled
  | some r =>
    if s.lzd.len.toNat < r.ip + size then .next (raiseError .lzd .lzInOverrun s)
    else if s.lzd.expLen.toNat < r.op + trueLength lv then .next (raiseError .lzd .lzOutOverrun s)
    else if r.op < trueDistance dv then .next (raiseError .lzd .lzRefUnderrun s)
    else .next (matchDone r size (trueLength lv) (trueDistance dv) s)

/-- The working state with the level marker of a first token taken (spec/44_lz_decompressor.md R225). -/
def marked (mark : Option Level) (r : LzRun) : LzRun :=
  match mark with
  | some l => { r with level := some l, first := false }
  | none => r

/-- The state with a given working state. -/
def withRun (r : LzRun) (s : State) : State := { s with lzd := { s.lzd with run := some r } }

/-- The state after a literal run has been executed (spec/44_lz_decompressor.md R227). -/
def litDone (r : LzRun) (data : List Byte) (s : State) : State :=
  { s with
    mem := memWrite s.mem (s.lzd.dst.toNat + r.op) data,
    lzd := { s.lzd with run := some (advance r (1 + data.length) data.length) } }

/-- LIT (spec/44_lz_decompressor.md R225, R227). -/
def execLit (mark : Option Level) (data : List Byte) (s : State) : Host.Outcome State Fault Refusal :=
  match s.lzd.run with
  | none => .refused .notEnabled
  | some r0 =>
    let r := marked mark r0
    if s.lzd.len.toNat < r.ip + (1 + data.length) then .next (raiseError .lzd .lzInOverrun (withRun r s))
    else if s.lzd.expLen.toNat < r.op + data.length then .next (raiseError .lzd .lzOutOverrun (withRun r s))
    else .next (litDone r data s)

/-- MATCH1.S (spec/44_lz_decompressor.md R228). -/
def execMatch1S (f : BitVec 3) (h : BitVec 5) (lo : Byte) (s : State) : Host.Outcome State Fault Refusal :=
  runMatch (tokenSize (.match1S f h lo)) f.toNat (nearDv h lo) s

/-- MATCH1.L (spec/44_lz_decompressor.md R229). -/
def execMatch1L (h : BitVec 5) (x : Byte) (lo : Byte) (s : State) : Host.Outcome State Fault Refusal :=
  runMatch (tokenSize (.match1L h x lo)) (extLv x) (nearDv h lo) s

/-- MATCH2.S (spec/44_lz_decompressor.md R230). -/
def execMatch2S (f : BitVec 3) (h : BitVec 5) (lo : Byte) (s : State) : Host.Outcome State Fault Refusal :=
  runMatch (tokenSize (.match2S f h lo)) f.toNat (nearDv h lo) s

/-- MATCH2.L (spec/44_lz_decompressor.md R231). -/
def execMatch2L (h : BitVec 5) (n : Nat) (x : Byte) (lo : Byte) (s : State) : Host.Outcome State Fault Refusal :=
  runMatch (tokenSize (.match2L h n x lo)) (chainLv n x) (nearDv h lo) s

/-- MATCH2.SF (spec/44_lz_decompressor.md R232). -/
def execMatch2SF (f : BitVec 3) (xd : BitVec 16) (s : State) : Host.Outcome State Fault Refusal :=
  runMatch (tokenSize (.match2SF f xd)) f.toNat (farDv xd) s

/-- MATCH2.LF (spec/44_lz_decompressor.md R233). -/
def execMatch2LF (n : Nat) (x : Byte) (xd : BitVec 16) (s : State) : Host.Outcome State Fault Refusal :=
  runMatch (tokenSize (.match2LF n x xd)) (chainLv n x) (farDv xd) s

/-- LZ.BADLEVEL: the operation ends with LZ_LEVEL (spec/44_lz_decompressor.md R226). -/
def execLzBadlevel (_m : BitVec 3) (_h : BitVec 5) (s : State) : Host.Outcome State Fault Refusal :=
  match s.lzd.run with
  | none => .refused .notEnabled
  | some _ => .next (raiseError .lzd .lzLevel s)

/-- A token's execution; a command is no token and does not stand in a stream. -/
def runToken (i : Instr) (s : State) : Host.Outcome State Fault Refusal :=
  match i with
  | .crc32 _ => .refused .notEnabled
  | .encEcb _ => .refused .notEnabled
  | .encCbc _ => .refused .notEnabled
  | .decEcb _ => .refused .notEnabled
  | .decCbc _ => .refused .notEnabled
  | .ciphBadmode _ _ _ => .refused .notEnabled
  | .lzd _ => .refused .notEnabled
  | .clear _ => .refused .notEnabled
  | .lit mark data => execLit mark data s
  | .match1S f h lo => execMatch1S f h lo s
  | .match1L h x lo => execMatch1L h x lo s
  | .match2S f h lo => execMatch2S f h lo s
  | .match2L h n x lo => execMatch2L h n x lo s
  | .match2SF f xd => execMatch2SF f xd s
  | .match2LF n x xd => execMatch2LF n x xd s
  | .lzBadlevel m h => execLzBadlevel m h s

/-! ## The loop -/

/-- The place of the next token: the first byte of the stream, or a later one at the stream's level
(spec/30_encoding.md R102, R103). -/
def runContext (r : LzRun) : Option Level := if r.first then none else r.level

/-- src[ip + i], `none` at or beyond stream index N (spec/44_lz_decompressor.md R221, R242). -/
def srcByte (s : State) (r : LzRun) (i : Nat) : Option Byte :=
  if r.ip + i < s.lzd.len.toNat then some (memGet s.mem (s.lzd.src.toNat + r.ip + i)) else none

/-- The token at `ip` (spec/44_lz_decompressor.md R222, R224). -/
def fetchToken (s : State) (r : LzRun) : Except DecodeError Instr :=
  decodeToken (runContext r) (srcByte s r) (s.lzd.len.toNat - r.ip)

/-- The working state with the level that the control byte at `ip` makes known: what a token cut off by the end of the
input reports (spec/44_lz_decompressor.md R225, R249). -/
def levelFetched (s : State) (r : LzRun) : LzRun :=
  { r with
    level := levelAfter (runContext r) (memGet s.mem (s.lzd.src.toNat + r.ip)), first := false }

/-- The state after a decompression has succeeded (spec/44_lz_decompressor.md R222, R250). -/
def lzdDone (r : LzRun) (s : State) : State :=
  { s with lzd := { s.lzd with
      status := doneStatus r.level, outLen := BitVec.ofNat 32 r.op, inUsed := BitVec.ofNat 32 r.ip, run := none } }

/-- One turn of the main loop: success when the output is complete, LZ_SHORT when the input is used up, otherwise the
next token, fetched and executed; a token cut off by the end of the input is LZ_IN_OVERRUN
(spec/44_lz_decompressor.md R222, R223, R242, R245, R246). -/
def lzdTick (s : State) : Host.Outcome State Fault Refusal :=
  match s.lzd.run with
  | none => .refused .notEnabled
  | some r =>
    if s.lzd.expLen.toNat ≤ r.op then .next (lzdDone r s)
    else if s.lzd.len.toNat ≤ r.ip then .next (raiseError .lzd .lzShort s)
    else
      match fetchToken s r with
      | .error _ => .next (raiseError .lzd .lzInOverrun (withRun (levelFetched s r) s))
      | .ok i => runToken i s

/-- Turns of the main loop until the decompression ends, at most `fuel` of them. -/
def lzdLoop : Nat → State → Host.Outcome State Fault Refusal
  | 0, s => .next s
  | fuel + 1, s =>
    match lzdTick s with
    | .next t =>
      match t.lzd.run with
      | none => .next t
      | some _ => lzdLoop fuel t
    | .fault e => .fault e
    | .refused e => .refused e

/-- The working state at the start of a decompression (spec/44_lz_decompressor.md R222, spec/10_state.md R50). -/
def freshRun : LzRun := { ip := 0, op := 0, level := none, first := true }

/-- The completion step of LZD: the address checks, then the loop. Every token is at least two bytes long
(spec/30_encoding.md R113), so N + 1 turns are more than it can take (spec/40_commands.md R137;
spec/44_lz_decompressor.md R222). -/
def completeLzd (s : State) : Host.Outcome State Fault Refusal :=
  if !unitBusy s .lzd then .refused .notEnabled
  else if !spanInMemory s.memSize (lzdClaim s).rd || !spanInMemory s.memSize (lzdClaim s).wr then
    .next (raiseError .lzd .addr (withRun freshRun s))
  else if spansMeet (lzdClaim s).rd (lzdClaim s).wr then .next (raiseError .lzd .addr (withRun freshRun s))
  else if unitClash s .lzd then .refused .rangeOwned
  else lzdLoop (s.lzd.len.toNat + 1) (withRun freshRun s)

/-- LZD (spec/44_lz_decompressor.md R222). -/
def execLzd (ph : Phase) (s : State) : Host.Outcome State Fault Refusal :=
  match ph with
  | .start => startCommand .lzd (lzdClaim s) s
  | .complete => completeLzd s

end Sys2Proof.Machine
end

