-- ==== Sys2Proof/Machine/Dispatch.lean ====
section
/-! DEFINITION. One arm per instruction. -/

namespace Sys2Proof.Machine

def exec (i : Instr) (s : State) : Host.Outcome State Fault Refusal :=
  match i with
  | .crc32 ph => Sys2Proof.Machine.execCrc32 ph s
  | .encEcb ph => Sys2Proof.Machine.execEncEcb ph s
  | .encCbc ph => Sys2Proof.Machine.execEncCbc ph s
  | .decEcb ph => Sys2Proof.Machine.execDecEcb ph s
  | .decCbc ph => Sys2Proof.Machine.execDecCbc ph s
  | .ciphBadmode alg dir ph => Sys2Proof.Machine.execCiphBadmode alg dir ph s
  | .lzd ph => Sys2Proof.Machine.execLzd ph s
  | .clear u => Sys2Proof.Machine.execClear u s
  | .lit mark data => Sys2Proof.Machine.execLit mark data s
  | .match1S f h lo => Sys2Proof.Machine.execMatch1S f h lo s
  | .match1L h x lo => Sys2Proof.Machine.execMatch1L h x lo s
  | .match2S f h lo => Sys2Proof.Machine.execMatch2S f h lo s
  | .match2L h n x lo => Sys2Proof.Machine.execMatch2L h n x lo s
  | .match2SF f xd => Sys2Proof.Machine.execMatch2SF f xd s
  | .match2LF n x xd => Sys2Proof.Machine.execMatch2LF n x xd s
  | .lzBadlevel m h => Sys2Proof.Machine.execLzBadlevel m h s

end Sys2Proof.Machine
end

