-- ==== Sys2Proof/Machine/Events.lean ====
section
/-! DEFINITION. What the outside does to the machine, one event at a time: the host's register accesses
(spec/40_commands.md R130, R131), its accesses to buffer memory (spec/20_memory.md R61), a unit's turn
(spec/40_commands.md R136), RESET (spec/70_reset_and_hazards.md R310). And how a table word is placed to be the next
thing that runs. -/

namespace Sys2Proof.Machine

/-- A host write of a CTRL port: the instruction it decodes to; no instruction, no effect (spec/30_encoding.md R90,
spec/10_state.md R36). -/
def writeCtrl (off : Nat) (v : Word) (s : State) : Host.Outcome State Fault Refusal :=
  match decode none (.ctrlWrite off s.ciph.mode v) with
  | .ok i => exec i s
  | .error _ => .next s

/-- A host write of the register window (spec/10_state.md R21, spec/40_commands.md R131). -/
def hostWrite (width off : Nat) (v : Word) (s : State) : Host.Outcome State Fault Refusal :=
  if !legalAccess width off then .refused .badRegisterAccess
  else
    match ctrlUnit off with
    | some _ => writeCtrl off v s
    | none => .next (writeOffset off v s)

/-- A host read of the register window (spec/10_state.md R21, spec/40_commands.md R130). -/
def hostRead (width off : Nat) (s : State) : Host.Outcome State Fault Refusal :=
  if !legalAccess width off then .refused .badRegisterAccess
  else .next (readRegister off s)

/-- A unit's turn: a busy unit takes its completion step, the step of the command its START began; an idle or done
unit has no enabled step and nothing happens (spec/40_commands.md R134, R136, R137). -/
def unitTurn (u : UnitId) (s : State) : Host.Outcome State Fault Refusal :=
  if unitBusy s u then
    match decode none (.unitTurn u s.ciph.mode) with
    | .ok i => exec i s
    | .error _ => .next s
  else .next s

/-- One event. -/
def runInput (i : Input) (s : State) : Host.Outcome State Fault Refusal :=
  match i with
  | .regRead width off => hostRead width off s
  | .regWrite width off v => hostWrite width off v s
  | .memRead addr n => hostMemRead addr n s
  | .memWrite addr bytes => hostMemWrite addr bytes s
  | .turn u => unitTurn u s
  | .reset => .next (resetBlock s)

/-- Nothing more comes from outside: a unit that is still busy completes (spec/40_commands.md R137), CRC before CIPH
before LZD. DESIGN CHOICE: the spec leaves the order open; `inputs` can hold any other. Log entry 5. -/
def quietStep (s : State) : Host.Outcome State Fault Refusal :=
  if unitBusy s .crc then unitTurn .crc s
  else if unitBusy s .ciph then unitTurn .ciph s
  else unitTurn .lzd s

/-- The next event of `inputs`, or a quiet step. -/
def nextEvent (s : State) : Host.Outcome State Fault Refusal :=
  match s.inputs with
  | [] => quietStep s
  | i :: rest => runInput i { s with inputs := rest }

/-! ## Placing a table word -/

/-- A CTRL value: the next event is a host write of it to CRC_CTRL. Log entry 13. -/
def placeCtrl (w : Nat) (s : State) : State :=
  { s with
    lzd := { s.lzd with run := none },
    inputs := .regWrite 32 0x000 (BitVec.ofNat 32 w) :: s.inputs }

/-- A token: the LZD unit stands inside a level-2 decompression, before a stream of the word's bytes and zeros, with
enough output behind it and before it for any match of the table. Log entry 13. -/
def placeToken (nbits w : Nat) (s : State) : State :=
  { s with
    lzd := { s.lzd with
      status := startedStatus, src := 0x00#32,
      len := BitVec.ofNat 32 (tableBytes nbits w ++ tablePad).length, dst := 0x100#32, expLen := 0x14000#32,
      run := some { ip := 0, op := 0x12000, level := some .two, first := false } },
    mem := memWrite s.mem 0 (tableBytes nbits w ++ tablePad) }

end Sys2Proof.Machine
end

