-- ==== Sys2Proof/Machine/Step.lean ====
section
/-! DEFINITION. One step of the machine, and the placing of an instruction for the next step. -/

namespace Sys2Proof.Machine

/-- One step. Between completion steps it is the next event. Inside a decompression it is one token of it: the LZD
unit's completion step is one atomic transition (spec/40_commands.md R136), so no event falls inside. Log entry 7. -/
def step (s : State) : Host.Outcome State Fault Refusal :=
  match s.lzd.run with
  | some _ => lzdTick s
  | none => nextEvent s

/-- `s` with a table word placed so that the very next step runs it. Log entry 13. -/
def State.withFetchWord (s : State) (nbits w : Nat) : State :=
  if isCtrlWord w then placeCtrl w s else placeToken nbits w s

end Sys2Proof.Machine
end

