-- ==== Sys2Proof/Safety.lean ====
section
/-! DEFINITION. The terms claims are made in: the state invariant, the conditions under which each command runs, what
"unchanged outside" means, runs of several steps, and what a sequence of LZ tokens means without the machine. -/

namespace Sys2Proof.Machine

/-! ## The state invariant -/

/-- The invariants of every STATUS register (spec/10_state.md R38). -/
def statusOk (st : Status) : Bool :=
  !(st.busy && st.done) && (!st.err || st.done) && (decide (st.cause ≠ .noCause) == st.err) &&
    (st.level.isNone || st.done)

/-- A decompression under way: the unit is busy, its ranges passed the address checks, the cursors are in range, the
level is known exactly after the first control byte (spec/10_state.md R50). -/
def runOk (s : State) (r : LzRun) : Bool :=
  s.lzd.status.busy && spanInMemory s.memSize (lzdClaim s).rd && spanInMemory s.memSize (lzdClaim s).wr &&
    !spansMeet (lzdClaim s).rd (lzdClaim s).wr && decide (r.ip ≤ s.lzd.len.toNat) &&
    decide (r.op ≤ s.lzd.expLen.toNat) &&
    (if r.first then r.level.isNone && decide (r.ip = 0) && decide (r.op = 0) else r.level.isSome)

/-- The buffers a CIPH operation owns: those of a command, none with an unsupported mode. -/
def ciphOwns (s : State) : Claim :=
  if modeAlg s.ciph.mode = 1#2 ∨ modeAlg s.ciph.mode = 2#2 then ciphClaim s else emptyClaim

/-- What holds in every state a run reaches. -/
structure Inv (s : State) : Prop where
  crcStatus : statusOk s.crc.status = true
  ciphStatus : statusOk s.ciph.status = true
  lzdStatus : statusOk s.lzd.status = true
  /-- LEVEL exists in LZD_STATUS only (spec/10_state.md R37). -/
  crcLevel : s.crc.status.level = none
  ciphLevel : s.ciph.status.level = none
  /-- The reserved bits of CIPH_MODE are 0 (spec/10_state.md R39). -/
  mode : s.ciph.mode &&& ~~~modeMask = 0
  /-- Memory is in canonical form and lists only addresses that exist (spec/20_memory.md R60). -/
  mem : memWf s.mem = true
  memIn : ∀ c ∈ s.mem, c.1 < s.memSize
  /-- The range of the parameter MEM_SIZE (spec/00_scope.md R9). -/
  size : 1 ≤ s.memSize ∧ s.memSize ≤ 2 ^ 32
  /-- CRC_RESULT is 0 while busy and after an error (spec/40_commands.md R130, spec/41_crc32.md R157). -/
  crcResult : (s.crc.status.busy || s.crc.status.err) = true → s.crc.result = 0
  /-- LZD_OUT_LEN and LZD_IN_USED are 0 while busy (spec/40_commands.md R130). -/
  lzdResult : s.lzd.status.busy = true → s.lzd.outLen = 0 ∧ s.lzd.inUsed = 0
  /-- A busy unit owns the ranges its registers name (spec/20_memory.md R76, spec/40_commands.md R134). -/
  crcOwns : s.crc.status.busy = true → unitClaim s .crc = some (crcClaim s)
  ciphOwns : s.ciph.status.busy = true → unitClaim s .ciph = some (ciphOwns s)
  lzdOwns : s.lzd.status.busy = true → unitClaim s .lzd = some (lzdClaim s)
  run : ∀ r, s.lzd.run = some r → runOk s r = true

/-! ## When a command runs -/

/-- CRC32 runs and succeeds: the unit is busy, the input range is in memory, no other operation interferes
(spec/41_crc32.md R155, spec/20_memory.md R76). -/
def crcReady (s : State) : Bool :=
  unitBusy s .crc && spanInMemory s.memSize (crcClaim s).rd && !unitClash s .crc

/-- A CIPH command runs and succeeds (spec/42_cipher_adapter.md R185, spec/20_memory.md R76). -/
def ciphReady (s : State) : Bool :=
  unitBusy s .ciph && decide (s.ciph.len.toNat % 16 = 0) && spanInMemory s.memSize (ciphClaim s).rd &&
    spanInMemory s.memSize (ciphClaim s).wr && !badOverlap s && !unitClash s .ciph

/-- LZD runs its stream: the address checks pass (spec/44_lz_decompressor.md R222, spec/20_memory.md R76). -/
def lzdReady (s : State) : Bool :=
  unitBusy s .lzd && spanInMemory s.memSize (lzdClaim s).rd && spanInMemory s.memSize (lzdClaim s).wr &&
    !spansMeet (lzdClaim s).rd (lzdClaim s).wr && !unitClash s .lzd

/-! ## Frames -/

/-- Every byte outside a range reads as before. -/
def sameOutside (r : Span) (m m' : List Host.Cell) : Prop := ∀ a, spanHas r a = false → memGet m' a = memGet m a

/-- Everything is as before but the STATUS of CIPH, which reports success, and the memory. -/
def ciphSucceeded (s t : State) : Prop :=
  t = { s with ciph := { s.ciph with status := doneStatus none }, mem := t.mem }

/-- Everything but LZD and the memory is as before. -/
def sameButLzd (s t : State) : Prop :=
  t = { s with lzd := t.lzd, mem := t.mem }

/-- Everything but the working state of LZD and the memory is as before. -/
def sameButRun (s t : State) : Prop :=
  t = { s with lzd := { s.lzd with run := t.lzd.run }, mem := t.mem }

/-- The unit an instruction belongs to (spec/30_encoding.md R90, spec/00_scope.md R16). -/
def unitOf : Instr → UnitId
  | .crc32 _ => .crc
  | .encEcb _ => .ciph
  | .encCbc _ => .ciph
  | .decEcb _ => .ciph
  | .decCbc _ => .ciph
  | .ciphBadmode _ _ _ => .ciph
  | .lzd _ => .lzd
  | .clear u => u
  | .lit _ _ => .lzd
  | .match1S _ _ _ => .lzd
  | .match1L _ _ _ => .lzd
  | .match2S _ _ _ => .lzd
  | .match2L _ _ _ _ => .lzd
  | .match2SF _ _ => .lzd
  | .match2LF _ _ _ => .lzd
  | .lzBadlevel _ _ => .lzd

/-- The offsets of the read-write registers (spec/10_state.md R23). -/
def rwOffsets : List Nat :=
  [0x008, 0x00C, 0x108, 0x10C, 0x110, 0x114, 0x140, 0x144, 0x148, 0x14C, 0x208, 0x20C, 0x210, 0x214]

/-- The registers of LZD that only the host writes, and its claims, are as before (spec/44_lz_decompressor.md R222,
"State written"). -/
def sameLzdDescriptors (s t : State) : Prop :=
  t.lzd.src = s.lzd.src ∧ t.lzd.len = s.lzd.len ∧ t.lzd.dst = s.lzd.dst ∧ t.lzd.expLen = s.lzd.expLen ∧
    t.lzd.claims = s.lzd.claims

/-! ## Runs -/

/-- How one unit's STATUS may move in a step that is no RESET (spec/40_commands.md R135): not at all; from idle or
done to busy; from busy to done; from idle or done to cleared. -/
def lifeCycle (st st' : Status) : Prop :=
  st' = st ∨ (st.busy = false ∧ st' = startedStatus) ∨ (st.busy = true ∧ st'.busy = false ∧ st'.done = true) ∨
    (st.busy = false ∧ st' = clearedStatus st)

/-- The CIPH unit started again with the registers as they are. -/
def ciphAgain (s : State) : State := startUnit .ciph (ciphClaim s) s

/-- `n` steps, all of them next states. -/
def stepsTo : Nat → State → State → Prop
  | 0, s, t => s = t
  | n + 1, s, t => ∃ u, step s = .next u ∧ stepsTo n u t

/-! ## LZ tokens without the machine -/

/-- The output after a match: `n` bytes, each a copy of the byte `dist` back (spec/44_lz_decompressor.md R240, R241). -/
def copyOut (dist : Nat) : Nat → List Byte → List Byte
  | 0, out => out
  | n + 1, out => copyOut dist n (out ++ [out.getD (out.length - dist) 0])

/-- Stored length and stored distance of a match token (spec/30_encoding.md R105 to R110). -/
def storedPair : Instr → Option (Nat × Nat)
  | .crc32 _ => none
  | .encEcb _ => none
  | .encCbc _ => none
  | .decEcb _ => none
  | .decCbc _ => none
  | .ciphBadmode _ _ _ => none
  | .lzd _ => none
  | .clear _ => none
  | .lit _ _ => none
  | .match1S f h lo => some (f.toNat, nearDv h lo)
  | .match1L h x lo => some (extLv x, nearDv h lo)
  | .match2S f h lo => some (f.toNat, nearDv h lo)
  | .match2L h n x lo => some (chainLv n x, nearDv h lo)
  | .match2SF f xd => some (f.toNat, farDv xd)
  | .match2LF n x xd => some (chainLv n x, farDv xd)
  | .lzBadlevel _ _ => none

/-- The output after one token, given the output before it; `none` if the token refers to bytes before its start or is
no token (spec/44_lz_decompressor.md R227 to R233, R244). -/
def tokenOut (i : Instr) (out : List Byte) : Option (List Byte) :=
  match i with
  | .lit _ data => some (out ++ data)
  | j =>
    match storedPair j with
    | none => none
    | some (lv, dv) =>
      if out.length < trueDistance dv then none else some (copyOut (trueDistance dv) (trueLength lv) out)

/-- The output of a sequence of tokens. -/
def streamOut : List Instr → List Byte → Option (List Byte)
  | [], out => some out
  | i :: is, out =>
    match tokenOut i out with
    | none => none
    | some out' => streamOut is out'

/-- A token after the first in a stream of level `l`. -/
def laterToken (l : Level) (i : Instr) : Bool := i.isToken && i.wellFormed && i.fitsContext (some l)

/-- The tokens of a stream: a literal run that carries the level marker, then tokens of that level
(spec/30_encoding.md R102, spec/44_lz_decompressor.md R252). -/
def goodStream (l : Level) : List Instr → Bool
  | .lit (some l') data :: rest =>
    decide (l' = l) && (Instr.lit (some l') data).wellFormed && rest.all (laterToken l)
  | _ => false

end Sys2Proof.Machine
end

