-- ==== Sys2Proof/Certificates/Slice0/Obligations.lean ====
section
/-! DEFINITION. The statements for the provers. Each docstring says which rule it formalises. -/

open Sys2Proof Sys2Proof.Machine

/-! ## Encoding -/

/-- Decoding inverts encoding (spec/30_encoding.md R90 to R93, R104 to R112): every well-formed instruction, with every
operand, in every place it may stand. -/
def Obligations.DecodeOfEncodeIsIdentity : Prop :=
  ∀ (i : Instr) (ctx : Option Level),
    i.wellFormed = true → i.fitsContext ctx = true → decode ctx (encode i) = .ok i

/-- A token is known by its own bytes: what follows it in the stream makes no difference (spec/30_encoding.md R100,
R113). -/
def Obligations.TokenDecodeIgnoresWhatFollows : Prop :=
  ∀ (i : Instr) (ctx : Option Level) (rest : List Byte),
    i.isToken = true → i.wellFormed = true → i.fitsContext ctx = true →
      decode ctx (.stream (tokenBytes i ++ rest)) = .ok i

/-- Whatever the decoder reads from a stream is a well-formed token of that place, and its encoding is what stood
there: one encoding for each token (spec/30_encoding.md R112). -/
def Obligations.DecodedTokenIsItsEncoding : Prop :=
  ∀ (ctx : Option Level) (bytes : List Byte) (i : Instr),
    decode ctx (.stream bytes) = .ok i →
      i.isToken = true ∧ i.wellFormed = true ∧ i.fitsContext ctx = true ∧ ∃ rest, bytes = tokenBytes i ++ rest

/-- No bit pattern of a stream is illegal in itself (spec/30_encoding.md R115): the decoder refuses bytes only because
they end inside a token, and some continuation completes it. -/
def Obligations.StreamRefusedOnlyWhenCutOff : Prop :=
  ∀ (ctx : Option Level) (bytes : List Byte) (e : DecodeError),
    decode ctx (.stream bytes) = .error e →
      e = .truncated ∧ ∃ more i, decode ctx (.stream (bytes ++ more)) = .ok i

/-- Words written out from the tables of spec/30_encoding.md (R92, R104 to R112) decode to what they stand for. -/
def Obligations.ListedWordsDecode : Prop :=
  decode none (.ctrlWrite 0x000 0 1) = .ok (.crc32 .start) ∧
  decode none (.ctrlWrite 0x100 0x101 1) = .ok (.decEcb .start) ∧
  decode none (.ctrlWrite 0x200 0 2) = .ok (.clear .lzd) ∧
  decode none (.stream [0x22, 0x61, 0x62, 0x63]) = .ok (.lit (some .two) [0x61, 0x62, 0x63]) ∧
  decode (some .one) (.stream [0x3F, 0xFF]) = .ok (.match1S 1 31 0xFF) ∧
  decode (some .two) (.stream [0x3F, 0xFF, 0x00, 0x01]) = .ok (.match2SF 1 1) ∧
  decode (some .two) (.stream [0xE0, 0xFF, 0xFF, 0x05, 0x00]) = .ok (.match2L 0 2 5 0) ∧
  decode (some .two) (.stream [0xFF, 0x01, 0xFF, 0x03, 0x28]) = .ok (.match2LF 0 1 808)

/-! ## CRC -/

/-- CRC32 completes with the checksum of its input range; nothing else changes (spec/41_crc32.md R155). -/
def Obligations.Crc32CompletesWithChecksum : Prop :=
  ∀ s : State, crcReady s = true →
    exec (.crc32 .complete) s = .next { s with crc := { s.crc with
      status := doneStatus none, result := crc32 (memRead s.mem s.crc.src.toNat s.crc.len.toNat) } }

/-- An input range outside memory is ADDR: STATUS reads 0x106, CRC_RESULT stays as START left it
(spec/41_crc32.md R157). -/
def Obligations.Crc32OutsideMemoryIsAddr : Prop :=
  statusWord (failedStatus .addr none) = 0x106 ∧
  ∀ s : State, unitBusy s .crc = true → 0 < s.crc.len.toNat → s.memSize < s.crc.src.toNat + s.crc.len.toNat →
    exec (.crc32 .complete) s = .next { s with crc := { s.crc with status := failedStatus .addr none } }

/-- With N = 0 the checksum is 0 and the command succeeds, wherever CRC_SRC points and whatever the other units do
(spec/41_crc32.md R156). The second hypothesis is what START left: the unit owns the ranges its registers name. -/
def Obligations.Crc32OfNothingIsZero : Prop :=
  Config.crcInit ^^^ Config.crcXorOut = 0 ∧
  ∀ s : State, unitBusy s .crc = true → unitClaim s .crc = some (crcClaim s) → s.crc.len = 0 →
    exec (.crc32 .complete) s = .next { s with crc := { s.crc with status := doneStatus none, result := 0 } }

/-- The table form of a byte step, and the listed entries of the table (spec/41_crc32.md R153). -/
def Obligations.CrcByteIsTableStep : Prop :=
  (∀ (a : Word) (b : Byte),
    crcByte a b = crcBits 8 ((a ^^^ b.setWidth 32) &&& 0xFF#32) ^^^ (a >>> 8)) ∧
  crcBits 8 0 = 0 ∧ crcBits 8 1 = 0x77073096 ∧ crcBits 8 2 = 0xEE0E612C ∧ crcBits 8 3 = 0x990951BA ∧
  crcBits 8 8 = 0x0EDB8832 ∧ crcBits 8 16 = 0x1DB71064 ∧ crcBits 8 128 = 0xEDB88320 ∧ crcBits 8 255 = 0x2D02EF8D

/-- Changing one byte changes the checksum (spec/41_crc32.md R160). -/
def Obligations.CrcDetectsOneChangedByte : Prop :=
  ∀ (before after : List Byte) (b b' : Byte), b ≠ b' →
    crc32 (before ++ b :: after) ≠ crc32 (before ++ b' :: after)

/-! ## CIPH -/

/-- ENC.ECB: every output block is the encryption of its input block; no byte outside [D, D+N) changes; of the
registers only STATUS does, whatever primitive the block holds (spec/42_cipher_adapter.md R172, R176, R185; spec/20_memory.md R73). Also in place. -/
def Obligations.EncEcbEncryptsEveryBlock : Prop :=
  ∀ s : State, memWf s.mem = true → ciphReady s = true →
    ∃ t, exec (.encEcb .complete) s = .next t ∧
      (∀ j, j < s.ciph.len.toNat / 16 →
        readBlock t.mem (s.ciph.dst.toNat + 16 * j) =
          (bc s).enc (unitKey s) (readBlock s.mem (s.ciph.src.toNat + 16 * j))) ∧
      sameOutside (ciphClaim s).wr s.mem t.mem ∧ ciphSucceeded s t

/-- DEC.ECB (spec/42_cipher_adapter.md R173, R178, R185; spec/20_memory.md R73). -/
def Obligations.DecEcbDecryptsEveryBlock : Prop :=
  ∀ s : State, memWf s.mem = true → ciphReady s = true →
    ∃ t, exec (.decEcb .complete) s = .next t ∧
      (∀ j, j < s.ciph.len.toNat / 16 →
        readBlock t.mem (s.ciph.dst.toNat + 16 * j) =
          (bc s).dec (unitKey s) (readBlock s.mem (s.ciph.src.toNat + 16 * j))) ∧
      sameOutside (ciphClaim s).wr s.mem t.mem ∧ ciphSucceeded s t

/-- ENC.CBC: the first block is chained to the IV, every later one to the output block before it
(spec/42_cipher_adapter.md R174, R177, R185; spec/20_memory.md R73). -/
def Obligations.EncCbcChainsOutputBlocks : Prop :=
  ∀ s : State, memWf s.mem = true → ciphReady s = true →
    ∃ t, exec (.encCbc .complete) s = .next t ∧
      (∀ j, j < s.ciph.len.toNat / 16 →
        readBlock t.mem (s.ciph.dst.toNat + 16 * j) =
          (bc s).enc (unitKey s) (blockXor (readBlock s.mem (s.ciph.src.toNat + 16 * j))
            (if j = 0 then unitIv s else readBlock t.mem (s.ciph.dst.toNat + 16 * (j - 1))))) ∧
      sameOutside (ciphClaim s).wr s.mem t.mem ∧ ciphSucceeded s t

/-- DEC.CBC: the first block is chained to the IV, every later one to the input block before it, as it was before the
command (spec/42_cipher_adapter.md R175, R179, R185; spec/20_memory.md R73). -/
def Obligations.DecCbcChainsInputBlocks : Prop :=
  ∀ s : State, memWf s.mem = true → ciphReady s = true →
    ∃ t, exec (.decCbc .complete) s = .next t ∧
      (∀ j, j < s.ciph.len.toNat / 16 →
        readBlock t.mem (s.ciph.dst.toNat + 16 * j) =
          blockXor ((bc s).dec (unitKey s) (readBlock s.mem (s.ciph.src.toNat + 16 * j)))
            (if j = 0 then unitIv s else readBlock s.mem (s.ciph.src.toNat + 16 * (j - 1)))) ∧
      sameOutside (ciphClaim s).wr s.mem t.mem ∧ ciphSucceeded s t

/-- An unsupported ALG fails with CIPH_MODE, whatever the length and the addresses (spec/42_cipher_adapter.md R167,
R180, R183). -/
def Obligations.UnsupportedModeFails : Prop :=
  statusWord (failedStatus .ciphMode none) = 0x306 ∧
  (∀ (s : State) (alg : BadAlg) (dir : Dir), unitBusy s .ciph = true →
    exec (.ciphBadmode alg dir .complete) s =
      .next { s with ciph := { s.ciph with status := failedStatus .ciphMode none } }) ∧
  (∀ s : State, unitBusy s .ciph = true → modeAlg s.ciph.mode ≠ 1 → modeAlg s.ciph.mode ≠ 2 →
    unitTurn .ciph s = .next { s with ciph := { s.ciph with status := failedStatus .ciphMode none } })

/-- The checks of the four cipher commands in their order: CIPH_LEN, then ADDR for the ranges, then ADDR for the
overlap; nothing but STATUS changes (spec/42_cipher_adapter.md R168, R169, R183; spec/60_exceptions.md R290). -/
def Obligations.CiphChecksInOrder : Prop :=
  ∀ (s : State) (i : Instr),
    i = .encEcb .complete ∨ i = .encCbc .complete ∨ i = .decEcb .complete ∨ i = .decCbc .complete →
    unitBusy s .ciph = true →
    (s.ciph.len.toNat % 16 ≠ 0 →
      exec i s = .next { s with ciph := { s.ciph with status := failedStatus .ciphLen none } }) ∧
    (s.ciph.len.toNat % 16 = 0 → 0 < s.ciph.len.toNat →
      s.memSize < s.ciph.src.toNat + s.ciph.len.toNat ∨ s.memSize < s.ciph.dst.toNat + s.ciph.len.toNat →
      exec i s = .next { s with ciph := { s.ciph with status := failedStatus .addr none } }) ∧
    (s.ciph.len.toNat % 16 = 0 → s.ciph.dst ≠ s.ciph.src →
      s.ciph.src.toNat < s.ciph.dst.toNat + s.ciph.len.toNat →
      s.ciph.dst.toNat < s.ciph.src.toNat + s.ciph.len.toNat →
      exec i s = .next { s with ciph := { s.ciph with status := failedStatus .addr none } })

/-- ECB does not read the IV: with any other IV the command does the same (spec/42_cipher_adapter.md R181). -/
def Obligations.EcbIgnoresIv : Prop :=
  ∀ (s t : State) (iv : Quad Word) (i : Instr), i = .encEcb .complete ∨ i = .decEcb .complete →
    exec i s = .next t →
      exec i { s with ciph := { s.ciph with iv := iv } } = .next { t with ciph := { t.ciph with iv := iv } }

/-- Decrypting in place what was encrypted in place, with the same key, IV and mode, restores memory, and so does
encrypting what was decrypted (spec/42_cipher_adapter.md R182). -/
def Obligations.CipherRoundTripRestoresMemory : Prop :=
  ∀ (s t : State) (i j : Instr),
    (i = .encEcb .complete ∧ j = .decEcb .complete) ∨ (i = .decEcb .complete ∧ j = .encEcb .complete) ∨
      (i = .encCbc .complete ∧ j = .decCbc .complete) ∨ (i = .decCbc .complete ∧ j = .encCbc .complete) →
    memWf s.mem = true → ciphReady s = true → s.ciph.dst = s.ciph.src →
    s.crc.status.busy = false → s.lzd.status.busy = false →
    exec i s = .next t → ∃ u, exec j (ciphAgain t) = .next u ∧ u.mem = s.mem

/-- The two functions of the primitive undo each other, for every key and block, whichever primitive the block holds
(spec/43_aes256_primitive.md R206, spec/42_cipher_adapter.md R170, spec/00_scope.md R9; the primitives other than the
default are free values, log entry 3). -/
def Obligations.PrimitiveIsInvertible : Prop :=
  ∀ (s : State) (k : Key) (b : Block), (bc s).dec k ((bc s).enc k b) = b ∧ (bc s).enc k ((bc s).dec k b) = b

/-- The key 00 01 … 1F of the worked example. -/
def exampleKey : Key :=
  ⟨⟨0x00, 0x01, 0x02, 0x03⟩, ⟨0x04, 0x05, 0x06, 0x07⟩, ⟨0x08, 0x09, 0x0a, 0x0b⟩, ⟨0x0c, 0x0d, 0x0e, 0x0f⟩,
   ⟨0x10, 0x11, 0x12, 0x13⟩, ⟨0x14, 0x15, 0x16, 0x17⟩, ⟨0x18, 0x19, 0x1a, 0x1b⟩, ⟨0x1c, 0x1d, 0x1e, 0x1f⟩⟩

/-- The block 00 11 … FF of the worked example. -/
def exampleBlock : Block :=
  ⟨⟨0x00, 0x11, 0x22, 0x33⟩, ⟨0x44, 0x55, 0x66, 0x77⟩, ⟨0x88, 0x99, 0xaa, 0xbb⟩, ⟨0xcc, 0xdd, 0xee, 0xff⟩⟩

/-- The worked example of the primitive: the states of round 1, the result and back, and the all-zero key and block
(spec/43_aes256_primitive.md R207). -/
def Obligations.PrimitiveWorkedExample : Prop :=
  let w := keySchedule exampleKey
  let s0 := addRoundKey w 0 exampleBlock
  let out : Block :=
    ⟨⟨0x8e, 0xa2, 0xb7, 0xca⟩, ⟨0x51, 0x67, 0x45, 0xbf⟩, ⟨0xea, 0xfc, 0x49, 0x90⟩, ⟨0x4b, 0x49, 0x60, 0x89⟩⟩
  s0 = ⟨⟨0x00, 0x10, 0x20, 0x30⟩, ⟨0x40, 0x50, 0x60, 0x70⟩, ⟨0x80, 0x90, 0xa0, 0xb0⟩, ⟨0xc0, 0xd0, 0xe0, 0xf0⟩⟩ ∧
  subBytes s0 =
    ⟨⟨0x63, 0xca, 0xb7, 0x04⟩, ⟨0x09, 0x53, 0xd0, 0x51⟩, ⟨0xcd, 0x60, 0xe0, 0xe7⟩, ⟨0xba, 0x70, 0xe1, 0x8c⟩⟩ ∧
  shiftRows (subBytes s0) =
    ⟨⟨0x63, 0x53, 0xe0, 0x8c⟩, ⟨0x09, 0x60, 0xe1, 0x04⟩, ⟨0xcd, 0x70, 0xb7, 0x51⟩, ⟨0xba, 0xca, 0xd0, 0xe7⟩⟩ ∧
  mixColumns (shiftRows (subBytes s0)) =
    ⟨⟨0x5f, 0x72, 0x64, 0x15⟩, ⟨0x57, 0xf5, 0xbc, 0x92⟩, ⟨0xf7, 0xbe, 0x3b, 0x29⟩, ⟨0x1d, 0xb9, 0xf9, 0x1a⟩⟩ ∧
  encRound w s0 1 =
    ⟨⟨0x4f, 0x63, 0x76, 0x06⟩, ⟨0x43, 0xe0, 0xaa, 0x85⟩, ⟨0xef, 0xa7, 0x21, 0x32⟩, ⟨0x01, 0xa4, 0xe7, 0x05⟩⟩ ∧
  aesEncrypt exampleKey exampleBlock = out ∧ aesDecrypt exampleKey out = exampleBlock ∧
  aesEncrypt (Oct.fill zeroCol) (Quad.fill zeroCol) =
    ⟨⟨0xdc, 0x95, 0xc0, 0x78⟩, ⟨0xa2, 0x40, 0x89, 0x89⟩, ⟨0xad, 0x48, 0xa2, 0x14⟩, ⟨0x92, 0x84, 0x20, 0x87⟩⟩

/-- The substitution table is the affine map of the inverse in GF(2^8), and INV_SBOX undoes it
(spec/43_aes256_primitive.md R193, R194). -/
def Obligations.SboxIsAffineOfInverse : Prop :=
  (∀ a : Byte, ∃ b : Byte, (if a = 0 then b = 0 else gfMul a b = 1) ∧
    sbox a = b ^^^ b.rotateLeft 1 ^^^ b.rotateLeft 2 ^^^ b.rotateLeft 3 ^^^ b.rotateLeft 4 ^^^ 0x63) ∧
  ∀ a : Byte, invSbox (sbox a) = a

/-- Byte k of the key, and of the IV, is bits 8*(k mod 4)+7 : 8*(k mod 4) of register k div 4 (spec/10_state.md R41,
R43). -/
def Obligations.KeyAndIvPackingIsLittleEndian : Prop :=
  (∀ (k : Oct Word) (i : Fin 8) (j : Fin 4),
    (((keyBytes k).get i).get j).toNat = ((k.get i).toNat / 2 ^ (8 * j.val)) % 256) ∧
  (∀ (iv : Quad Word) (i j : Fin 4),
    (((ivBytes iv).get i).get j).toNat = ((iv.get i).toNat / 2 ^ (8 * j.val)) % 256)

/-! ## LZD: the tokens -/

/-- LIT writes its bytes to the output, verbatim, and moves both cursors; a first token's marker sets the level
(spec/44_lz_decompressor.md R225, R227). -/
def Obligations.LitWritesItsBytes : Prop :=
  ∀ (s : State) (r : LzRun) (mark : Option Level) (data : List Byte),
    memWf s.mem = true → s.lzd.run = some r → r.ip + (1 + data.length) ≤ s.lzd.len.toNat →
    r.op + data.length ≤ s.lzd.expLen.toNat →
    ∃ t, exec (.lit mark data) s = .next t ∧
      (∀ i, i < data.length → memGet t.mem (s.lzd.dst.toNat + r.op + i) = data.getD i 0) ∧
      sameOutside { base := s.lzd.dst.toNat + r.op, len := data.length } s.mem t.mem ∧
      t.lzd.run = some {
        ip := r.ip + (1 + data.length), op := r.op + data.length,
        level := (match mark with | some l => some l | none => r.level), first := false } ∧
      sameButRun s t

/-- Each of the six match forms MATCH1.S, MATCH1.L, MATCH2.S, MATCH2.L, MATCH2.SF, MATCH2.LF copies `length` bytes
from `distance` bytes back, byte by byte, so that a distance shorter than the length repeats the last `distance` bytes:
out[op + i] = out[op - distance + (i mod distance)] (spec/44_lz_decompressor.md R228 to R233, R240, R241). -/
def Obligations.MatchRepeatsEarlierOutput : Prop :=
  ∀ (s : State) (r : LzRun) (i : Instr) (lv dv : Nat), storedPair i = some (lv, dv) →
    memWf s.mem = true → s.lzd.run = some r → r.ip + tokenSize i ≤ s.lzd.len.toNat →
    r.op + (lv + 2) ≤ s.lzd.expLen.toNat → dv + 1 ≤ r.op →
    ∃ t, exec i s = .next t ∧
      (∀ k, k < lv + 2 →
        memGet t.mem (s.lzd.dst.toNat + r.op + k) =
          memGet s.mem (s.lzd.dst.toNat + r.op - (dv + 1) + k % (dv + 1))) ∧
      sameOutside { base := s.lzd.dst.toNat + r.op, len := lv + 2 } s.mem t.mem ∧
      t.lzd.run = some { ip := r.ip + tokenSize i, op := r.op + (lv + 2), level := r.level, first := false } ∧
      sameButRun s t

/-- How an error ends a decompression whose working state is `r`: STATUS, OUT_LEN, IN_USED and LEVEL as R249 says,
memory and everything else unchanged (spec/44_lz_decompressor.md R249). -/
def lzdFailed (c : Cause) (r : LzRun) (s : State) : State :=
  { s with lzd := { s.lzd with
      status := failedStatus c r.level, outLen := BitVec.ofNat 32 r.op, inUsed := BitVec.ofNat 32 r.ip, run := none } }

/-- The checks of the six match forms in their order, and what an error leaves (spec/44_lz_decompressor.md R242 to
R244, R249; spec/60_exceptions.md R290). -/
def Obligations.MatchErrorsInOrder : Prop :=
  ∀ (s : State) (r : LzRun) (i : Instr) (lv dv : Nat), storedPair i = some (lv, dv) → s.lzd.run = some r →
    (s.lzd.len.toNat < r.ip + tokenSize i → exec i s = .next (lzdFailed .lzInOverrun r s)) ∧
    (r.ip + tokenSize i ≤ s.lzd.len.toNat → s.lzd.expLen.toNat < r.op + (lv + 2) →
      exec i s = .next (lzdFailed .lzOutOverrun r s)) ∧
    (r.ip + tokenSize i ≤ s.lzd.len.toNat → r.op + (lv + 2) ≤ s.lzd.expLen.toNat → r.op < dv + 1 →
      exec i s = .next (lzdFailed .lzRefUnderrun r s))

/-- The checks of a literal run in their order, and what an error leaves; a first token's level is reported
(spec/44_lz_decompressor.md R225, R227, R249; spec/60_exceptions.md R290). -/
def Obligations.LitErrorsInOrder : Prop :=
  ∀ (s : State) (r : LzRun) (mark : Option Level) (data : List Byte), s.lzd.run = some r →
    let r' : LzRun := { r with level := (match mark with | some l => some l | none => r.level) }
    (s.lzd.len.toNat < r.ip + (1 + data.length) →
      exec (.lit mark data) s = .next (lzdFailed .lzInOverrun r' s)) ∧
    (r.ip + (1 + data.length) ≤ s.lzd.len.toNat → s.lzd.expLen.toNat < r.op + data.length →
      exec (.lit mark data) s = .next (lzdFailed .lzOutOverrun r' s))

/-- A stream whose first byte has marker 2 to 7 ends with LZ_LEVEL, nothing written (spec/44_lz_decompressor.md R226).
The first clause is the instruction itself, the second the whole command. -/
def Obligations.BadMarkerEndsWithLzLevel : Prop :=
  (∀ (s : State) (r : LzRun) (m : BitVec 3) (h : BitVec 5), s.lzd.run = some r →
    exec (.lzBadlevel m h) s = .next (lzdFailed .lzLevel r s)) ∧
  (∀ s : State, lzdReady s = true → 0 < s.lzd.expLen.toNat → 0 < s.lzd.len.toNat →
    2 ≤ (ctrlF (memGet s.mem s.lzd.src.toNat)).toNat →
    exec (.lzd .complete) s = .next (lzdFailed .lzLevel { ip := 0, op := 0, level := none, first := true } s)) ∧
  statusWord (failedStatus .lzLevel none) = 0x406

/-! ## LZD: the command -/

/-- E = 0 succeeds at once, nothing read or written (spec/44_lz_decompressor.md R247). -/
def Obligations.NoOutputWantedSucceeds : Prop :=
  ∀ s : State, lzdReady s = true → s.lzd.expLen = 0 →
    exec (.lzd .complete) s = .next { s with lzd := { s.lzd with
      status := doneStatus none, outLen := 0, inUsed := 0, run := none } }

/-- N = 0 with E > 0 is LZ_SHORT (spec/44_lz_decompressor.md R248). -/
def Obligations.NoInputIsShort : Prop :=
  ∀ s : State, lzdReady s = true → s.lzd.len = 0 → s.lzd.expLen ≠ 0 →
    exec (.lzd .complete) s = .next { s with lzd := { s.lzd with
      status := failedStatus .lzShort none, outLen := 0, inUsed := 0, run := none } }

/-- The address checks of LZD: a range outside memory, or input and output that share an address, is ADDR with
nothing decoded (spec/44_lz_decompressor.md R222, R249; spec/20_memory.md R65, R66). -/
def Obligations.LzdAddressErrors : Prop :=
  ∀ s : State, unitBusy s .lzd = true →
    (0 < s.lzd.len.toNat ∧ s.memSize < s.lzd.src.toNat + s.lzd.len.toNat) ∨
      (0 < s.lzd.expLen.toNat ∧ s.memSize < s.lzd.dst.toNat + s.lzd.expLen.toNat) ∨
      (0 < s.lzd.len.toNat ∧ 0 < s.lzd.expLen.toNat ∧ s.lzd.src.toNat < s.lzd.dst.toNat + s.lzd.expLen.toNat ∧
        s.lzd.dst.toNat < s.lzd.src.toNat + s.lzd.len.toNat) →
    exec (.lzd .complete) s = .next { s with lzd := { s.lzd with
      status := failedStatus .addr none, outLen := 0, inUsed := 0, run := none } }

/-- The completion step of LZD always finishes, with success or one named error (spec/40_commands.md R137): on success
OUT_LEN is E, on an error in the stream it is less, IN_USED is at most N, and a level is reported when anything was
written (spec/44_lz_decompressor.md R223, R249, R250). -/
def Obligations.LzdAlwaysFinishes : Prop :=
  ∀ s : State, unitBusy s .lzd = true → unitClash s .lzd = false →
    ∃ t, exec (.lzd .complete) s = .next t ∧ t.lzd.run = none ∧ t.lzd.status.busy = false ∧
      t.lzd.status.done = true ∧ statusOk t.lzd.status = true ∧
      (t.lzd.status.err = false → t.lzd.outLen = s.lzd.expLen) ∧
      (t.lzd.status.err = true → t.lzd.status.cause ≠ .addr → t.lzd.outLen.toNat < s.lzd.expLen.toNat) ∧
      t.lzd.inUsed.toNat ≤ s.lzd.len.toNat ∧ (t.lzd.outLen ≠ 0 → t.lzd.status.level.isSome = true)

/-- LZD changes no byte outside [D, D+OUT_LEN), whether it succeeds or fails, and nothing else but its own result
registers (spec/20_memory.md R73, spec/44_lz_decompressor.md R249). -/
def Obligations.LzdWritesOnlyItsOutput : Prop :=
  ∀ s t : State, memWf s.mem = true → exec (.lzd .complete) s = .next t →
    sameOutside { base := s.lzd.dst.toNat, len := t.lzd.outLen.toNat } s.mem t.mem ∧ sameButLzd s t ∧
      sameLzdDescriptors s t

/-- The atomic completion step of LZD is what its tokens do one step at a time: from the start of the decompression,
`step` by `step`, the same state is reached (spec/44_lz_decompressor.md R222, spec/00_scope.md R16). -/
def Obligations.LzdIsItsTokenSteps : Prop :=
  ∀ s : State, lzdReady s = true →
    ∃ t n, exec (.lzd .complete) s = .next t ∧ stepsTo n (withRun freshRun s) t

/-- LZD decodes every stream of well-formed tokens to what the tokens mean, whatever bytes follow, in either level;
the empty output comes from no input at all (spec/44_lz_decompressor.md R222, R246, R247, R250, R252). -/
def Obligations.LzdDecodesEveryStream : Prop :=
  (∀ s : State, lzdReady s = true → s.lzd.expLen = 0 →
    ∃ t, exec (.lzd .complete) s = .next t ∧ t.mem = s.mem ∧ t.lzd.status = doneStatus none ∧
      t.lzd.outLen = 0 ∧ t.lzd.inUsed = 0) ∧
  ∀ (s : State) (l : Level) (toks : List Instr) (out trailing : List Byte),
    memWf s.mem = true → lzdReady s = true → goodStream l toks = true → streamOut toks [] = some out →
    memRead s.mem s.lzd.src.toNat s.lzd.len.toNat = toks.flatMap tokenBytes ++ trailing →
    out.length = s.lzd.expLen.toNat →
    ∃ t, exec (.lzd .complete) s = .next t ∧
      memRead t.mem s.lzd.dst.toNat s.lzd.expLen.toNat = out ∧
      t.lzd.status = doneStatus (some l) ∧ t.lzd.outLen = s.lzd.expLen ∧
      t.lzd.inUsed.toNat = (toks.flatMap tokenBytes).length ∧
      sameOutside (lzdClaim s).wr s.mem t.mem ∧ sameButLzd s t ∧ sameLzdDescriptors s t

/-- The bytes after the ones a successful decompression used are never read: with other values there the outcome is
the same (spec/44_lz_decompressor.md R246). -/
def Obligations.TrailingInputIsIgnored : Prop :=
  ∀ (s t : State) (m : List Host.Cell), memWf s.mem = true → memWf m = true →
    exec (.lzd .complete) s = .next t → t.lzd.status.err = false →
    (∀ a, a < s.lzd.src.toNat + t.lzd.inUsed.toNat ∨ s.lzd.src.toNat + s.lzd.len.toNat ≤ a →
      memGet m a = memGet s.mem a) →
    ∃ t', exec (.lzd .complete) { s with mem := m } = .next t' ∧ t'.lzd = t.lzd ∧
      memRead t'.mem s.lzd.dst.toNat s.lzd.expLen.toNat = memRead t.mem s.lzd.dst.toNat s.lzd.expLen.toNat

/-! ## The life cycle of a command -/

/-- START, for each of the seven commands. A write to the unit's CTRL is a START when bit 0 is 1, whatever bit 1 and
bits 31:2 are, and nothing when bits 1:0 are 00 (spec/30_encoding.md R90, R91). Accepted, it sets BUSY, drops the old
status and results and has no other effect on the registers (spec/40_commands.md R132); the operation owns its buffers,
besides those of earlier operations whose DONE = 1 the host has not read (spec/20_memory.md R76; log entry 8). That a
START with an unsupported mode owns no buffers is the model's choice (log entry 11). -/
def Obligations.StartBeginsOperation : Prop :=
  (∀ s : State, unitBusy s .crc = false →
    exec (.crc32 .start) s = .next { s with crc := { s.crc with
      status := startedStatus, result := 0, claims := crcClaim s :: s.crc.claims } }) ∧
  (∀ (s : State) (i : Instr),
    i = .encEcb .start ∨ i = .encCbc .start ∨ i = .decEcb .start ∨ i = .decCbc .start → unitBusy s .ciph = false →
    exec i s = .next { s with ciph := { s.ciph with
      status := startedStatus, claims := ciphClaim s :: s.ciph.claims } }) ∧
  (∀ (s : State) (alg : BadAlg) (dir : Dir), unitBusy s .ciph = false →
    exec (.ciphBadmode alg dir .start) s = .next { s with ciph := { s.ciph with
      status := startedStatus, claims := emptyClaim :: s.ciph.claims } }) ∧
  (∀ s : State, unitBusy s .lzd = false →
    exec (.lzd .start) s = .next { s with lzd := { s.lzd with
      status := startedStatus, outLen := 0, inUsed := 0, claims := lzdClaim s :: s.lzd.claims } }) ∧
  statusWord startedStatus = 1 ∧
  (∀ (s : State) (u : UnitId) (v : Word), v.getLsbD 0 = true →
    hostWrite 32 (ctrlOffset u) v s = exec (decodeCommand u s.ciph.mode .start) s) ∧
  (∀ (s : State) (u : UnitId) (v : Word), v.getLsbD 0 = false → v.getLsbD 1 = false →
    hostWrite 32 (ctrlOffset u) v s = .next s)

/-- Every host write to the region of a busy unit is ignored: START, CLEAR, descriptors, mode, key, IV
(spec/40_commands.md R133, spec/10_state.md R46). -/
def Obligations.BusyUnitIgnoresWrites : Prop :=
  ∀ (s : State) (off : Nat) (v : Word) (u : UnitId),
    legalAccess 32 off = true → regionUnit off = some u → unitBusy s u = true →
      hostWrite 32 off v s = .next s

/-- CLEAR clears DONE, ERR, CAUSE and LEVEL of its unit if that is not busy, and nothing else; it is a write to the
unit's CTRL with bit 1 = 1 and bit 0 = 0 (spec/40_commands.md R139). -/
def Obligations.ClearClearsStatusOnly : Prop :=
  (∀ (s : State) (u : UnitId) (v : Word), v.getLsbD 0 = false → v.getLsbD 1 = true →
    hostWrite 32 (ctrlOffset u) v s = exec (.clear u) s) ∧
  ∀ s : State,
    (unitBusy s .crc = false → exec (.clear .crc) s = .next { s with crc := { s.crc with
      status := { s.crc.status with done := false, err := false, cause := .noCause, level := none } } }) ∧
    (unitBusy s .ciph = false → exec (.clear .ciph) s = .next { s with ciph := { s.ciph with
      status := { s.ciph.status with done := false, err := false, cause := .noCause, level := none } } }) ∧
    (unitBusy s .lzd = false → exec (.clear .lzd) s = .next { s with lzd := { s.lzd with
      status := { s.lzd.status with done := false, err := false, cause := .noCause, level := none } } }) ∧
    (∀ u, unitBusy s u = true → exec (.clear u) s = .next s)

/-- No instruction touches another unit, the host's data, the pending inputs or the parameters
(spec/40_commands.md R142, spec/00_scope.md R7). -/
def Obligations.InstructionsLeaveOtherUnitsAlone : Prop :=
  ∀ (i : Instr) (s t : State), exec i s = .next t →
    (unitOf i ≠ .crc → t.crc = s.crc) ∧ (unitOf i ≠ .ciph → t.ciph = s.ciph) ∧ (unitOf i ≠ .lzd → t.lzd = s.lzd) ∧
      t.memSize = s.memSize ∧ t.prim = s.prim ∧ t.inputs = s.inputs ∧ t.busData = s.busData ∧ t.memData = s.memData ∧
      t.resets = s.resets

/-- No instruction writes a descriptor, mode, key or IV register (spec/10_state.md R40, R42; spec/40_commands.md R134;
spec/60_exceptions.md R292). -/
def Obligations.InstructionsNeverWriteArguments : Prop :=
  ∀ (i : Instr) (s t : State), exec i s = .next t →
    t.crc.src = s.crc.src ∧ t.crc.len = s.crc.len ∧
      t.ciph.src = s.ciph.src ∧ t.ciph.len = s.ciph.len ∧ t.ciph.dst = s.ciph.dst ∧ t.ciph.mode = s.ciph.mode ∧
      t.ciph.key = s.ciph.key ∧ t.ciph.iv = s.ciph.iv ∧
      t.lzd.src = s.lzd.src ∧ t.lzd.len = s.lzd.len ∧ t.lzd.dst = s.lzd.dst ∧ t.lzd.expLen = s.lzd.expLen

/-! ## The register window -/

/-- The key cannot be read back: no read depends on it (spec/10_state.md R40). -/
def Obligations.ReadsNeverShowTheKey : Prop :=
  ∀ (s : State) (key : Oct Word) (width off : Nat) (t : State), hostRead width off s = .next t →
    hostRead width off { s with ciph := { s.ciph with key := key } } =
      .next { t with ciph := { t.ciph with key := key } }

/-- BLK_ID reads 0x46424A44 in every state and ignores writes (spec/10_state.md R44). -/
def Obligations.BlkIdIsConstant : Prop :=
  ∀ (s : State) (v : Word),
    hostRead 32 0x300 s = .next { s with busData := 0x46424A44 } ∧ hostWrite 32 0x300 v s = .next s

/-- A register read returns the register and changes no register, no memory and nothing that comes; reading DONE = 1
gives all the unit's buffers back (spec/40_commands.md R130, spec/20_memory.md R72, R76). -/
def Obligations.RegisterReadChangesNoRegister : Prop :=
  ∀ (s : State) (off : Nat), legalAccess 32 off = true →
    ∃ t, hostRead 32 off s = .next t ∧ t.busData = readOffset s off ∧
      (∀ off', readOffset t off' = readOffset s off') ∧ t.ciph.key = s.ciph.key ∧ t.mem = s.mem ∧
      t.lzd.run = s.lzd.run ∧ t.memSize = s.memSize ∧ t.prim = s.prim ∧ t.inputs = s.inputs ∧
      t.memData = s.memData ∧ t.resets = s.resets ∧
      (∀ u, unitClaims t u = if statusUnit off = some u ∧ (unitStatus s u).done = true then [] else unitClaims s u)

/-- A write to a register that is no CTRL port, its unit not busy: a read-write register then reads as the value
(CIPH_MODE as the value under 0x103), every other register reads as before; memory is unchanged
(spec/40_commands.md R131, spec/10_state.md R22, R23). -/
def Obligations.RegisterWriteReadsBack : Prop :=
  ∀ (s : State) (off : Nat) (v : Word), legalAccess 32 off = true → ctrlUnit off = none →
    writeLocked s off = false →
    ∃ t, hostWrite 32 off v s = .next t ∧ t.mem = s.mem ∧
      ∀ off', readOffset t off' =
        if off' = off ∧ off ∈ rwOffsets then (if off = 0x114 then v &&& 0x103 else v) else readOffset s off'

/-- Writing the key registers: CIPH_KEYi takes the value, its unit not busy, and nothing else changes
(spec/10_state.md R40). -/
def Obligations.KeyWriteSetsOneRegister : Prop :=
  ∀ (s : State) (i : Fin 8) (v : Word), unitBusy s .ciph = false →
    hostWrite 32 (0x120 + 4 * i.val) v s = .next { s with ciph := { s.ciph with key := s.ciph.key.set i v } } ∧
      ∀ j, (s.ciph.key.set i v).get j = if j = i then v else s.ciph.key.get j

/-- A register access is a 32-bit read or write at a multiple of 4 below 0x400; any other is refused, and no such
access is (spec/10_state.md R21). -/
def Obligations.BadRegisterAccessIsRefused : Prop :=
  ∀ (s : State) (width off : Nat) (v : Word),
    (width ≠ 32 ∨ off % 4 ≠ 0 ∨ 0x400 ≤ off →
      hostRead width off s = .refused .badRegisterAccess ∧ hostWrite width off v s = .refused .badRegisterAccess) ∧
    (width = 32 → off % 4 = 0 → off < 0x400 →
      (∃ t, hostRead width off s = .next t) ∧ ∃ t, hostWrite width off v s = .next t)

/-! ## Buffer memory and its ownership -/

/-- A host write inside memory and outside every owned buffer stores its bytes and changes no other byte, and a host
read then returns them (spec/20_memory.md R61 to R63, R75). -/
def Obligations.HostWriteThenReadReturnsBytes : Prop :=
  ∀ (s : State) (addr : Nat) (bytes : List Byte), memWf s.mem = true → addr + bytes.length ≤ s.memSize →
    (∀ u, ∀ c ∈ unitClaims s u,
      spansMeet c.rd { base := addr, len := bytes.length } = false ∧
        spansMeet c.wr { base := addr, len := bytes.length } = false) →
    ∃ t u, hostMemWrite addr bytes s = .next t ∧ t = { s with mem := t.mem } ∧
      sameOutside { base := addr, len := bytes.length } s.mem t.mem ∧
      hostMemRead addr bytes.length t = .next u ∧ u = { t with memData := bytes }

/-- A host step that touches an owned buffer, in memory, is refused: a write of a byte of the input or the output
range, a read of a byte of the output range (spec/20_memory.md R76, spec/93_implementation_defined.md U4). The buffers
are those of every operation whose DONE = 1 the host has not read, the latest or an earlier one (log entry 8). -/
def Obligations.OwnedBufferAccessIsRefused : Prop :=
  ∀ (s : State) (u : UnitId) (c : Claim) (addr n : Nat) (bytes : List Byte), c ∈ unitClaims s u →
    (addr + bytes.length ≤ s.memSize →
      spansMeet c.rd { base := addr, len := bytes.length } = true ∨
        spansMeet c.wr { base := addr, len := bytes.length } = true →
      hostMemWrite addr bytes s = .refused .rangeOwned) ∧
    (addr + n ≤ s.memSize → spansMeet c.wr { base := addr, len := n } = true →
      hostMemRead addr n s = .refused .rangeOwned)

/-- Two operations clash when another busy unit has a range that meets one of this unit's and one of the two is written;
two that only read the same bytes do not. A completion step whose checks pass is refused exactly then
(spec/20_memory.md R76, spec/93_implementation_defined.md U4; that the refusal comes after the checks that raise errors
is the model's choice, log entry 9). -/
def Obligations.ClashingCompletionIsRefused : Prop :=
  (∀ (s : State) (u : UnitId), unitClash s u = true ↔
    ∃ (v : UnitId) (a b : Claim), v ≠ u ∧ unitBusy s v = true ∧ unitClaim s u = some a ∧ unitClaim s v = some b ∧
      (spansMeet a.wr b.rd = true ∨ spansMeet a.wr b.wr = true ∨ spansMeet a.rd b.wr = true)) ∧
  (∀ s : State, unitBusy s .crc = true → spanInMemory s.memSize (crcClaim s).rd = true →
    (exec (.crc32 .complete) s = .refused .rangeOwned ↔ unitClash s .crc = true)) ∧
  (∀ (s : State) (i : Instr),
    i = .encEcb .complete ∨ i = .encCbc .complete ∨ i = .decEcb .complete ∨ i = .decCbc .complete →
    unitBusy s .ciph = true → s.ciph.len.toNat % 16 = 0 → spanInMemory s.memSize (ciphClaim s).rd = true →
    spanInMemory s.memSize (ciphClaim s).wr = true → badOverlap s = false →
    (exec i s = .refused .rangeOwned ↔ unitClash s .ciph = true)) ∧
  (∀ s : State, unitBusy s .lzd = true → spanInMemory s.memSize (lzdClaim s).rd = true →
    spanInMemory s.memSize (lzdClaim s).wr = true → spansMeet (lzdClaim s).rd (lzdClaim s).wr = false →
    (exec (.lzd .complete) s = .refused .rangeOwned ↔ unitClash s .lzd = true))

/-! ## Reset -/

/-- RESET: every register of the three units at its reset value, BLK_ID apart all reading 0; memory outside the output
ranges of the operations it abandons unchanged (spec/70_reset_and_hazards.md R311 to R313, spec/10_state.md R54). That
RESET is an event of the list `inputs` is log entry 4; that it leaves the events still to come, the data the host has
read and the parameters alone is log entry 20. -/
def Obligations.ResetClearsRegistersKeepsMemory : Prop :=
  ∀ (s : State) (rest : List Input), memWf s.mem = true → s.lzd.run = none → s.inputs = .reset :: rest →
    ∃ t, step s = .next t ∧ t.crc = State.reset.crc ∧ t.ciph = State.reset.ciph ∧ t.lzd = State.reset.lzd ∧
      (∀ off, readOffset t off = if off = 0x300 then 0x46424A44 else 0) ∧
      (∀ a, (∀ u, spanHas (abandonedSpan s u) a = false) → memGet t.mem a = memGet s.mem a) ∧
      t.inputs = rest ∧ t.memSize = s.memSize ∧ t.prim = s.prim ∧ t.busData = s.busData ∧ t.memData = s.memData

/-! ## The machine -/

/-- Every step keeps the invariant: the STATUS rules of R38, the reserved bits of CIPH_MODE, the form and extent of
memory, what a busy unit owns, the cursors of a decompression (spec/10_state.md R38, R39, R50). -/
def Obligations.StepKeepsInvariant : Prop :=
  ∀ s t : State, Inv s → step s = .next t → Inv t

/-- The state after reset has the invariant, over every initial memory in canonical form, every size the parameter
MEM_SIZE may have and every primitive (spec/10_state.md R54, spec/70_reset_and_hazards.md R313, spec/00_scope.md R9);
and so `State.reset`, which is the model's choice among them (log entries 1, 2, 3). -/
def Obligations.ResetHasInvariant : Prop :=
  (∀ (m : List Host.Cell) (n : Nat) (p : Primitive), 1 ≤ n → n ≤ 2 ^ 32 → memWf m = true → (∀ c ∈ m, c.1 < n) →
    Inv (State.atReset m n p)) ∧
  Inv State.reset

/-- No step changes the parameters of the block: the primitive BC and MEM_SIZE (spec/00_scope.md R9; that the model
holds them in State is log entries 1 and 3). -/
def Obligations.StepKeepsParameters : Prop :=
  ∀ s t : State, step s = .next t → t.prim = s.prim ∧ t.memSize = s.memSize

/-- Inside a decompression with output missing and input left, a step runs the token that stands at `ip` in memory; if
the input ends inside that token, the decompression ends with LZ_IN_OVERRUN, and LEVEL is what the token's control byte
made known (spec/00_scope.md R16, spec/44_lz_decompressor.md R222, R224, R225, R242, R249; log entries 7, 19). -/
def Obligations.StepRunsTheTokenInMemory : Prop :=
  ∀ (s : State) (r : LzRun), s.lzd.run = some r → r.op < s.lzd.expLen.toNat → r.ip < s.lzd.len.toNat →
    let bytes := memRead s.mem (s.lzd.src.toNat + r.ip) (s.lzd.len.toNat - r.ip)
    (∀ i, decode (runContext r) (.stream bytes) = .ok i → step s = exec i s) ∧
    (∀ e, decode (runContext r) (.stream bytes) = .error e →
      step s = .next (lzdFailed .lzInOverrun
        { r with level := levelAfter (runContext r) (memGet s.mem (s.lzd.src.toNat + r.ip)) } s))

/-- Outside a decompression, a step runs the command that the next CTRL write gives, or that the unit whose turn it is
was started with (spec/30_encoding.md R90, spec/40_commands.md R134, R136; log entries 4, 6). -/
def Obligations.StepRunsTheDecodedCommand : Prop :=
  ∀ (s : State) (rest : List Input) (i : Instr), s.lzd.run = none →
    (∀ off v, legalAccess 32 off = true → s.inputs = .regWrite 32 off v :: rest →
      decode none (.ctrlWrite off s.ciph.mode v) = .ok i → step s = exec i { s with inputs := rest }) ∧
    (∀ u, s.inputs = .turn u :: rest → unitBusy s u = true →
      decode none (.unitTurn u s.ciph.mode) = .ok i → step s = exec i { s with inputs := rest })

/-- The life cycle of every unit, over all steps: idle or done to busy by START, busy to done by completion and by
nothing else but RESET, done to idle by CLEAR (spec/40_commands.md R135, R138). -/
def Obligations.StatusFollowsLifeCycle : Prop :=
  ∀ (s t : State) (u : UnitId), Inv s → step s = .next t →
    lifeCycle (unitStatus s u) (unitStatus t u) ∨
      (unitStatus t u = idleStatus ∧ s.inputs.head? = some .reset ∧ s.lzd.run = none)

/-- The key changes only by a host write to a key register of a unit that is not busy, or by RESET
(spec/10_state.md R40). -/
def Obligations.KeyChangesOnlyByHostOrReset : Prop :=
  ∀ s t : State, step s = .next t → t.ciph.key ≠ s.ciph.key →
    s.inputs.head? = some .reset ∨
      ∃ (i : Fin 8) (v : Word), s.inputs.head? = some (.regWrite 32 (0x120 + 4 * i.val) v) ∧
        unitBusy s .ciph = false ∧ t.ciph.key = s.ciph.key.set i v

/-- A byte of memory changes only by a host write of it, by a busy unit whose output range holds it, or by RESET in
the output range of an operation it abandons (spec/20_memory.md R61, R64; spec/10_state.md R52;
spec/70_reset_and_hazards.md R312). -/
def Obligations.MemoryChangesOnlyWhereAllowed : Prop :=
  ∀ (s t : State) (a : Nat), Inv s → step s = .next t → memGet t.mem a ≠ memGet s.mem a →
    (∃ addr bytes, s.inputs.head? = some (.memWrite addr bytes) ∧ addr ≤ a ∧ a < addr + bytes.length) ∨
      ∃ u c, unitBusy s u = true ∧ unitClaim s u = some c ∧ spanHas c.wr a = true

/-- Two busy units whose buffers do not clash may complete in either order: the state is the same
(spec/60_exceptions.md R291). -/
def Obligations.CompletionsCommute : Prop :=
  ∀ (s a b : State) (u v : UnitId), Inv s → s.lzd.run = none → u ≠ v →
    unitBusy s u = true → unitBusy s v = true → unitClash s u = false → unitClash s v = false →
    unitTurn u s = .next a → unitTurn v a = .next b →
    ∃ c, unitTurn v s = .next c ∧ unitTurn u c = .next b

/-- When nothing more comes from outside and no two operations clash, at most three steps leave no unit busy
(spec/40_commands.md R137; that the quiet machine lets the units complete is the model's choice, log entry 5). -/
def Obligations.QuietMachineFinishesEverything : Prop :=
  ∀ s : State, Inv s → s.lzd.run = none → s.inputs = [] → (∀ u, unitClash s u = false) →
    ∃ n t, n ≤ 3 ∧ stepsTo n s t ∧ ∀ u, unitBusy t u = false
end

