-- ==== Sys2Proof/Laws/Memory.lean ====
section
/-! SUPPORT. The laws of buffer memory: reading after writing, the canonical form, equality by reads. -/

namespace Sys2Proof.Machine

/-! ## Single bytes -/

@[simp] theorem memGet_nil (a : Nat) : memGet [] a = Config.memInit := rfl

theorem memGet_cons (c : Host.Cell) (m : List Host.Cell) (a : Nat) :
    memGet (c :: m) a = if a = c.1 then c.2 else memGet m a := rfl

theorem memWfFrom_cons (lo : Nat) (c : Host.Cell) (m : List Host.Cell) :
    memWfFrom lo (c :: m) = true ↔ lo ≤ c.1 ∧ c.2 ≠ Config.memInit ∧ memWfFrom (c.1 + 1) m = true := by
  simp [memWfFrom, and_assoc]

theorem memWfFrom_mono {lo lo' : Nat} (h : lo' ≤ lo) {m : List Host.Cell} (hm : memWfFrom lo m = true) :
    memWfFrom lo' m = true := by
  cases m with
  | nil => rfl
  | cons c m =>
    rw [memWfFrom_cons] at hm ⊢
    exact ⟨by omega, hm.2⟩

/-- Below its first address a memory in canonical form reads as unwritten. -/
theorem memGet_below {lo : Nat} {m : List Host.Cell} (hm : memWfFrom lo m = true) {a : Nat} (ha : a < lo) :
    memGet m a = Config.memInit := by
  induction m generalizing lo with
  | nil => rfl
  | cons c m ih =>
    rw [memWfFrom_cons] at hm
    rw [memGet_cons, if_neg (by omega)]
    exact ih hm.2.2 (by omega)

theorem memGet_memPut_self_from {lo : Nat} {m : List Host.Cell} (hm : memWfFrom lo m = true) (a : Nat) (v : Byte) :
    memGet (memPut m a v) a = v := by
  induction m generalizing lo with
  | nil =>
    simp only [memPut]
    split <;> simp_all [memGet_cons]
  | cons c m ih =>
    obtain ⟨b, w⟩ := c
    rw [memWfFrom_cons] at hm
    simp only [memPut]
    split
    · split
      · rename_i h hv
        rw [memGet_cons, if_neg (by simp only; omega), memGet_below hm.2.2 (by simp only; omega), hv]
      · simp [memGet_cons]
    · split
      · split
        · rename_i h hv
          rw [memGet_below hm.2.2 (by simp only; omega), hv]
        · simp [memGet_cons]
      · rw [memGet_cons, if_neg (by assumption)]
        exact ih hm.2.2

theorem memGet_memPut_ne (m : List Host.Cell) {a a' : Nat} (v : Byte) (h : a' ≠ a) :
    memGet (memPut m a v) a' = memGet m a' := by
  induction m with
  | nil =>
    simp only [memPut]
    split
    · rfl
    · rw [memGet_cons, if_neg h]
  | cons c m ih =>
    obtain ⟨b, w⟩ := c
    simp only [memPut]
    split
    · split
      · rfl
      · rw [memGet_cons, if_neg h]
    · split
      · rename_i hb
        split
        · rw [memGet_cons, if_neg (by simp only; omega)]
        · rw [memGet_cons, memGet_cons, if_neg h, if_neg (by simp only; omega)]
      · rw [memGet_cons, memGet_cons, ih]

theorem memWfFrom_memPut {lo : Nat} {m : List Host.Cell} (hm : memWfFrom lo m = true) {a : Nat} (ha : lo ≤ a)
    (v : Byte) : memWfFrom lo (memPut m a v) = true := by
  induction m generalizing lo with
  | nil =>
    simp only [memPut]
    split
    · rfl
    · rw [memWfFrom_cons]
      exact ⟨ha, by assumption, rfl⟩
  | cons c m ih =>
    obtain ⟨b, w⟩ := c
    have h0 := hm
    rw [memWfFrom_cons] at hm
    simp only [memPut]
    split
    · split
      · exact h0
      · rw [memWfFrom_cons]
        refine ⟨ha, by assumption, ?_⟩
        rw [memWfFrom_cons]
        exact ⟨by simp only; omega, hm.2⟩
    · split
      · split
        · exact memWfFrom_mono (by have := hm.1; simp only at *; omega) hm.2.2
        · rw [memWfFrom_cons]
          refine ⟨ha, by assumption, ?_⟩
          have hb : a = b := by assumption
          rw [hb]
          exact hm.2.2
      · rw [memWfFrom_cons]
        exact ⟨hm.1, hm.2.1, ih hm.2.2 (by simp only; omega)⟩

/-- Storing a byte keeps the canonical form. -/
theorem memWf_memPut {m : List Host.Cell} (hm : memWf m = true) (a : Nat) (v : Byte) :
    memWf (memPut m a v) = true := memWfFrom_memPut hm (Nat.zero_le a) v

/-- A byte reads as it was last stored. -/
theorem memGet_memPut_self {m : List Host.Cell} (hm : memWf m = true) (a : Nat) (v : Byte) :
    memGet (memPut m a v) a = v := memGet_memPut_self_from hm a v

/-- What storing a byte does to every read. -/
theorem memGet_memPut {m : List Host.Cell} (hm : memWf m = true) (a a' : Nat) (v : Byte) :
    memGet (memPut m a v) a' = if a' = a then v else memGet m a' := by
  split
  · rename_i h; rw [h]; exact memGet_memPut_self hm a v
  · exact memGet_memPut_ne m v (by assumption)

/-- Two memories in canonical form that read the same everywhere are the same list. -/
theorem memWfFrom_ext {lo : Nat} {m m' : List Host.Cell} (hm : memWfFrom lo m = true) (hm' : memWfFrom lo m' = true)
    (h : ∀ a, memGet m a = memGet m' a) : m = m' := by
  induction m generalizing lo m' with
  | nil =>
    cases m' with
    | nil => rfl
    | cons c' m' =>
      rw [memWfFrom_cons] at hm'
      have := h c'.1
      rw [memGet_nil, memGet_cons, if_pos rfl] at this
      exact absurd this.symm hm'.2.1
  | cons c m ih =>
    rw [memWfFrom_cons] at hm
    cases m' with
    | nil =>
      have := h c.1
      rw [memGet_nil, memGet_cons, if_pos rfl] at this
      exact absurd this hm.2.1
    | cons c' m' =>
      rw [memWfFrom_cons] at hm'
      have key : c.1 = c'.1 := by
        rcases Nat.lt_trichotomy c.1 c'.1 with hlt | heq | hgt
        · have := h c.1
          rw [memGet_cons, if_pos rfl, memGet_cons, if_neg (by omega),
            memGet_below hm'.2.2 (by omega)] at this
          exact absurd this hm.2.1
        · exact heq
        · have := h c'.1
          rw [memGet_cons, if_neg (by omega), memGet_cons, if_pos rfl,
            memGet_below hm.2.2 (by omega)] at this
          exact absurd this.symm hm'.2.1
      have hv : c.2 = c'.2 := by
        have := h c.1
        rwa [memGet_cons, if_pos rfl, memGet_cons, if_pos key] at this
      have hc : c = c' := Prod.ext key hv
      subst hc
      congr 1
      refine ih hm.2.2 hm'.2.2 fun a => ?_
      by_cases ha : a = c.1
      · rw [memGet_below hm.2.2 (by omega), memGet_below hm'.2.2 (by omega)]
      · have := h a
        rwa [memGet_cons, if_neg ha, memGet_cons, if_neg ha] at this

theorem memWf_ext {m m' : List Host.Cell} (hm : memWf m = true) (hm' : memWf m' = true)
    (h : ∀ a, memGet m a = memGet m' a) : m = m' := memWfFrom_ext hm hm' h

/-- The addresses a memory lists after a byte is stored. -/
theorem mem_memPut {m : List Host.Cell} {a : Nat} {v : Byte} {c : Host.Cell} (h : c ∈ memPut m a v) :
    c ∈ m ∨ c.1 = a := by
  induction m with
  | nil =>
    simp only [memPut] at h
    split at h <;> simp_all
  | cons d m ih =>
    obtain ⟨b, w⟩ := d
    simp only [memPut] at h
    split at h
    · split at h <;> simp only [List.mem_cons] at h ⊢
      · exact Or.inl h
      · rcases h with rfl | h
        · exact Or.inr rfl
        · exact Or.inl h
    · split at h
      · split at h
        · exact Or.inl (List.mem_cons_of_mem _ h)
        · simp only [List.mem_cons] at h ⊢
          rcases h with rfl | h
          · exact Or.inr rfl
          · exact Or.inl (Or.inr h)
      · simp only [List.mem_cons] at h ⊢
        rcases h with rfl | h
        · exact Or.inl (Or.inl rfl)
        · rcases ih h with h | h
          · exact Or.inl (Or.inr h)
          · exact Or.inr h

/-! ## Byte sequences -/

@[simp] theorem memRead_length (m : List Host.Cell) (a n : Nat) : (memRead m a n).length = n := by
  induction n generalizing a with
  | zero => rfl
  | succ n ih => simp [memRead, ih]

theorem memRead_getElem? (m : List Host.Cell) (a n i : Nat) :
    (memRead m a n)[i]? = if i < n then some (memGet m (a + i)) else none := by
  induction n generalizing a i with
  | zero => simp [memRead]
  | succ n ih =>
    cases i with
    | zero => simp [memRead]
    | succ i =>
      simp only [memRead, List.getElem?_cons_succ, ih, Nat.add_lt_add_iff_right]
      rw [show a + 1 + i = a + (i + 1) by omega]

/-- A byte sequence read depends only on the bytes of its range. -/
theorem memRead_congr {m m' : List Host.Cell} {a n : Nat} (h : ∀ b, a ≤ b → b < a + n → memGet m b = memGet m' b) :
    memRead m a n = memRead m' a n := by
  induction n generalizing a with
  | zero => rfl
  | succ n ih =>
    simp only [memRead]
    rw [h a (by omega) (by omega), ih fun b h1 h2 => h b (by omega) (by omega)]

/-- MemWrite keeps the canonical form. -/
theorem memWf_memWrite {m : List Host.Cell} (hm : memWf m = true) (a : Nat) (bs : List Byte) :
    memWf (memWrite m a bs) = true := by
  induction bs generalizing m a with
  | nil => exact hm
  | cons v vs ih => exact ih (memWf_memPut hm a v) _

/-- What MemWrite does to every read: the bytes of its range are the sequence, no other changes. -/
theorem memGet_memWrite {m : List Host.Cell} (hm : memWf m = true) (a : Nat) (bs : List Byte) (a' : Nat) :
    memGet (memWrite m a bs) a' = if a ≤ a' ∧ a' < a + bs.length then bs.getD (a' - a) 0 else memGet m a' := by
  induction bs generalizing m a with
  | nil => simp [memWrite]
  | cons v vs ih =>
    simp only [memWrite]
    rw [ih (memWf_memPut hm a v), memGet_memPut hm]
    by_cases h1 : a' = a
    · subst h1
      simp
    · by_cases h2 : a ≤ a' ∧ a' < a + (v :: vs).length
      · rw [if_pos h2, if_pos (by simp at h2; omega)]
        rw [show a' - a = (a' - (a + 1)) + 1 by omega]
        simp
      · rw [if_neg h2, if_neg (by simp at h2; omega), if_neg h1]

theorem memGet_memWrite_outside {m : List Host.Cell} (hm : memWf m = true) {a : Nat} {bs : List Byte} {a' : Nat}
    (h : a' < a ∨ a + bs.length ≤ a') : memGet (memWrite m a bs) a' = memGet m a' := by
  rw [memGet_memWrite hm, if_neg (by omega)]

/-- Whatever `n` bytes a memory is to hold, some memory in canonical form holds them and lists no address beyond: the
initial memory of `State.atReset` may be any (spec/70_reset_and_hazards.md R313). -/
theorem exists_initial_memory (f : Nat → Byte) (n : Nat) :
    ∃ m, memWf m = true ∧ (∀ c ∈ m, c.1 < n) ∧ ∀ a, a < n → memGet m a = f a := by
  induction n with
  | zero => exact ⟨[], rfl, by simp, fun a h => absurd h (Nat.not_lt_zero a)⟩
  | succ n ih =>
    obtain ⟨m, hm, hin, hf⟩ := ih
    refine ⟨memPut m n (f n), memWf_memPut hm _ _, fun c hc => ?_, fun a ha => ?_⟩
    · rcases mem_memPut hc with h | h
      · exact Nat.lt_succ_of_lt (hin c h)
      · omega
    · rw [memGet_memPut hm]
      split
      · subst_vars; rfl
      · exact hf a (by omega)

theorem mem_memWrite {m : List Host.Cell} {a : Nat} {bs : List Byte} {c : Host.Cell} (h : c ∈ memWrite m a bs) :
    c ∈ m ∨ (a ≤ c.1 ∧ c.1 < a + bs.length) := by
  induction bs generalizing m a with
  | nil => exact Or.inl h
  | cons v vs ih =>
    rcases ih h with h | h
    · rcases mem_memPut h with h | h
      · exact Or.inl h
      · exact Or.inr ⟨by omega, by simp; omega⟩
    · exact Or.inr ⟨by omega, by simp; omega⟩

end Sys2Proof.Machine
end

