-- ==== Sys2Proof/Laws/State.lean ====
section
/-! SUPPORT. One lemma per field per update of State, so that no proof unfolds a record update. -/

namespace Sys2Proof.Machine


/-! ## setStatus -/

@[simp] theorem setStatus_mem (u : UnitId) (st : Status) (s : State) : (setStatus u st s).mem = s.mem := by
  cases u <;> rfl
@[simp] theorem setStatus_memSize (u : UnitId) (st : Status) (s : State) :
    (setStatus u st s).memSize = s.memSize := by
  cases u <;> rfl
@[simp] theorem setStatus_prim (u : UnitId) (st : Status) (s : State) :
    (setStatus u st s).prim = s.prim := by
  cases u <;> rfl
@[simp] theorem setStatus_inputs (u : UnitId) (st : Status) (s : State) : (setStatus u st s).inputs = s.inputs := by
  cases u <;> rfl
@[simp] theorem setStatus_busData (u : UnitId) (st : Status) (s : State) :
    (setStatus u st s).busData = s.busData := by
  cases u <;> rfl
@[simp] theorem setStatus_memData (u : UnitId) (st : Status) (s : State) :
    (setStatus u st s).memData = s.memData := by
  cases u <;> rfl
@[simp] theorem setStatus_resets (u : UnitId) (st : Status) (s : State) : (setStatus u st s).resets = s.resets := by
  cases u <;> rfl

/-! ## releaseClaims -/

@[simp] theorem releaseClaims_mem (u : UnitId) (s : State) : (releaseClaims u s).mem = s.mem := by
  cases u <;> rfl
@[simp] theorem releaseClaims_memSize (u : UnitId) (s : State) : (releaseClaims u s).memSize = s.memSize := by
  cases u <;> rfl
@[simp] theorem releaseClaims_prim (u : UnitId) (s : State) : (releaseClaims u s).prim = s.prim := by
  cases u <;> rfl
@[simp] theorem releaseClaims_inputs (u : UnitId) (s : State) : (releaseClaims u s).inputs = s.inputs := by
  cases u <;> rfl
@[simp] theorem releaseClaims_busData (u : UnitId) (s : State) : (releaseClaims u s).busData = s.busData := by
  cases u <;> rfl
@[simp] theorem releaseClaims_memData (u : UnitId) (s : State) : (releaseClaims u s).memData = s.memData := by
  cases u <;> rfl
@[simp] theorem releaseClaims_resets (u : UnitId) (s : State) : (releaseClaims u s).resets = s.resets := by
  cases u <;> rfl

/-! ## startUnit -/

@[simp] theorem startUnit_mem (u : UnitId) (c : Claim) (s : State) : (startUnit u c s).mem = s.mem := by
  cases u <;> rfl
@[simp] theorem startUnit_memSize (u : UnitId) (c : Claim) (s : State) : (startUnit u c s).memSize = s.memSize := by
  cases u <;> rfl
@[simp] theorem startUnit_prim (u : UnitId) (c : Claim) (s : State) : (startUnit u c s).prim = s.prim := by
  cases u <;> rfl
@[simp] theorem startUnit_inputs (u : UnitId) (c : Claim) (s : State) : (startUnit u c s).inputs = s.inputs := by
  cases u <;> rfl
@[simp] theorem startUnit_busData (u : UnitId) (c : Claim) (s : State) : (startUnit u c s).busData = s.busData := by
  cases u <;> rfl
@[simp] theorem startUnit_memData (u : UnitId) (c : Claim) (s : State) : (startUnit u c s).memData = s.memData := by
  cases u <;> rfl
@[simp] theorem startUnit_resets (u : UnitId) (c : Claim) (s : State) : (startUnit u c s).resets = s.resets := by
  cases u <;> rfl

/-! ## clearUnit -/

@[simp] theorem clearUnit_mem (u : UnitId) (s : State) : (clearUnit u s).mem = s.mem := by
  unfold clearUnit; split <;> simp
@[simp] theorem clearUnit_memSize (u : UnitId) (s : State) : (clearUnit u s).memSize = s.memSize := by
  unfold clearUnit; split <;> simp
@[simp] theorem clearUnit_prim (u : UnitId) (s : State) : (clearUnit u s).prim = s.prim := by
  unfold clearUnit; split <;> simp
@[simp] theorem clearUnit_inputs (u : UnitId) (s : State) : (clearUnit u s).inputs = s.inputs := by
  unfold clearUnit; split <;> simp
@[simp] theorem clearUnit_busData (u : UnitId) (s : State) : (clearUnit u s).busData = s.busData := by
  unfold clearUnit; split <;> simp
@[simp] theorem clearUnit_memData (u : UnitId) (s : State) : (clearUnit u s).memData = s.memData := by
  unfold clearUnit; split <;> simp
@[simp] theorem clearUnit_resets (u : UnitId) (s : State) : (clearUnit u s).resets = s.resets := by
  unfold clearUnit; split <;> simp

/-! ## raiseError -/

@[simp] theorem raiseError_mem (u : UnitId) (c : Cause) (s : State) : (raiseError u c s).mem = s.mem := by
  cases u <;> simp only [raiseError, setStatus]; split <;> rfl
@[simp] theorem raiseError_memSize (u : UnitId) (c : Cause) (s : State) : (raiseError u c s).memSize = s.memSize := by
  cases u <;> simp only [raiseError, setStatus]; split <;> rfl
@[simp] theorem raiseError_prim (u : UnitId) (c : Cause) (s : State) : (raiseError u c s).prim = s.prim := by
  cases u <;> simp only [raiseError, setStatus]; split <;> rfl
@[simp] theorem raiseError_inputs (u : UnitId) (c : Cause) (s : State) : (raiseError u c s).inputs = s.inputs := by
  cases u <;> simp only [raiseError, setStatus]; split <;> rfl
@[simp] theorem raiseError_busData (u : UnitId) (c : Cause) (s : State) : (raiseError u c s).busData = s.busData := by
  cases u <;> simp only [raiseError, setStatus]; split <;> rfl
@[simp] theorem raiseError_memData (u : UnitId) (c : Cause) (s : State) : (raiseError u c s).memData = s.memData := by
  cases u <;> simp only [raiseError, setStatus]; split <;> rfl
@[simp] theorem raiseError_resets (u : UnitId) (c : Cause) (s : State) : (raiseError u c s).resets = s.resets := by
  cases u <;> simp only [raiseError, setStatus]; split <;> rfl

/-! ## Units apart -/

@[simp] theorem setStatus_crc_ciph (st : Status) (s : State) : (setStatus .crc st s).ciph = s.ciph := rfl
@[simp] theorem releaseClaims_crc_ciph (s : State) : (releaseClaims .crc s).ciph = s.ciph := rfl
@[simp] theorem startUnit_crc_ciph (c : Claim) (s : State) : (startUnit .crc c s).ciph = s.ciph := rfl
@[simp] theorem clearUnit_crc_ciph (s : State) : (clearUnit .crc s).ciph = s.ciph := by
  unfold clearUnit; split <;> rfl
@[simp] theorem raiseError_crc_ciph (c : Cause) (s : State) : (raiseError .crc c s).ciph = s.ciph := rfl
@[simp] theorem setStatus_crc_lzd (st : Status) (s : State) : (setStatus .crc st s).lzd = s.lzd := rfl
@[simp] theorem releaseClaims_crc_lzd (s : State) : (releaseClaims .crc s).lzd = s.lzd := rfl
@[simp] theorem startUnit_crc_lzd (c : Claim) (s : State) : (startUnit .crc c s).lzd = s.lzd := rfl
@[simp] theorem clearUnit_crc_lzd (s : State) : (clearUnit .crc s).lzd = s.lzd := by
  unfold clearUnit; split <;> rfl
@[simp] theorem raiseError_crc_lzd (c : Cause) (s : State) : (raiseError .crc c s).lzd = s.lzd := rfl
@[simp] theorem setStatus_crc (st : Status) (s : State) :
    (setStatus .crc st s).crc = { s.crc with status := st } := rfl
@[simp] theorem releaseClaims_crc (s : State) : (releaseClaims .crc s).crc = { s.crc with claims := [] } := rfl
@[simp] theorem setStatus_ciph_crc (st : Status) (s : State) : (setStatus .ciph st s).crc = s.crc := rfl
@[simp] theorem releaseClaims_ciph_crc (s : State) : (releaseClaims .ciph s).crc = s.crc := rfl
@[simp] theorem startUnit_ciph_crc (c : Claim) (s : State) : (startUnit .ciph c s).crc = s.crc := rfl
@[simp] theorem clearUnit_ciph_crc (s : State) : (clearUnit .ciph s).crc = s.crc := by
  unfold clearUnit; split <;> rfl
@[simp] theorem raiseError_ciph_crc (c : Cause) (s : State) : (raiseError .ciph c s).crc = s.crc := rfl
@[simp] theorem setStatus_ciph_lzd (st : Status) (s : State) : (setStatus .ciph st s).lzd = s.lzd := rfl
@[simp] theorem releaseClaims_ciph_lzd (s : State) : (releaseClaims .ciph s).lzd = s.lzd := rfl
@[simp] theorem startUnit_ciph_lzd (c : Claim) (s : State) : (startUnit .ciph c s).lzd = s.lzd := rfl
@[simp] theorem clearUnit_ciph_lzd (s : State) : (clearUnit .ciph s).lzd = s.lzd := by
  unfold clearUnit; split <;> rfl
@[simp] theorem raiseError_ciph_lzd (c : Cause) (s : State) : (raiseError .ciph c s).lzd = s.lzd := rfl
@[simp] theorem setStatus_ciph (st : Status) (s : State) :
    (setStatus .ciph st s).ciph = { s.ciph with status := st } := rfl
@[simp] theorem releaseClaims_ciph (s : State) : (releaseClaims .ciph s).ciph = { s.ciph with claims := [] } := rfl
@[simp] theorem setStatus_lzd_crc (st : Status) (s : State) : (setStatus .lzd st s).crc = s.crc := rfl
@[simp] theorem releaseClaims_lzd_crc (s : State) : (releaseClaims .lzd s).crc = s.crc := rfl
@[simp] theorem startUnit_lzd_crc (c : Claim) (s : State) : (startUnit .lzd c s).crc = s.crc := rfl
@[simp] theorem clearUnit_lzd_crc (s : State) : (clearUnit .lzd s).crc = s.crc := by
  unfold clearUnit; split <;> rfl
@[simp] theorem raiseError_lzd_crc (c : Cause) (s : State) : (raiseError .lzd c s).crc = s.crc := by
  simp only [raiseError]; split <;> rfl
@[simp] theorem setStatus_lzd_ciph (st : Status) (s : State) : (setStatus .lzd st s).ciph = s.ciph := rfl
@[simp] theorem releaseClaims_lzd_ciph (s : State) : (releaseClaims .lzd s).ciph = s.ciph := rfl
@[simp] theorem startUnit_lzd_ciph (c : Claim) (s : State) : (startUnit .lzd c s).ciph = s.ciph := rfl
@[simp] theorem clearUnit_lzd_ciph (s : State) : (clearUnit .lzd s).ciph = s.ciph := by
  unfold clearUnit; split <;> rfl
@[simp] theorem raiseError_lzd_ciph (c : Cause) (s : State) : (raiseError .lzd c s).ciph = s.ciph := by
  simp only [raiseError]; split <;> rfl
@[simp] theorem setStatus_lzd (st : Status) (s : State) :
    (setStatus .lzd st s).lzd = { s.lzd with status := st } := rfl
@[simp] theorem releaseClaims_lzd (s : State) : (releaseClaims .lzd s).lzd = { s.lzd with claims := [] } := rfl
@[simp] theorem startUnit_crc (c : Claim) (s : State) : (startUnit .crc c s).crc =
    { s.crc with status := startedStatus, result := 0, claims := c :: s.crc.claims } := rfl
@[simp] theorem startUnit_ciph (c : Claim) (s : State) : (startUnit .ciph c s).ciph =
    { s.ciph with status := startedStatus, claims := c :: s.ciph.claims } := rfl
@[simp] theorem startUnit_lzd (c : Claim) (s : State) : (startUnit .lzd c s).lzd =
    { s.lzd with status := startedStatus, outLen := 0, inUsed := 0, claims := c :: s.lzd.claims } := rfl
@[simp] theorem raiseError_crc (c : Cause) (s : State) : (raiseError .crc c s).crc =
    { s.crc with status := failedStatus c none } := rfl
@[simp] theorem raiseError_ciph (c : Cause) (s : State) : (raiseError .ciph c s).ciph =
    { s.ciph with status := failedStatus c none } := rfl
theorem raiseError_lzd_idle (c : Cause) (s : State) (h : s.lzd.run = none) : (raiseError .lzd c s).lzd =
    { s.lzd with status := failedStatus c none, outLen := 0, inUsed := 0 } := by
  simp only [raiseError, h]
theorem raiseError_lzd_run (c : Cause) (s : State) (r : LzRun) (h : s.lzd.run = some r) : (raiseError .lzd c s).lzd =
    { s.lzd with
      status := failedStatus c r.level, outLen := BitVec.ofNat 32 r.op, inUsed := BitVec.ofNat 32 r.ip,
      run := none } := by
  simp only [raiseError, h]
@[simp] theorem unitStatus_setStatus (u : UnitId) (st : Status) (s : State) :
    unitStatus (setStatus u st s) u = st := by
  cases u <;> rfl
@[simp] theorem unitClaims_setStatus (u v : UnitId) (st : Status) (s : State) :
    unitClaims (setStatus u st s) v = unitClaims s v := by
  cases u <;> cases v <;> rfl
@[simp] theorem unitClaim_setStatus (u v : UnitId) (st : Status) (s : State) :
    unitClaim (setStatus u st s) v = unitClaim s v := by
  cases u <;> cases v <;> rfl
@[simp] theorem unitClaims_startUnit (u v : UnitId) (c : Claim) (s : State) :
    unitClaims (startUnit u c s) v = if v = u then c :: unitClaims s u else unitClaims s v := by
  cases u <;> cases v <;> rfl
@[simp] theorem unitClaims_releaseClaims (u v : UnitId) (s : State) :
    unitClaims (releaseClaims u s) v = if v = u then [] else unitClaims s v := by
  cases u <;> cases v <;> rfl

/-! ## crcDone -/

@[simp] theorem crcDone_crc (s : State) : (crcDone s).crc =
    { s.crc with
      status := doneStatus none, result := crc32 (memRead s.mem s.crc.src.toNat s.crc.len.toNat) } := rfl
@[simp] theorem crcDone_ciph (s : State) : (crcDone s).ciph = s.ciph := rfl
@[simp] theorem crcDone_lzd (s : State) : (crcDone s).lzd = s.lzd := rfl
@[simp] theorem crcDone_mem (s : State) : (crcDone s).mem = s.mem := rfl
@[simp] theorem crcDone_memSize (s : State) : (crcDone s).memSize = s.memSize := rfl
@[simp] theorem crcDone_prim (s : State) : (crcDone s).prim = s.prim := rfl
@[simp] theorem crcDone_inputs (s : State) : (crcDone s).inputs = s.inputs := rfl
@[simp] theorem crcDone_busData (s : State) : (crcDone s).busData = s.busData := rfl
@[simp] theorem crcDone_memData (s : State) : (crcDone s).memData = s.memData := rfl
@[simp] theorem crcDone_resets (s : State) : (crcDone s).resets = s.resets := rfl

/-! ## ciphDone -/

@[simp] theorem ciphDone_crc (f : ModeStep) (chain : Block) (s : State) : (ciphDone f chain s).crc = s.crc := rfl
@[simp] theorem ciphDone_ciph (f : ModeStep) (chain : Block) (s : State) : (ciphDone f chain s).ciph =
    { s.ciph with status := doneStatus none } := rfl
@[simp] theorem ciphDone_lzd (f : ModeStep) (chain : Block) (s : State) : (ciphDone f chain s).lzd = s.lzd := rfl
@[simp] theorem ciphDone_mem (f : ModeStep) (chain : Block) (s : State) : (ciphDone f chain s).mem =
    ciphMem f chain s := rfl
@[simp] theorem ciphDone_memSize (f : ModeStep) (chain : Block) (s : State) :
    (ciphDone f chain s).memSize = s.memSize := rfl
@[simp] theorem ciphDone_prim (f : ModeStep) (chain : Block) (s : State) :
    (ciphDone f chain s).prim = s.prim := rfl
@[simp] theorem ciphDone_inputs (f : ModeStep) (chain : Block) (s : State) :
    (ciphDone f chain s).inputs = s.inputs := rfl
@[simp] theorem ciphDone_busData (f : ModeStep) (chain : Block) (s : State) :
    (ciphDone f chain s).busData = s.busData := rfl
@[simp] theorem ciphDone_memData (f : ModeStep) (chain : Block) (s : State) :
    (ciphDone f chain s).memData = s.memData := rfl
@[simp] theorem ciphDone_resets (f : ModeStep) (chain : Block) (s : State) :
    (ciphDone f chain s).resets = s.resets := rfl

/-! ## withRun -/

@[simp] theorem withRun_crc (r : LzRun) (s : State) : (withRun r s).crc = s.crc := rfl
@[simp] theorem withRun_ciph (r : LzRun) (s : State) : (withRun r s).ciph = s.ciph := rfl
@[simp] theorem withRun_lzd (r : LzRun) (s : State) : (withRun r s).lzd =
    { s.lzd with run := some r } := rfl
@[simp] theorem withRun_mem (r : LzRun) (s : State) : (withRun r s).mem = s.mem := rfl
@[simp] theorem withRun_memSize (r : LzRun) (s : State) : (withRun r s).memSize = s.memSize := rfl
@[simp] theorem withRun_prim (r : LzRun) (s : State) : (withRun r s).prim = s.prim := rfl
@[simp] theorem withRun_inputs (r : LzRun) (s : State) : (withRun r s).inputs = s.inputs := rfl
@[simp] theorem withRun_busData (r : LzRun) (s : State) : (withRun r s).busData = s.busData := rfl
@[simp] theorem withRun_memData (r : LzRun) (s : State) : (withRun r s).memData = s.memData := rfl
@[simp] theorem withRun_resets (r : LzRun) (s : State) : (withRun r s).resets = s.resets := rfl

/-! ## matchDone -/

@[simp] theorem matchDone_crc (r : LzRun) (size length dist : Nat) (s : State) :
    (matchDone r size length dist s).crc = s.crc := rfl
@[simp] theorem matchDone_ciph (r : LzRun) (size length dist : Nat) (s : State) :
    (matchDone r size length dist s).ciph = s.ciph := rfl
@[simp] theorem matchDone_lzd (r : LzRun) (size length dist : Nat) (s : State) :
    (matchDone r size length dist s).lzd =
    { s.lzd with run := some (advance r size length) } := rfl
@[simp] theorem matchDone_mem (r : LzRun) (size length dist : Nat) (s : State) :
    (matchDone r size length dist s).mem =
    copyMatch dist (s.lzd.dst.toNat + r.op) length s.mem := rfl
@[simp] theorem matchDone_memSize (r : LzRun) (size length dist : Nat) (s : State) :
    (matchDone r size length dist s).memSize = s.memSize := rfl
@[simp] theorem matchDone_prim (r : LzRun) (size length dist : Nat) (s : State) :
    (matchDone r size length dist s).prim = s.prim := rfl
@[simp] theorem matchDone_inputs (r : LzRun) (size length dist : Nat) (s : State) :
    (matchDone r size length dist s).inputs = s.inputs := rfl
@[simp] theorem matchDone_busData (r : LzRun) (size length dist : Nat) (s : State) :
    (matchDone r size length dist s).busData = s.busData := rfl
@[simp] theorem matchDone_memData (r : LzRun) (size length dist : Nat) (s : State) :
    (matchDone r size length dist s).memData = s.memData := rfl
@[simp] theorem matchDone_resets (r : LzRun) (size length dist : Nat) (s : State) :
    (matchDone r size length dist s).resets = s.resets := rfl

/-! ## litDone -/

@[simp] theorem litDone_crc (r : LzRun) (data : List Byte) (s : State) : (litDone r data s).crc = s.crc := rfl
@[simp] theorem litDone_ciph (r : LzRun) (data : List Byte) (s : State) : (litDone r data s).ciph = s.ciph := rfl
@[simp] theorem litDone_lzd (r : LzRun) (data : List Byte) (s : State) : (litDone r data s).lzd =
    { s.lzd with run := some (advance r (1 + data.length) data.length) } := rfl
@[simp] theorem litDone_mem (r : LzRun) (data : List Byte) (s : State) : (litDone r data s).mem =
    memWrite s.mem (s.lzd.dst.toNat + r.op) data := rfl
@[simp] theorem litDone_memSize (r : LzRun) (data : List Byte) (s : State) :
    (litDone r data s).memSize = s.memSize := rfl
@[simp] theorem litDone_prim (r : LzRun) (data : List Byte) (s : State) :
    (litDone r data s).prim = s.prim := rfl
@[simp] theorem litDone_inputs (r : LzRun) (data : List Byte) (s : State) :
    (litDone r data s).inputs = s.inputs := rfl
@[simp] theorem litDone_busData (r : LzRun) (data : List Byte) (s : State) :
    (litDone r data s).busData = s.busData := rfl
@[simp] theorem litDone_memData (r : LzRun) (data : List Byte) (s : State) :
    (litDone r data s).memData = s.memData := rfl
@[simp] theorem litDone_resets (r : LzRun) (data : List Byte) (s : State) :
    (litDone r data s).resets = s.resets := rfl

/-! ## lzdDone -/

@[simp] theorem lzdDone_crc (r : LzRun) (s : State) : (lzdDone r s).crc = s.crc := rfl
@[simp] theorem lzdDone_ciph (r : LzRun) (s : State) : (lzdDone r s).ciph = s.ciph := rfl
@[simp] theorem lzdDone_lzd (r : LzRun) (s : State) : (lzdDone r s).lzd =
    { s.lzd with
      status := doneStatus r.level, outLen := BitVec.ofNat 32 r.op, inUsed := BitVec.ofNat 32 r.ip, run := none } := rfl
@[simp] theorem lzdDone_mem (r : LzRun) (s : State) : (lzdDone r s).mem = s.mem := rfl
@[simp] theorem lzdDone_memSize (r : LzRun) (s : State) : (lzdDone r s).memSize = s.memSize := rfl
@[simp] theorem lzdDone_prim (r : LzRun) (s : State) : (lzdDone r s).prim = s.prim := rfl
@[simp] theorem lzdDone_inputs (r : LzRun) (s : State) : (lzdDone r s).inputs = s.inputs := rfl
@[simp] theorem lzdDone_busData (r : LzRun) (s : State) : (lzdDone r s).busData = s.busData := rfl
@[simp] theorem lzdDone_memData (r : LzRun) (s : State) : (lzdDone r s).memData = s.memData := rfl
@[simp] theorem lzdDone_resets (r : LzRun) (s : State) : (lzdDone r s).resets = s.resets := rfl

/-! ## resetBlock -/

@[simp] theorem resetBlock_crc (s : State) : (resetBlock s).crc =
    crcAtReset := rfl
@[simp] theorem resetBlock_ciph (s : State) : (resetBlock s).ciph =
    ciphAtReset := rfl
@[simp] theorem resetBlock_lzd (s : State) : (resetBlock s).lzd =
    lzdAtReset := rfl
@[simp] theorem resetBlock_mem (s : State) : (resetBlock s).mem =
    scrambleUnit s .lzd (scrambleUnit s .ciph (scrambleUnit s .crc s.mem)) := rfl
@[simp] theorem resetBlock_memSize (s : State) : (resetBlock s).memSize = s.memSize := rfl
@[simp] theorem resetBlock_prim (s : State) : (resetBlock s).prim = s.prim := rfl
@[simp] theorem resetBlock_inputs (s : State) : (resetBlock s).inputs = s.inputs := rfl
@[simp] theorem resetBlock_busData (s : State) : (resetBlock s).busData = s.busData := rfl
@[simp] theorem resetBlock_memData (s : State) : (resetBlock s).memData = s.memData := rfl
@[simp] theorem resetBlock_resets (s : State) : (resetBlock s).resets =
    s.resets + 1 := rfl

/-! ## Register writes and reads -/

@[simp] theorem setReg_mem (r : Reg) (v : Word) (s : State) : (setReg r v s).mem = s.mem := by
  cases r <;> rfl
@[simp] theorem setReg_memSize (r : Reg) (v : Word) (s : State) : (setReg r v s).memSize = s.memSize := by
  cases r <;> rfl
@[simp] theorem setReg_prim (r : Reg) (v : Word) (s : State) : (setReg r v s).prim = s.prim := by
  cases r <;> rfl
@[simp] theorem setReg_inputs (r : Reg) (v : Word) (s : State) : (setReg r v s).inputs = s.inputs := by
  cases r <;> rfl
@[simp] theorem setReg_busData (r : Reg) (v : Word) (s : State) : (setReg r v s).busData = s.busData := by
  cases r <;> rfl
@[simp] theorem setReg_memData (r : Reg) (v : Word) (s : State) : (setReg r v s).memData = s.memData := by
  cases r <;> rfl
@[simp] theorem setReg_resets (r : Reg) (v : Word) (s : State) : (setReg r v s).resets = s.resets := by
  cases r <;> rfl
@[simp] theorem writeOffset_mem (off : Nat) (v : Word) (s : State) : (writeOffset off v s).mem = s.mem := by
  unfold writeOffset; repeat (first | split | simp)
@[simp] theorem writeOffset_memSize (off : Nat) (v : Word) (s : State) :
    (writeOffset off v s).memSize = s.memSize := by
  unfold writeOffset; repeat (first | split | simp)
@[simp] theorem writeOffset_prim (off : Nat) (v : Word) (s : State) :
    (writeOffset off v s).prim = s.prim := by
  unfold writeOffset; repeat (first | split | simp)
@[simp] theorem writeOffset_inputs (off : Nat) (v : Word) (s : State) : (writeOffset off v s).inputs = s.inputs := by
  unfold writeOffset; repeat (first | split | simp)
@[simp] theorem writeOffset_busData (off : Nat) (v : Word) (s : State) :
    (writeOffset off v s).busData = s.busData := by
  unfold writeOffset; repeat (first | split | simp)
@[simp] theorem writeOffset_memData (off : Nat) (v : Word) (s : State) :
    (writeOffset off v s).memData = s.memData := by
  unfold writeOffset; repeat (first | split | simp)
@[simp] theorem writeOffset_resets (off : Nat) (v : Word) (s : State) : (writeOffset off v s).resets = s.resets := by
  unfold writeOffset; repeat (first | split | simp)
@[simp] theorem readRegister_mem (off : Nat) (s : State) : (readRegister off s).mem = s.mem := by
  unfold readRegister; repeat (first | split | simp)
@[simp] theorem readRegister_memSize (off : Nat) (s : State) : (readRegister off s).memSize = s.memSize := by
  unfold readRegister; repeat (first | split | simp)
@[simp] theorem readRegister_prim (off : Nat) (s : State) : (readRegister off s).prim = s.prim := by
  unfold readRegister; repeat (first | split | simp)
@[simp] theorem readRegister_inputs (off : Nat) (s : State) : (readRegister off s).inputs = s.inputs := by
  unfold readRegister; repeat (first | split | simp)
@[simp] theorem readRegister_memData (off : Nat) (s : State) : (readRegister off s).memData = s.memData := by
  unfold readRegister; repeat (first | split | simp)
@[simp] theorem readRegister_resets (off : Nat) (s : State) : (readRegister off s).resets = s.resets := by
  unfold readRegister; repeat (first | split | simp)
@[simp] theorem readRegister_busData (off : Nat) (s : State) : (readRegister off s).busData = readOffset s off := by
  unfold readRegister; repeat (first | split | simp)
@[simp] theorem setReg_crc_status (r : Reg) (v : Word) (s : State) : (setReg r v s).crc.status = s.crc.status := by
  cases r <;> rfl
@[simp] theorem setReg_crc_claims (r : Reg) (v : Word) (s : State) : (setReg r v s).crc.claims = s.crc.claims := by
  cases r <;> rfl
@[simp] theorem setReg_ciph_status (r : Reg) (v : Word) (s : State) : (setReg r v s).ciph.status = s.ciph.status := by
  cases r <;> rfl
@[simp] theorem setReg_ciph_claims (r : Reg) (v : Word) (s : State) : (setReg r v s).ciph.claims = s.ciph.claims := by
  cases r <;> rfl
@[simp] theorem setReg_lzd_status (r : Reg) (v : Word) (s : State) : (setReg r v s).lzd.status = s.lzd.status := by
  cases r <;> rfl
@[simp] theorem setReg_lzd_claims (r : Reg) (v : Word) (s : State) : (setReg r v s).lzd.claims = s.lzd.claims := by
  cases r <;> rfl

/-! ## The level marker and the cursors -/

@[simp] theorem advance_ip (r : LzRun) (size n : Nat) : (advance r size n).ip = r.ip + size := rfl
@[simp] theorem advance_op (r : LzRun) (size n : Nat) : (advance r size n).op = r.op + n := rfl
@[simp] theorem advance_level (r : LzRun) (size n : Nat) : (advance r size n).level = r.level := rfl
@[simp] theorem advance_first (r : LzRun) (size n : Nat) : (advance r size n).first = false := rfl
@[simp] theorem marked_none (r : LzRun) : marked none r = r := rfl
@[simp] theorem marked_ip (mark : Option Level) (r : LzRun) : (marked mark r).ip = r.ip := by
  cases mark <;> rfl
@[simp] theorem marked_op (mark : Option Level) (r : LzRun) : (marked mark r).op = r.op := by
  cases mark <;> rfl
@[simp] theorem levelFetched_ip (s : State) (r : LzRun) : (levelFetched s r).ip = r.ip := rfl
@[simp] theorem levelFetched_op (s : State) (r : LzRun) : (levelFetched s r).op = r.op := rfl

end Sys2Proof.Machine
end

