-- ==== Sys2Proof/Laws/Ops.lean ====
section
/-! SUPPORT. For each shared operation, once, everything it can do: the lemmas later proofs cite instead of unfolding
the operation. -/

namespace Sys2Proof.Machine

open Host (Outcome)

/-! ## Ranges -/

theorem spanInMemory_iff (memSize : Nat) (r : Span) :
    spanInMemory memSize r = true ↔ r.len = 0 ∨ r.base + r.len ≤ memSize := by
  simp [spanInMemory]

theorem spanInMemory_false_iff (memSize : Nat) (r : Span) :
    spanInMemory memSize r = false ↔ 0 < r.len ∧ memSize < r.base + r.len := by
  simp only [spanInMemory, Bool.or_eq_false_iff, decide_eq_false_iff_not]; omega

theorem spanHas_iff (r : Span) (a : Nat) : spanHas r a = true ↔ r.base ≤ a ∧ a < r.base + r.len := by
  simp [spanHas]

theorem spanHas_false_iff (r : Span) (a : Nat) : spanHas r a = false ↔ a < r.base ∨ r.base + r.len ≤ a := by
  simp only [spanHas, Bool.and_eq_false_iff, decide_eq_false_iff_not]; omega

theorem spansMeet_iff (a b : Span) :
    spansMeet a b = true ↔ 0 < a.len ∧ 0 < b.len ∧ a.base < b.base + b.len ∧ b.base < a.base + a.len := by
  simp [spansMeet, and_assoc]

theorem spansMeet_comm (a b : Span) : spansMeet a b = spansMeet b a := by
  rw [Bool.eq_iff_iff, spansMeet_iff, spansMeet_iff]; omega

@[simp] theorem spanOf_base (b l : Word) : (spanOf b l).base = b.toNat := rfl
@[simp] theorem spanOf_len (b l : Word) : (spanOf b l).len = l.toNat := rfl
@[simp] theorem noSpan_len : noSpan.len = 0 := rfl

/-- Two ranges meet where they share an address. -/
theorem spansMeet_of_spanHas {a b : Span} {x : Nat} (ha : spanHas a x = true) (hb : spanHas b x = true) :
    spansMeet a b = true := by
  rw [spanHas_iff] at ha hb
  rw [spansMeet_iff]
  omega

/-! ## The life cycle -/

/-- A START write answers a next state always: ignored by a busy unit, accepted otherwise. -/
theorem startCommand_eq (u : UnitId) (c : Claim) (s : State) :
    startCommand u c s = .next (if unitBusy s u then s else startUnit u c s) := by
  unfold startCommand; split <;> rfl

theorem clearUnit_eq (u : UnitId) (s : State) :
    clearUnit u s = if unitBusy s u then s else setStatus u (clearedStatus (unitStatus s u)) s := rfl

/-- What the completion step of CRC32 can do. -/
theorem completeCrc_next {s t : State} (h : completeCrc s = .next t) :
    unitBusy s .crc = true ∧
      ((spanInMemory s.memSize (crcClaim s).rd = false ∧ t = raiseError .crc .addr s) ∨
        (spanInMemory s.memSize (crcClaim s).rd = true ∧ unitClash s .crc = false ∧ t = crcDone s)) := by
  unfold completeCrc at h
  split at h
  · cases h
  · refine ⟨by simp_all, ?_⟩
    split at h
    · exact Or.inl ⟨by simp_all, by cases h; rfl⟩
    · split at h
      · cases h
      · exact Or.inr ⟨by simp_all, by simp_all, by cases h; rfl⟩

/-- What the completion step of a CIPH command can do. -/
theorem completeCiph_next {f : ModeStep} {chain : Block} {s t : State} (h : completeCiph f chain s = .next t) :
    unitBusy s .ciph = true ∧
      ((s.ciph.len.toNat % 16 ≠ 0 ∧ t = raiseError .ciph .ciphLen s) ∨
        (s.ciph.len.toNat % 16 = 0 ∧
          ((spanInMemory s.memSize (ciphClaim s).rd = false ∨ spanInMemory s.memSize (ciphClaim s).wr = false ∨
              badOverlap s = true) ∧ t = raiseError .ciph .addr s ∨
            spanInMemory s.memSize (ciphClaim s).rd = true ∧ spanInMemory s.memSize (ciphClaim s).wr = true ∧
              badOverlap s = false ∧ unitClash s .ciph = false ∧ t = ciphDone f chain s))) := by
  unfold completeCiph at h
  split at h
  · cases h
  · refine ⟨by simp_all, ?_⟩
    split at h
    · rename_i hm
      exact Or.inl ⟨hm, by cases h; rfl⟩
    · rename_i hm
      refine Or.inr ⟨not_not.mp hm, ?_⟩
      split at h
      · rename_i hr
        simp only [Bool.or_eq_true, Bool.not_eq_true'] at hr
        exact Or.inl ⟨hr.elim Or.inl (Or.inr ∘ Or.inl), by cases h; rfl⟩
      · rename_i hr
        simp only [Bool.or_eq_true, Bool.not_eq_true', not_or, Bool.not_eq_false] at hr
        split at h
        · exact Or.inl ⟨Or.inr (Or.inr (by assumption)), by cases h; rfl⟩
        · split at h
          · cases h
          · exact Or.inr ⟨hr.1, hr.2, by simp_all, by simp_all, by cases h; rfl⟩

/-- What the completion step of a START with an unsupported mode can do. -/
theorem completeBadmode_next {s t : State} (h : completeBadmode s = .next t) :
    unitBusy s .ciph = true ∧ t = raiseError .ciph .ciphMode s := by
  unfold completeBadmode at h
  split at h
  · cases h
  · exact ⟨by simp_all, by cases h; rfl⟩

/-! ## Tokens -/

/-- What a match token can do. -/
theorem runMatch_next {size lv dv : Nat} {s t : State} (h : runMatch size lv dv s = .next t) :
    ∃ r, s.lzd.run = some r ∧
      ((s.lzd.len.toNat < r.ip + size ∧ t = raiseError .lzd .lzInOverrun s) ∨
        (r.ip + size ≤ s.lzd.len.toNat ∧
          ((s.lzd.expLen.toNat < r.op + trueLength lv ∧ t = raiseError .lzd .lzOutOverrun s) ∨
            (r.op + trueLength lv ≤ s.lzd.expLen.toNat ∧
              ((r.op < trueDistance dv ∧ t = raiseError .lzd .lzRefUnderrun s) ∨
                (trueDistance dv ≤ r.op ∧ t = matchDone r size (trueLength lv) (trueDistance dv) s)))))) := by
  unfold runMatch at h
  split at h
  · cases h
  · rename_i r hr
    refine ⟨r, hr, ?_⟩
    split at h
    · exact Or.inl ⟨by assumption, by cases h; rfl⟩
    · refine Or.inr ⟨by omega, ?_⟩
      split at h
      · exact Or.inl ⟨by assumption, by cases h; rfl⟩
      · refine Or.inr ⟨by omega, ?_⟩
        split at h
        · exact Or.inl ⟨by assumption, by cases h; rfl⟩
        · exact Or.inr ⟨by omega, by cases h; rfl⟩

/-- What a literal run can do. -/
theorem execLit_next {mark : Option Level} {data : List Byte} {s t : State} (h : execLit mark data s = .next t) :
    ∃ r, s.lzd.run = some r ∧
      ((s.lzd.len.toNat < r.ip + (1 + data.length) ∧ t = raiseError .lzd .lzInOverrun (withRun (marked mark r) s)) ∨
        (r.ip + (1 + data.length) ≤ s.lzd.len.toNat ∧
          ((s.lzd.expLen.toNat < r.op + data.length ∧
              t = raiseError .lzd .lzOutOverrun (withRun (marked mark r) s)) ∨
            (r.op + data.length ≤ s.lzd.expLen.toNat ∧ t = litDone (marked mark r) data s)))) := by
  unfold execLit at h
  split at h
  · cases h
  · rename_i r hr
    refine ⟨r, hr, ?_⟩
    simp only [marked_ip, marked_op] at h
    split at h
    · exact Or.inl ⟨by assumption, by cases h; rfl⟩
    · refine Or.inr ⟨by omega, ?_⟩
      split at h
      · exact Or.inl ⟨by assumption, by cases h; rfl⟩
      · exact Or.inr ⟨by omega, by cases h; rfl⟩

/-- What the reserved first byte does. -/
theorem execLzBadlevel_next {m : BitVec 3} {h5 : BitVec 5} {s t : State} (h : execLzBadlevel m h5 s = .next t) :
    ∃ r, s.lzd.run = some r ∧ t = raiseError .lzd .lzLevel s := by
  unfold execLzBadlevel at h
  split at h
  · cases h
  · rename_i r hr
    exact ⟨r, hr, by cases h; rfl⟩

/-- What one turn of the main loop can do. -/
theorem lzdTick_next {s t : State} (h : lzdTick s = .next t) :
    ∃ r, s.lzd.run = some r ∧
      ((s.lzd.expLen.toNat ≤ r.op ∧ t = lzdDone r s) ∨
        (r.op < s.lzd.expLen.toNat ∧ s.lzd.len.toNat ≤ r.ip ∧ t = raiseError .lzd .lzShort s) ∨
          (r.op < s.lzd.expLen.toNat ∧ r.ip < s.lzd.len.toNat ∧
            ((∃ e, fetchToken s r = .error e ∧ t = raiseError .lzd .lzInOverrun (withRun (levelFetched s r) s)) ∨
              ∃ i, fetchToken s r = .ok i ∧ runToken i s = .next t))) := by
  unfold lzdTick at h
  split at h
  · cases h
  · rename_i r hr
    refine ⟨r, hr, ?_⟩
    split at h
    · exact Or.inl ⟨by assumption, by cases h; rfl⟩
    · refine Or.inr ?_
      split at h
      · exact Or.inl ⟨by omega, by assumption, by cases h; rfl⟩
      · refine Or.inr ⟨by omega, by omega, ?_⟩
        split at h
        · rename_i e he
          exact Or.inl ⟨e, he, by cases h; rfl⟩
        · rename_i i hi
          exact Or.inr ⟨i, hi, h⟩

/-- What the completion step of LZD can do. -/
theorem completeLzd_next {s t : State} (h : completeLzd s = .next t) :
    unitBusy s .lzd = true ∧
      (((spanInMemory s.memSize (lzdClaim s).rd = false ∨ spanInMemory s.memSize (lzdClaim s).wr = false ∨
            spansMeet (lzdClaim s).rd (lzdClaim s).wr = true) ∧ t = raiseError .lzd .addr (withRun freshRun s)) ∨
        (spanInMemory s.memSize (lzdClaim s).rd = true ∧ spanInMemory s.memSize (lzdClaim s).wr = true ∧
          spansMeet (lzdClaim s).rd (lzdClaim s).wr = false ∧ unitClash s .lzd = false ∧
            lzdLoop (s.lzd.len.toNat + 1) (withRun freshRun s) = .next t)) := by
  unfold completeLzd at h
  split at h
  · cases h
  · refine ⟨by simp_all, ?_⟩
    split at h
    · rename_i hr
      simp only [Bool.or_eq_true, Bool.not_eq_true'] at hr
      exact Or.inl ⟨hr.elim Or.inl (Or.inr ∘ Or.inl), by cases h; rfl⟩
    · rename_i hr
      simp only [Bool.or_eq_true, Bool.not_eq_true', not_or, Bool.not_eq_false] at hr
      split at h
      · exact Or.inl ⟨Or.inr (Or.inr (by assumption)), by cases h; rfl⟩
      · split at h
        · cases h
        · exact Or.inr ⟨hr.1, hr.2, by simp_all, by simp_all, h⟩

/-! ## The host -/

/-- What a host read of buffer memory can do. -/
theorem hostMemRead_next {addr n : Nat} {s t : State} (h : hostMemRead addr n s = .next t) :
    spanInMemory s.memSize { base := addr, len := n } = true ∧ t = { s with memData := memRead s.mem addr n } := by
  unfold hostMemRead at h
  simp only at h
  split at h
  · cases h
  · refine ⟨by simp_all, ?_⟩
    split at h
    · cases h
    · cases h; rfl

/-- What a host write of buffer memory can do. -/
theorem hostMemWrite_next {addr : Nat} {bytes : List Byte} {s t : State} (h : hostMemWrite addr bytes s = .next t) :
    spanInMemory s.memSize { base := addr, len := bytes.length } = true ∧
      t = { s with mem := memWrite s.mem addr bytes } := by
  unfold hostMemWrite at h
  simp only at h
  split at h
  · cases h
  · refine ⟨by simp_all, ?_⟩
    split at h
    · cases h
    · cases h; rfl

/-- What a host read of the register window can do. -/
theorem hostRead_next {width off : Nat} {s t : State} (h : hostRead width off s = .next t) :
    legalAccess width off = true ∧ t = readRegister off s := by
  unfold hostRead at h
  split at h
  · cases h
  · exact ⟨by simp_all, by cases h; rfl⟩

/-- What a host write of the register window can do. -/
theorem hostWrite_next {width off : Nat} {v : Word} {s t : State} (h : hostWrite width off v s = .next t) :
    legalAccess width off = true ∧
      ((ctrlUnit off = none ∧ t = writeOffset off v s) ∨
        (∃ u, ctrlUnit off = some u ∧
          ((∃ i, decodeCtrl u s.ciph.mode v = .ok i ∧ exec i s = .next t) ∨
            (∃ e, decodeCtrl u s.ciph.mode v = .error e ∧ t = s)))) := by
  unfold hostWrite at h
  split at h
  · cases h
  · refine ⟨by simp_all, ?_⟩
    split at h
    · rename_i u hu
      refine Or.inr ⟨u, hu, ?_⟩
      unfold writeCtrl at h
      simp only [decode, hu] at h
      split at h
      · rename_i i hi
        exact Or.inl ⟨i, hi, h⟩
      · rename_i e he
        exact Or.inr ⟨e, he, by cases h; rfl⟩
    · rename_i hu
      exact Or.inl ⟨hu, by cases h; rfl⟩

/-- What a unit's turn can do. -/
theorem unitTurn_eq (u : UnitId) (s : State) :
    unitTurn u s = if unitBusy s u then exec (decodeCommand u s.ciph.mode .complete) s else .next s := rfl

/-! ## The memory of a completion step -/

theorem blockBytesOf_length (b : Block) : (blockBytesOf b).length = 16 := rfl

/-- The bytes of a block written are the block read back. -/
theorem readBlock_writeBlock {m : List Host.Cell} (hm : memWf m = true) (a : Nat) (b : Block) :
    readBlock (writeBlock m a b) a = b := by
  obtain ⟨⟨a0, a1, a2, a3⟩, ⟨b0, b1, b2, b3⟩, ⟨c0, c1, c2, c3⟩, ⟨d0, d1, d2, d3⟩⟩ := b
  simp [readBlock, readCol, writeBlock, memGet_memWrite hm, blockBytesOf, Quad.toList, Nat.add_assoc]

theorem readBlock_congr {m m' : List Host.Cell} {a : Nat}
    (h : ∀ b, a ≤ b → b < a + 16 → memGet m b = memGet m' b) : readBlock m a = readBlock m' a := by
  simp only [readBlock, readCol]
  simp only [h a (by omega) (by omega), h (a + 1) (by omega) (by omega), h (a + 2) (by omega) (by omega),
    h (a + 3) (by omega) (by omega), h (a + 4) (by omega) (by omega), h (a + 4 + 1) (by omega) (by omega),
    h (a + 4 + 2) (by omega) (by omega), h (a + 4 + 3) (by omega) (by omega), h (a + 8) (by omega) (by omega),
    h (a + 8 + 1) (by omega) (by omega), h (a + 8 + 2) (by omega) (by omega), h (a + 8 + 3) (by omega) (by omega),
    h (a + 12) (by omega) (by omega), h (a + 12 + 1) (by omega) (by omega), h (a + 12 + 2) (by omega) (by omega),
    h (a + 12 + 3) (by omega) (by omega)]

theorem memWf_writeBlock {m : List Host.Cell} (hm : memWf m = true) (a : Nat) (b : Block) :
    memWf (writeBlock m a b) = true := memWf_memWrite hm _ _

theorem memGet_writeBlock_outside {m : List Host.Cell} (hm : memWf m = true) {a : Nat} {b : Block} {a' : Nat}
    (h : a' < a ∨ a + 16 ≤ a') : memGet (writeBlock m a b) a' = memGet m a' :=
  memGet_memWrite_outside hm (by rw [blockBytesOf_length]; exact h)

/-- A mode function keeps the canonical form. -/
theorem memWf_cipherBlocks (f : ModeStep) (n : Nat) {m : List Host.Cell} (hm : memWf m = true) (chain : Block)
    (src dst : Nat) : memWf (cipherBlocks f n chain src dst m) = true := by
  induction n generalizing m chain src dst with
  | zero => exact hm
  | succ n ih => exact ih (memWf_writeBlock hm _ _) _ _ _

theorem mem_cipherBlocks {f : ModeStep} {n : Nat} {m : List Host.Cell} {chain : Block} {src dst : Nat}
    {c : Host.Cell} (h : c ∈ cipherBlocks f n chain src dst m) :
    c ∈ m ∨ (dst ≤ c.1 ∧ c.1 < dst + 16 * n) := by
  induction n generalizing m chain src dst with
  | zero => exact Or.inl h
  | succ n ih =>
    rcases ih h with h | h
    · rcases mem_memWrite h with h | h
      · exact Or.inl h
      · rw [blockBytesOf_length] at h
        exact Or.inr ⟨h.1, by omega⟩
    · simp only [Config.blockBytes] at h
      exact Or.inr ⟨by omega, by omega⟩

/-- The copy of a match keeps the canonical form. -/
theorem memWf_copyMatch (dist n : Nat) {m : List Host.Cell} (hm : memWf m = true) (a : Nat) :
    memWf (copyMatch dist a n m) = true := by
  induction n generalizing m a with
  | zero => exact hm
  | succ n ih => exact ih (memWf_memPut hm _ _) _

theorem mem_copyMatch {dist n : Nat} {m : List Host.Cell} {a : Nat} {c : Host.Cell}
    (h : c ∈ copyMatch dist a n m) : c ∈ m ∨ (a ≤ c.1 ∧ c.1 < a + n) := by
  induction n generalizing m a with
  | zero => exact Or.inl h
  | succ n ih =>
    rcases ih h with h | h
    · rcases mem_memPut h with h | h
      · exact Or.inl h
      · exact Or.inr (by omega)
    · exact Or.inr (by omega)

/-- The copy of a match changes no byte outside the range it writes. -/
theorem memGet_copyMatch_outside {dist n : Nat} {m : List Host.Cell} (hm : memWf m = true) {a a' : Nat}
    (h : a' < a ∨ a + n ≤ a') : memGet (copyMatch dist a n m) a' = memGet m a' := by
  induction n generalizing m a with
  | zero => rfl
  | succ n ih =>
    simp only [copyMatch]
    rw [ih (memWf_memPut hm _ _) (by omega), memGet_memPut_ne _ _ (by omega)]

/-- The values RESET leaves keep the canonical form. -/
theorem memWf_scramble (ep size n : Nat) {m : List Host.Cell} (hm : memWf m = true) (a : Nat) :
    memWf (scramble ep size a n m) = true := by
  induction n generalizing m a with
  | zero => exact hm
  | succ n ih =>
    simp only [scramble]
    split
    · exact ih (memWf_memPut hm _ _) _
    · exact ih hm _

theorem mem_scramble {ep size n : Nat} {m : List Host.Cell} {a : Nat} {c : Host.Cell}
    (h : c ∈ scramble ep size a n m) : c ∈ m ∨ c.1 < size := by
  induction n generalizing m a with
  | zero => exact Or.inl h
  | succ n ih =>
    simp only [scramble] at h
    rcases ih h with h | h
    · split at h
      · rcases mem_memPut h with h | h
        · exact Or.inl h
        · exact Or.inr (by omega)
      · exact Or.inl h
    · exact Or.inr h

end Sys2Proof.Machine
end

