-- ==== Sys2Proof/Laws/PerInstr.lean ====
section
/-! SUPPORT. The family of spec/30_encoding.md R113: what the encoder emits has the size the rule lists, and a token
that is not the reserved first byte is at least two bytes long. -/

namespace Sys2Proof.Laws.TokenSize

/-- The second part leaves out the reserved first byte of spec/30_encoding.md R114, which ends the stream and is no
token of it. -/
def Statement (i : Instr) : Prop :=
  (tokenBytes i).length = tokenSize i ∧
    (i.isToken = true → i.wellFormed = true → 2 ≤ tokenSize i ∨ ∃ m h, i = .lzBadlevel m h)

theorem crc32 (ph : Phase) : Statement (.crc32 ph) := ⟨rfl, nofun⟩
theorem encEcb (ph : Phase) : Statement (.encEcb ph) := ⟨rfl, nofun⟩
theorem encCbc (ph : Phase) : Statement (.encCbc ph) := ⟨rfl, nofun⟩
theorem decEcb (ph : Phase) : Statement (.decEcb ph) := ⟨rfl, nofun⟩
theorem decCbc (ph : Phase) : Statement (.decCbc ph) := ⟨rfl, nofun⟩
theorem ciphBadmode (alg : BadAlg) (dir : Dir) (ph : Phase) : Statement (.ciphBadmode alg dir ph) := ⟨rfl, nofun⟩
theorem lzd (ph : Phase) : Statement (.lzd ph) := ⟨rfl, nofun⟩
theorem clear (u : UnitId) : Statement (.clear u) := ⟨rfl, nofun⟩

theorem lit (mark : Option Level) (data : List Byte) : Statement (.lit mark data) := by
  refine ⟨by simp only [tokenBytes, tokenSize, List.length_cons]; omega, fun _ h => .inl ?_⟩
  simp only [Instr.wellFormed, Bool.and_eq_true, decide_eq_true_eq] at h
  simp only [tokenSize]
  omega

theorem match1S (f : BitVec 3) (h : BitVec 5) (lo : Byte) : Statement (.match1S f h lo) :=
  ⟨rfl, fun _ _ => .inl (Nat.le_refl 2)⟩

theorem match1L (h : BitVec 5) (x lo : Byte) : Statement (.match1L h x lo) :=
  ⟨rfl, fun _ _ => .inl (by simp only [tokenSize]; omega)⟩

theorem match2S (f : BitVec 3) (h : BitVec 5) (lo : Byte) : Statement (.match2S f h lo) :=
  ⟨rfl, fun _ _ => .inl (Nat.le_refl 2)⟩

theorem match2L (h : BitVec 5) (n : Nat) (x lo : Byte) : Statement (.match2L h n x lo) :=
  ⟨by simp only [tokenBytes, tokenSize, List.length_cons, List.length_append, List.length_replicate,
      List.length_nil]; omega,
    fun _ _ => .inl (by simp only [tokenSize]; omega)⟩

theorem match2SF (f : BitVec 3) (xd : BitVec 16) : Statement (.match2SF f xd) :=
  ⟨rfl, fun _ _ => .inl (by simp only [tokenSize]; omega)⟩

theorem match2LF (n : Nat) (x : Byte) (xd : BitVec 16) : Statement (.match2LF n x xd) :=
  ⟨by simp only [tokenBytes, tokenSize, be16Bytes, List.length_cons, List.length_append, List.length_replicate,
      List.length_nil]; omega,
    fun _ _ => .inl (by simp only [tokenSize]; omega)⟩

theorem lzBadlevel (m : BitVec 3) (h : BitVec 5) : Statement (.lzBadlevel m h) := ⟨rfl, fun _ _ => .inr ⟨m, h, rfl⟩⟩

end Sys2Proof.Laws.TokenSize
end

