-- ==== Sys2Proof/Tests/Slice0.lean ====
section
/-! SUPPORT. Tests: ill-formed terms are refused; words written out from spec/30_encoding.md decode; single steps give
the values of spec/95_test_vectors.md; every statement with hypotheses has a state that meets them. -/

namespace Sys2Proof.Tests

set_option Elab.async false

open Sys2Proof.Machine

/-! ## Helpers -/

/-- The outcome is a next state with a property. -/
def after (o : Host.Outcome State Fault Refusal) (p : State → Bool) : Bool :=
  match o with
  | .next t => p t
  | .fault _ => false
  | .refused _ => false

/-- The outcome is the refusal of an access to owned buffers. -/
def turnedAway (o : Host.Outcome State Fault Refusal) : Bool :=
  match o with
  | .refused .rangeOwned => true
  | _ => false

theorem next_of_after {o : Host.Outcome State Fault Refusal} {p : State → Bool} (h : after o p = true) :
    ∃ t, o = .next t ∧ p t = true := by
  cases o with
  | next t => exact ⟨t, rfl, h⟩
  | fault e => cases h
  | refused e => cases h

theorem runs {o : Host.Outcome State Fault Refusal} (h : after o (fun _ => true) = true) : ∃ t, o = .next t :=
  (next_of_after h).imp fun _ g => g.1

/-- The nine digits of spec/95_test_vectors.md section 2. -/
def digits : List Byte := [0x31, 0x32, 0x33, 0x34, 0x35, 0x36, 0x37, 0x38, 0x39]

/-- Blocks P0, P1 and C0 of spec/95_test_vectors.md section 3. -/
def p0 : List Byte :=
  [0x00, 0x11, 0x22, 0x33, 0x44, 0x55, 0x66, 0x77, 0x88, 0x99, 0xAA, 0xBB, 0xCC, 0xDD, 0xEE, 0xFF]
def p1 : List Byte :=
  [0x10, 0x11, 0x12, 0x13, 0x14, 0x15, 0x16, 0x17, 0x18, 0x19, 0x1A, 0x1B, 0x1C, 0x1D, 0x1E, 0x1F]
def c0 : List Byte :=
  [0x8E, 0xA2, 0xB7, 0xCA, 0x51, 0x67, 0x45, 0xBF, 0xEA, 0xFC, 0x49, 0x90, 0x4B, 0x49, 0x60, 0x89]

/-- The output of ENC.CBC on P0 and P1 (spec/95_test_vectors.md section 3). -/
def cbcOut : List Byte :=
  [0x89, 0x35, 0x52, 0x20, 0xE7, 0x67, 0x51, 0x3B, 0x2B, 0x8E, 0x46, 0xA3, 0x76, 0x31, 0xE8, 0xF9,
   0x9B, 0x21, 0x72, 0xC1, 0x27, 0xA5, 0xEA, 0x0A, 0xC3, 0x8D, 0xFE, 0x41, 0x92, 0x57, 0x1A, 0x5F]

/-- All three units busy on separate buffers: CRC on the digits at 0x10, LZD on `stream` from 0x20 to 0x200, CIPH in
place on `data` at 0x40, with key K and IV V of spec/95_test_vectors.md. -/
def tWith (mode : Word) (data stream : List Byte) (expLen : Word) : State :=
  { State.reset with
    crc := { crcAtReset with
      status := startedStatus, src := 0x10, len := 9, claims := [{ rd := spanOf 0x10 9, wr := noSpan }] },
    ciph := { ciphAtReset with
      status := startedStatus, src := 0x40, len := BitVec.ofNat 32 data.length, dst := 0x40, mode := mode,
      key := ⟨0x03020100, 0x07060504, 0x0B0A0908, 0x0F0E0D0C, 0x13121110, 0x17161514, 0x1B1A1918, 0x1F1E1D1C⟩,
      iv := ⟨0xA3A2A1A0, 0xA7A6A5A4, 0xABAAA9A8, 0xAFAEADAC⟩,
      claims := [{
        rd := spanOf 0x40 (BitVec.ofNat 32 data.length), wr := spanOf 0x40 (BitVec.ofNat 32 data.length) }] },
    lzd := { lzdAtReset with
      status := startedStatus, src := 0x20, len := BitVec.ofNat 32 stream.length, dst := 0x200, expLen := expLen,
      claims := [{
        rd := spanOf 0x20 (BitVec.ofNat 32 stream.length), wr := spanOf 0x200 expLen }] },
    mem := memWrite (memWrite (memWrite [] 0x10 digits) 0x20 stream) 0x40 data }

/-- `LIT 61 62`, then `MATCH 3, 2` of level 1: five bytes `61 62 61 62 61` (spec/95_test_vectors.md 4.2). -/
def tAll : State := tWith 0x001 p0 [0x01, 0x61, 0x62, 0x20, 0x01] 5

/-- `tAll` with something to come from outside. -/
def tIn (i : Input) : State := { tAll with inputs := [i] }

/-- The same, one descriptor of CIPH changed. -/
def tCiph (src len dst : Word) : State :=
  { tAll with ciph := { tAll.ciph with src := src, len := len, dst := dst } }

/-- The same, the descriptors of LZD changed. -/
def tLzd (src len dst expLen : Word) : State :=
  { tAll with lzd := { tAll.lzd with src := src, len := len, dst := dst, expLen := expLen } }

/-- Inside a decompression, `len` input bytes and `expLen` output bytes in all. -/
def tRun (ip op : Nat) (level : Level) (len expLen : Word) : State :=
  { tAll with
    lzd := { tAll.lzd with
      len := len, expLen := expLen, run := some { ip := ip, op := op, level := some level, first := false } },
    mem := memWrite tAll.mem 0x200 [0x61, 0x62, 0x63] }

/-- The output after one instruction of a decompression, and the cursors. -/
def lzOut (i : Instr) (s : State) (n ip op : Nat) (out : List Byte) : Bool :=
  after (exec i s) fun t =>
    decide (memRead t.mem 0x200 n = out) &&
      decide (t.lzd.run.map (fun r => (r.ip, r.op, r.first)) = some (ip, op, false))

/-- STATUS, OUT_LEN and IN_USED of LZD as the host reads them. -/
def lzEnd (o : Host.Outcome State Fault Refusal) (st : Word) (outLen inUsed : Nat) : Bool :=
  after o fun t =>
    decide (statusWord t.lzd.status = st) && decide (t.lzd.outLen.toNat = outLen) &&
      decide (t.lzd.inUsed.toNat = inUsed)

/-! ## Ill-formed terms -/

theorem test_lit_empty_ill : (Instr.lit none []).wellFormed = false := by decide
theorem test_lit_33_ill : (Instr.lit none (List.replicate 33 0)).wellFormed = false := by decide
theorem test_lit_32_well : (Instr.lit none (List.replicate 32 0)).wellFormed = true := by decide
theorem test_match1S_F0_ill : (Instr.match1S 0 0 0).wellFormed = false := by decide
theorem test_match1S_F7_ill : (Instr.match1S 7 0 0).wellFormed = false := by decide
theorem test_match2S_F0_ill : (Instr.match2S 0 0 0).wellFormed = false := by decide
theorem test_match2S_escape_ill : (Instr.match2S 1 31 0xFF).wellFormed = false := by decide
theorem test_match2L_chain_ill : (Instr.match2L 0 0 0xFF 0).wellFormed = false := by decide
theorem test_match2L_escape_ill : (Instr.match2L 31 0 0 0xFF).wellFormed = false := by decide
theorem test_match2SF_F7_ill : (Instr.match2SF 7 0).wellFormed = false := by decide
theorem test_match2LF_chain_ill : (Instr.match2LF 0 0xFF 0).wellFormed = false := by decide
theorem test_lzBadlevel_1_ill : (Instr.lzBadlevel 1 0).wellFormed = false := by decide
theorem test_unmarked_first_misfit : (Instr.lit none [0x41]).fitsContext none = false := by decide
theorem test_marked_later_misfit : (Instr.lit (some .one) [0x41]).fitsContext (some .one) = false := by decide
theorem test_match1_in_level2_misfit : (Instr.match1S 1 0 0).fitsContext (some .two) = false := by decide

/-! ## Words written out from the spec

Commands: the value written to CTRL and CIPH_MODE, spec/30_encoding.md R90 to R93. Tokens: bit fields of R104 to R110,
bytes as in spec/95_test_vectors.md 4.1. -/

theorem test_word_crc32 : decode none (.ctrlWrite 0x000 0 0x1) = .ok (.crc32 .start) := by decide
theorem test_word_encEcb : decode none (.ctrlWrite 0x100 0x001 0x1) = .ok (.encEcb .start) := by decide
theorem test_word_encCbc : decode none (.ctrlWrite 0x100 0x002 0x1) = .ok (.encCbc .start) := by decide
theorem test_word_decEcb : decode none (.ctrlWrite 0x100 0x101 0x1) = .ok (.decEcb .start) := by decide
theorem test_word_decCbc : decode none (.ctrlWrite 0x100 0x102 0x1) = .ok (.decCbc .start) := by decide
theorem test_word_badmode0 : decode none (.ctrlWrite 0x100 0x000 0x1) = .ok (.ciphBadmode .zero .enc .start) := by
  decide
theorem test_word_badmode3 : decode none (.ctrlWrite 0x100 0x103 0x1) = .ok (.ciphBadmode .three .dec .start) := by
  decide
theorem test_word_lzd : decode none (.ctrlWrite 0x200 0 0x1) = .ok (.lzd .start) := by decide
theorem test_word_clear : decode none (.ctrlWrite 0x100 0 0x2) = .ok (.clear .ciph) := by decide
/-- Both bits set: START (spec/30_encoding.md R91). -/
theorem test_word_both : decode none (.ctrlWrite 0x200 0 0x3) = .ok (.lzd .start) := by decide
/-- Bits 31:2 are ignored (spec/30_encoding.md R91). -/
theorem test_word_reserved_bits : decode none (.ctrlWrite 0x000 0 0xFFFFFFFC) = .error .noCommand := by decide
theorem test_word_lit_first : decode none (.stream [0b00000010, 0x61, 0x62, 0x63]) =
    .ok (.lit (some .one) [0x61, 0x62, 0x63]) := by decide
theorem test_word_lit_later : decode (some .two) (.stream [0b00000000, 0x41]) = .ok (.lit none [0x41]) := by decide
theorem test_word_match1S : decode (some .one) (.stream [0b00100001, 0x00]) = .ok (.match1S 1 1 0x00) := by decide
theorem test_word_match1L : decode (some .one) (.stream [0b11100000, 0xFF, 0x00]) = .ok (.match1L 0 0xFF 0x00) := by
  decide
theorem test_word_match2S : decode (some .two) (.stream [0b00111111, 0xFE]) = .ok (.match2S 1 31 0xFE) := by decide
theorem test_word_match2L : decode (some .two) (.stream [0b11100000, 0xFF, 0x00, 0x00]) =
    .ok (.match2L 0 1 0x00 0x00) := by decide
theorem test_word_match2SF : decode (some .two) (.stream [0b00111111, 0xFF, 0x12, 0x34]) =
    .ok (.match2SF 1 0x1234) := by decide
theorem test_word_match2LF : decode (some .two) (.stream [0b11111111, 0x01, 0xFF, 0x03, 0x28]) =
    .ok (.match2LF 0 0x01 0x0328) := by decide
theorem test_word_lzBadlevel : decode none (.stream [0b01000000, 0x41]) = .ok (.lzBadlevel 2 0) := by decide

/-- `MATCH 519, 1` is `E0 FF FF 00 00` and `MATCH 3, 8193` is `3F FF 00 01` (spec/30_encoding.md R112). -/
theorem test_encode_match : encode (.match2L 0 2 0 0) = .stream [0xE0, 0xFF, 0xFF, 0x00, 0x00] ∧
    encode (.match2SF 1 1) = .stream [0x3F, 0xFF, 0x00, 0x01] := by decide

/-- Table words: a CTRL value, a control byte, and the four bytes of MATCH2.SF (log entry 13). -/
theorem test_table_word : decodeTableWord 8 1 = some (.crc32 .start) ∧ decodeTableWord 8 2 = some (.clear .crc) ∧
    decodeTableWord 8 0 = some (.lit none [0]) ∧ decodeTableWord 32 0x3FFF0000 = some (.match2SF 1 0) := by decide

/-- The very next step runs the placed word. -/
theorem test_placed_word : after (step (State.reset.withFetchWord 8 1)) (fun t => t.crc.status.busy) = true ∧
    after (step (State.reset.withFetchWord 32 0x3FFF0000))
      (fun t => decide (t.lzd.run.map (fun r => (r.ip, r.op)) = some (4, 0x12003))) = true := by decide +kernel

/-! ## Single steps, values from spec/95_test_vectors.md -/

theorem test_crc32_digits : after (exec (.crc32 .complete) tAll)
    (fun t => decide (t.crc.result = 0xCBF43926) && decide (statusWord t.crc.status = 0x2)) = true := by
  decide +kernel
theorem test_crc32_start : after (exec (.crc32 .start)
    { tAll with crc := { tAll.crc with status := doneStatus none, result := 5 } })
    (fun t => decide (t.crc.result = 0) && decide (statusWord t.crc.status = 0x1)) = true := by
  decide +kernel
theorem test_encEcb : after (exec (.encEcb .complete) tAll)
    (fun t => decide (memRead t.mem 0x40 16 = c0) && decide (statusWord t.ciph.status = 0x2)) = true := by
  decide +kernel
theorem test_decEcb : after (exec (.decEcb .complete) (tWith 0x101 c0 [] 0))
    (fun t => decide (memRead t.mem 0x40 16 = p0)) = true := by decide +kernel
theorem test_encCbc : after (exec (.encCbc .complete) (tWith 0x002 (p0 ++ p1) [] 0))
    (fun t => decide (memRead t.mem 0x40 32 = cbcOut)) = true := by decide +kernel
theorem test_decCbc : after (exec (.decCbc .complete) (tWith 0x102 cbcOut [] 0))
    (fun t => decide (memRead t.mem 0x40 32 = p0 ++ p1)) = true := by decide +kernel
/-- With a primitive of which nothing is known the command completes all the same. -/
theorem test_other_primitive : after (exec (.encEcb .complete) { tAll with prim := .other 0 })
    (fun t => decide (statusWord t.ciph.status = 0x2) && decide (t.prim = .other 0)) = true := by decide +kernel
theorem test_badmode : after (exec (.ciphBadmode .zero .enc .complete) tAll)
    (fun t => decide (statusWord t.ciph.status = 0x306) && decide (t.mem = tAll.mem)) = true := by decide +kernel
theorem test_ciph_len : after (exec (.encCbc .complete) (tCiph 0x1FFF8 15 0))
    (fun t => decide (statusWord t.ciph.status = 0x206)) = true := by decide +kernel
theorem test_lzd_level1 : after (exec (.lzd .complete) tAll)
    (fun t => decide (memRead t.mem 0x200 5 = [0x61, 0x62, 0x61, 0x62, 0x61])) = true ∧
    lzEnd (exec (.lzd .complete) tAll) 0x00010002 5 5 = true := by decide +kernel
theorem test_lzd_short : lzEnd (exec (.lzd .complete) (tWith 1 p0 [0x00, 0x41] 2)) 0x00010806 1 2 = true := by
  decide +kernel
theorem test_lzd_cut_off : lzEnd (exec (.lzd .complete) (tWith 1 p0 [0x20, 0x41, 0xE0, 0xFF, 0xFF] 600))
    0x00020506 1 2 = true := by decide +kernel
theorem test_clear : after (exec (.clear .lzd)
    { tAll with lzd := { tAll.lzd with status := failedStatus .lzShort (some .one), outLen := 1 } })
    (fun t => decide (statusWord t.lzd.status = 0) && decide (t.lzd.outLen = 1)) = true := by decide +kernel
theorem test_lit : lzOut (.lit none [0x41, 0x42]) (tRun 4 3 .one 7 9) 5 7 5 [0x61, 0x62, 0x63, 0x41, 0x42] = true := by
  decide +kernel
theorem test_lit_too_long : lzEnd (exec (.lit none [0x41, 0x42]) (tRun 4 3 .one 7 4)) 0x00010606 3 4 = true := by
  decide +kernel
/-- `MATCH 6, 3` = `80 02`. -/
theorem test_match1S : lzOut (.match1S 4 0 2) (tRun 4 3 .one 6 9) 9 6 9
    [0x61, 0x62, 0x63, 0x61, 0x62, 0x63, 0x61, 0x62, 0x63] = true := by decide +kernel
/-- In level 1 H = 31 with the distance byte 0xFF is distance 8192, here too far. -/
theorem test_match1S_far : lzEnd (exec (.match1S 1 31 0xFF) (tRun 4 8191 .one 6 9000)) 0x00010706 8191 4 = true := by
  decide +kernel
/-- `MATCH 9, 2` = `E0 00 01`. -/
theorem test_match1L : lzOut (.match1L 0 0 1) (tRun 4 3 .one 7 12) 12 7 12
    [0x61, 0x62, 0x63, 0x62, 0x63, 0x62, 0x63, 0x62, 0x63, 0x62, 0x63, 0x62] = true := by decide +kernel
/-- `MATCH 4, 1` = `40 00`. -/
theorem test_match2S : lzOut (.match2S 2 0 0) (tRun 4 3 .two 6 7) 7 6 7
    [0x61, 0x62, 0x63, 0x63, 0x63, 0x63, 0x63] = true := by decide +kernel
/-- The chain `FF 00` is 7 + 255 + 0, length 264. -/
theorem test_match2L : lzOut (.match2L 0 1 0 2) (tRun 4 3 .two 8 267) 4 8 267 [0x61, 0x62, 0x63, 0x61] = true := by
  decide +kernel
/-- Distance 8192 reaches the first byte of the output, 8193 would not. -/
theorem test_match2SF : after (exec (.match2SF 1 0) (tRun 4 8192 .two 8 8195))
    (fun t => decide (memRead t.mem (0x200 + 8192) 3 = [0x61, 0x62, 0x63])) = true ∧
    lzEnd (exec (.match2SF 1 1) (tRun 4 8192 .two 8 8195)) 0x00020706 8192 4 = true := by decide +kernel
/-- `MATCH 10, 8192` = `FF 01 FF 00 00`. -/
theorem test_match2LF : after (exec (.match2LF 0 1 0) (tRun 4 8192 .two 9 8202))
    (fun t => decide (memRead t.mem (0x200 + 8192) 4 = [0x61, 0x62, 0x63, 0x00])) = true := by decide +kernel
theorem test_lzBadlevel : lzEnd (exec (.lzd .complete) (tWith 1 p0 [0x40, 0x41] 1)) 0x00000406 0 0 = true := by
  decide +kernel

/-- The table of spec/41_crc32.md R153 against the step (the trace of "a", spec/95_test_vectors.md section 2). -/
theorem test_crc_bit : crcBit 0xFFFFFF9E = 0x7FFFFFCF ∧ crcByte 0xFFFFFFFF 0x61 = 0x174841BC := by decide

/-! ## The register window (spec/95_test_vectors.md section 5) -/

/-- `WR CIPH_MODE, 0xFFFFFFFF` then `RD CIPH_MODE -> 0x00000103`. -/
theorem test_mode_mask : after (hostWrite 32 0x114 0xFFFFFFFF State.reset)
    (fun t => decide (readOffset t 0x114 = 0x103)) = true := by decide +kernel
/-- Reserved and read-only offsets read as before a write. -/
theorem test_reserved : hostWrite 32 0x014 0xFFFFFFFF State.reset = .next State.reset ∧
    hostWrite 32 0x010 5 State.reset = .next State.reset := ⟨rfl, rfl⟩
theorem test_busy_write_ignored : hostWrite 32 0x00C 4 tAll = .next tAll := rfl
/-- Reading DONE = 1 gives the buffers back, reading BUSY does not (spec/20_memory.md R76). -/
theorem test_release : after (hostRead 32 0x004 tAll) (fun t => decide (t.crc.claims.length = 1)) = true ∧
    after (hostRead 32 0x004 { tAll with crc := { tAll.crc with status := doneStatus none } })
      (fun t => t.crc.claims.isEmpty && decide (t.busData = 2)) = true := by decide +kernel
/-- An operation whose DONE = 1 nobody read keeps its buffers past the next START: a host write to the digits is
refused, and a read of STATUS once the second has completed gives back both (spec/20_memory.md R76). -/
theorem test_unread_buffers : after (exec (.crc32 .start)
    { tAll with crc := { tAll.crc with status := doneStatus none, src := 0x80 } })
    (fun t => turnedAway (hostMemWrite 0x18 [0] t) && turnedAway (hostMemWrite 0x88 [0] t) &&
      after (exec (.crc32 .complete) t) (fun u => after (hostRead 32 0x004 u) fun v =>
        after (hostMemWrite 0x18 [0] v) (fun _ => true))) = true := by decide +kernel
theorem test_refused : hostRead 16 0x004 tAll = .refused .badRegisterAccess ∧
    hostMemWrite 0x18 [0] tAll = .refused .rangeOwned ∧ hostMemWrite 0x1FFFF [0, 0] tAll = .fault .noSuchAddress :=
  ⟨rfl, rfl, rfl⟩

/-! ## Witnesses: each statement's hypotheses met together, each clause at a boundary of its range -/

theorem witness_DecodeOfEncodeIsIdentity :
    (Instr.lit (some .two) (List.replicate 32 0x55)).wellFormed = true ∧
      (Instr.lit (some .two) (List.replicate 32 0x55)).fitsContext none = true ∧
      (Instr.match2LF 3 0xFE 0xFFFF).wellFormed = true ∧
      (Instr.match2LF 3 0xFE 0xFFFF).fitsContext (some .two) = true ∧
      (Instr.ciphBadmode .three .dec .complete).fitsContext none = true := by decide

theorem witness_TokenDecodeIgnoresWhatFollows :
    (Instr.match2L 31 0 0 0xFE).isToken = true ∧ (Instr.match2L 31 0 0 0xFE).wellFormed = true ∧
      (Instr.match2L 31 0 0 0xFE).fitsContext (some .two) = true := by decide

theorem witness_DecodedTokenIsItsEncoding :
    decode (some .two) (.stream [0xFF, 0x00, 0xFE, 0x77]) = .ok (.match2L 31 0 0x00 0xFE) := by decide

/-- A length chain that runs off the end. -/
theorem witness_StreamRefusedOnlyWhenCutOff :
    decode (some .two) (.stream [0xE0, 0xFF, 0xFF]) = .error .truncated ∧
      decode none (.stream []) = .error .truncated := by decide

theorem witness_Crc32CompletesWithChecksum : crcReady tAll = true := by decide +kernel

/-- Source 0x1FFFF with length 2 passes the end of memory by one byte. -/
theorem witness_Crc32OutsideMemoryIsAddr :
    let s := { tAll with crc := { tAll.crc with src := 0x1FFFF, len := 2 } }
    unitBusy s .crc = true ∧ 0 < s.crc.len.toNat ∧ s.memSize < s.crc.src.toNat + s.crc.len.toNat := by
  decide +kernel

theorem witness_Crc32OfNothingIsZero :
    let s := { tAll with crc := { tAll.crc with
      src := 0xFFFFFFFF, len := 0, claims := [{ rd := spanOf 0xFFFFFFFF 0, wr := noSpan }] } }
    unitBusy s .crc = true ∧ unitClaim s .crc = some (crcClaim s) ∧ s.crc.len = 0 := by decide +kernel

theorem witness_CrcDetectsOneChangedByte : (0x68 : Byte) ≠ 0x69 := by decide

/-- In place, and side by side. -/
theorem witness_EncEcbEncryptsEveryBlock :
    (memWf tAll.mem = true ∧ ciphReady tAll = true) ∧
      memWf (tCiph 0x40 16 0x50).mem = true ∧ ciphReady (tCiph 0x40 16 0x50) = true := by decide +kernel

theorem witness_DecEcbDecryptsEveryBlock :
    memWf (tWith 0x101 c0 [] 0).mem = true ∧ ciphReady (tWith 0x101 c0 [] 0) = true := by decide +kernel

/-- Two blocks: the first chained to the IV, the second to a block. -/
theorem witness_EncCbcChainsOutputBlocks :
    let s := tWith 0x002 (p0 ++ p1) [] 0
    memWf s.mem = true ∧ ciphReady s = true ∧ 0 < s.ciph.len.toNat / 16 ∧ 1 < s.ciph.len.toNat / 16 := by
  decide +kernel

theorem witness_DecCbcChainsInputBlocks :
    let s := tWith 0x102 cbcOut [] 0
    memWf s.mem = true ∧ ciphReady s = true ∧ 0 < s.ciph.len.toNat / 16 ∧ 1 < s.ciph.len.toNat / 16 := by
  decide +kernel

theorem witness_UnsupportedModeFails :
    [0x000#32, 0x003, 0x100, 0x103].all (fun m =>
      let s := tWith m p0 [] 0
      unitBusy s .ciph && decide (modeAlg s.ciph.mode ≠ 1) && decide (modeAlg s.ciph.mode ≠ 2)) = true := by
  decide +kernel

/-- Length 15 and 17; a source and a destination that pass the end by a byte; an overlap on either side. -/
theorem witness_CiphChecksInOrder :
    [15#32, 17].all (fun n => unitBusy (tCiph 0x40 n 0x40) .ciph && decide (n.toNat % 16 ≠ 0)) = true ∧
    [(0x1FFF1#32, 0x40#32), (0x40, 0x1FFF1)].all (fun d =>
      let s := tCiph d.1 16 d.2
      unitBusy s .ciph && decide (s.ciph.len.toNat % 16 = 0) && decide (0 < s.ciph.len.toNat) &&
        decide (s.memSize < s.ciph.src.toNat + s.ciph.len.toNat ∨
          s.memSize < s.ciph.dst.toNat + s.ciph.len.toNat)) = true ∧
    [(0x1000#32, 0x101F#32), (0x101F, 0x1000)].all (fun d =>
      let s := tCiph d.1 32 d.2
      unitBusy s .ciph && decide (s.ciph.len.toNat % 16 = 0) && decide (s.ciph.dst ≠ s.ciph.src) &&
        decide (s.ciph.src.toNat < s.ciph.dst.toNat + s.ciph.len.toNat) &&
        decide (s.ciph.dst.toNat < s.ciph.src.toNat + s.ciph.len.toNat)) = true := by decide +kernel

theorem witness_EcbIgnoresIv :
    (∃ t, exec (.encEcb .complete) tAll = .next t) ∧ ∃ t, exec (.decEcb .complete) tAll = .next t :=
  ⟨runs (by decide +kernel), runs (by decide +kernel)⟩

/-- `tAll` with only CIPH busy. -/
def tOnlyCiph : State := { tAll with crc := crcAtReset, lzd := lzdAtReset }

theorem witness_CipherRoundTripRestoresMemory :
    (memWf tOnlyCiph.mem = true ∧ ciphReady tOnlyCiph = true ∧ tOnlyCiph.ciph.dst = tOnlyCiph.ciph.src ∧
      tOnlyCiph.crc.status.busy = false ∧ tOnlyCiph.lzd.status.busy = false) ∧
    (∃ t, exec (.encEcb .complete) tOnlyCiph = .next t) ∧ (∃ t, exec (.decEcb .complete) tOnlyCiph = .next t) ∧
    (∃ t, exec (.encCbc .complete) tOnlyCiph = .next t) ∧ ∃ t, exec (.decCbc .complete) tOnlyCiph = .next t :=
  ⟨by decide +kernel, runs (by decide +kernel), runs (by decide +kernel), runs (by decide +kernel),
    runs (by decide +kernel)⟩

/-- The working state of `tRun`. -/
def rAt (ip op : Nat) (level : Level) : LzRun := { ip := ip, op := op, level := some level, first := false }

/-- The run ends exactly at the end of the input and of the output. -/
theorem witness_LitWritesItsBytes :
    let s := tRun 4 3 .one 7 5
    memWf s.mem = true ∧ s.lzd.run = some (rAt 4 3 .one) ∧ 4 + (1 + [0x41, 0x42].length) ≤ s.lzd.len.toNat ∧
      3 + [0x41, 0x42].length ≤ s.lzd.expLen.toNat := by decide +kernel

/-- The match ends exactly at the end of the input and of the output, and begins at the first byte of the output. -/
theorem witness_MatchRepeatsEarlierOutput :
    let s := tRun 4 3 .one 6 9
    storedPair (.match1S 4 0 2) = some (4, 2) ∧ memWf s.mem = true ∧ s.lzd.run = some (rAt 4 3 .one) ∧
      4 + tokenSize (.match1S 4 0 2) ≤ s.lzd.len.toNat ∧ 3 + (4 + 2) ≤ s.lzd.expLen.toNat ∧ 2 + 1 ≤ 3 := by
  decide +kernel

/-- One byte of input too few; one byte of output too few; one byte too far back. -/
theorem witness_MatchErrorsInOrder :
    storedPair (.match1S 4 0 2) = some (4, 2) ∧ storedPair (.match1S 4 0 3) = some (4, 3) ∧
    (let s := tRun 4 3 .one 5 9;
      s.lzd.run = some (rAt 4 3 .one) ∧ s.lzd.len.toNat < 4 + tokenSize (.match1S 4 0 2)) ∧
    (let s := tRun 4 3 .one 6 8;
      s.lzd.run = some (rAt 4 3 .one) ∧ 4 + tokenSize (.match1S 4 0 2) ≤ s.lzd.len.toNat ∧
        s.lzd.expLen.toNat < 3 + (4 + 2)) ∧
    (let s := tRun 4 3 .one 6 9;
      s.lzd.run = some (rAt 4 3 .one) ∧ 4 + tokenSize (.match1S 4 0 3) ≤ s.lzd.len.toNat ∧
        3 + (4 + 2) ≤ s.lzd.expLen.toNat ∧ 3 < 3 + 1) := by decide +kernel

theorem witness_LitErrorsInOrder :
    (let s := tRun 4 3 .one 6 5;
      s.lzd.run = some (rAt 4 3 .one) ∧ s.lzd.len.toNat < 4 + (1 + [0x41, 0x42].length)) ∧
    (let s := tRun 4 3 .one 7 4;
      s.lzd.run = some (rAt 4 3 .one) ∧ 4 + (1 + [0x41, 0x42].length) ≤ s.lzd.len.toNat ∧
        s.lzd.expLen.toNat < 3 + [0x41, 0x42].length) := by decide +kernel

/-- Markers 2 and 7. -/
theorem witness_BadMarkerEndsWithLzLevel :
    (withRun freshRun tAll).lzd.run = some freshRun ∧
    [0x40#8, 0xE0].all (fun c =>
      let s := tWith 1 p0 [c, 0x41] 1
      lzdReady s && decide (0 < s.lzd.expLen.toNat) && decide (0 < s.lzd.len.toNat) &&
        decide (2 ≤ (ctrlF (memGet s.mem s.lzd.src.toNat)).toNat)) = true := by decide +kernel

theorem witness_NoOutputWantedSucceeds : lzdReady (tWith 1 p0 [0xFF, 0xFF] 0) = true ∧
    (tWith 1 p0 [0xFF, 0xFF] 0).lzd.expLen = 0 := by decide +kernel

theorem witness_NoInputIsShort : lzdReady (tWith 1 p0 [] 1) = true ∧ (tWith 1 p0 [] 1).lzd.len = 0 ∧
    (tWith 1 p0 [] 1).lzd.expLen ≠ 0 := by decide +kernel

/-- The input passes the end by a byte; the output does; they share one byte. -/
theorem witness_LzdAddressErrors :
    (let s := tLzd 0x1FFFF 2 0x200 5;
      unitBusy s .lzd = true ∧ 0 < s.lzd.len.toNat ∧ s.memSize < s.lzd.src.toNat + s.lzd.len.toNat) ∧
    (let s := tLzd 0x20 5 0x1FFFF 2;
      unitBusy s .lzd = true ∧ 0 < s.lzd.expLen.toNat ∧ s.memSize < s.lzd.dst.toNat + s.lzd.expLen.toNat) ∧
    (let s := tLzd 0x1000 16 0x100F 4;
      unitBusy s .lzd = true ∧ 0 < s.lzd.len.toNat ∧ 0 < s.lzd.expLen.toNat ∧
        s.lzd.src.toNat < s.lzd.dst.toNat + s.lzd.expLen.toNat ∧
        s.lzd.dst.toNat < s.lzd.src.toNat + s.lzd.len.toNat) := by decide +kernel

theorem witness_LzdAlwaysFinishes : unitBusy tAll .lzd = true ∧ unitClash tAll .lzd = false := by decide +kernel

theorem witness_LzdWritesOnlyItsOutput : memWf tAll.mem = true ∧ ∃ t, exec (.lzd .complete) tAll = .next t := by
  exact ⟨by decide +kernel, runs (by decide +kernel)⟩

theorem witness_LzdIsItsTokenSteps : lzdReady tAll = true := by decide +kernel

/-- The two tokens of `tAll`'s stream, with a byte after them; and the empty output. -/
theorem witness_LzdDecodesEveryStream :
    (let s := tWith 1 p0 [0x01, 0x61, 0x62, 0x20, 0x01, 0x00] 5;
      let toks : List Instr := [.lit (some .one) [0x61, 0x62], .match1S 1 0 1]
      memWf s.mem = true ∧ lzdReady s = true ∧ goodStream .one toks = true ∧
        streamOut toks [] = some [0x61, 0x62, 0x61, 0x62, 0x61] ∧
        memRead s.mem s.lzd.src.toNat s.lzd.len.toNat = toks.flatMap tokenBytes ++ [0x00] ∧
        [0x61, 0x62, 0x61, 0x62, 0x61].length = s.lzd.expLen.toNat) ∧
    lzdReady (tWith 1 p0 [] 0) = true ∧ (tWith 1 p0 [] 0).lzd.expLen = 0 := by decide +kernel

/-- A stream of three bytes of which two are used; the third may be anything. -/
def tTrail : State := tWith 1 p0 [0x00, 0x41, 0x99] 1

theorem witness_TrailingInputIsIgnored :
    ∃ t, memWf tTrail.mem = true ∧ memWf (memPut tTrail.mem 0x22 0x55) = true ∧
      exec (.lzd .complete) tTrail = .next t ∧ t.lzd.status.err = false ∧
      ∀ a, a < tTrail.lzd.src.toNat + t.lzd.inUsed.toNat ∨ tTrail.lzd.src.toNat + tTrail.lzd.len.toNat ≤ a →
        memGet (memPut tTrail.mem 0x22 0x55) a = memGet tTrail.mem a := by
  obtain ⟨t, h, hp⟩ := next_of_after (o := exec (.lzd .complete) tTrail)
    (p := fun t => !t.lzd.status.err && decide (t.lzd.inUsed = 2)) (by decide +kernel)
  simp only [Bool.and_eq_true, Bool.not_eq_true', decide_eq_true_eq] at hp
  refine ⟨t, by decide +kernel, by decide +kernel, h, hp.1, fun a ha => memGet_memPut_ne _ _ ?_⟩
  rw [hp.2] at ha
  rintro rfl
  revert ha
  decide +kernel

/-- Idle units; the CTRL values 1, 3 and all ones are START, 0 and 0xFFFFFFFC no command. -/
theorem witness_StartBeginsOperation :
    (∀ u ∈ [UnitId.crc, .ciph, .lzd], unitBusy State.reset u = false) ∧
      (∀ v ∈ [1#32, 3, 0xFFFFFFFF], v.getLsbD 0 = true) ∧
      ∀ v ∈ [0#32, 0xFFFFFFFC], v.getLsbD 0 = false ∧ v.getLsbD 1 = false :=
  ⟨by decide, by simp, by simp⟩

theorem witness_BusyUnitIgnoresWrites : ∀ p ∈ [(0x000, UnitId.crc), (0x0FC, .crc), (0x100, .ciph), (0x1FC, .ciph),
      (0x200, .lzd), (0x2FC, .lzd)],
    legalAccess 32 p.1 = true ∧ regionUnit p.1 = some p.2 ∧ unitBusy tAll p.2 = true := by decide +kernel

theorem witness_ClearClearsStatusOnly :
    (2#32).getLsbD 0 = false ∧ (2#32).getLsbD 1 = true ∧
      (∀ u ∈ [UnitId.crc, .ciph, .lzd], unitBusy State.reset u = false) ∧
      ∀ u ∈ [UnitId.crc, .ciph, .lzd], unitBusy tAll u = true := by decide +kernel

theorem witness_InstructionsLeaveOtherUnitsAlone :
    (∃ t, exec (.crc32 .complete) tAll = .next t) ∧ (∃ t, exec (.clear .ciph) tAll = .next t) ∧
      ∃ t, exec (.match1S 4 0 2) (tRun 4 3 .one 6 9) = .next t := by
  exact ⟨runs (by decide +kernel), runs (by decide +kernel), runs (by decide +kernel)⟩

theorem witness_InstructionsNeverWriteArguments :
    (∃ t, exec (.encEcb .complete) tAll = .next t) ∧ ∃ t, exec (.lzd .start) State.reset = .next t :=
  ⟨runs (by decide +kernel), runs (by decide +kernel)⟩

/-- The first key register and the last. -/
theorem witness_ReadsNeverShowTheKey :
    (∃ t, hostRead 32 0x120 tAll = .next t) ∧ ∃ t, hostRead 32 0x13C tAll = .next t :=
  ⟨runs (by decide +kernel), runs (by decide +kernel)⟩

theorem witness_RegisterReadChangesNoRegister :
    legalAccess 32 0x000 = true ∧ legalAccess 32 0x004 = true ∧ legalAccess 32 0x3FC = true := by decide

/-- A read-write register, CIPH_MODE, a read-only one and a reserved offset. -/
theorem witness_RegisterWriteReadsBack : ∀ off ∈ [0x008, 0x114, 0x21C, 0x3FC],
    legalAccess 32 off = true ∧ ctrlUnit off = none ∧ writeLocked State.reset off = false := by decide

theorem witness_KeyWriteSetsOneRegister : unitBusy State.reset .ciph = false := by decide

theorem witness_BadRegisterAccessIsRefused :
    (16 ≠ 32 ∨ 0 % 4 ≠ 0 ∨ 0x400 ≤ 0) ∧ (32 ≠ 32 ∨ 2 % 4 ≠ 0 ∨ 0x400 ≤ 2) ∧
      (32 ≠ 32 ∨ 0x400 % 4 ≠ 0 ∨ 0x400 ≤ 0x400) ∧
      (32 = 32 ∧ 0x3FC % 4 = 0 ∧ 0x3FC < 0x400) := by decide

/-- The last two bytes of memory, and the bytes right after the digits, which CRC owns. -/
theorem witness_HostWriteThenReadReturnsBytes :
    memWf tAll.mem = true ∧ ∀ a ∈ [0x1FFFE, 0x19],
      a + [0xAA, 0xBB].length ≤ tAll.memSize ∧
        ∀ u, ∀ c ∈ unitClaims tAll u,
          spansMeet c.rd { base := a, len := [0xAA, 0xBB].length } = false ∧
            spansMeet c.wr { base := a, len := [0xAA, 0xBB].length } = false := by
  refine ⟨by decide +kernel, ?_⟩
  intro a ha
  simp only [List.mem_cons, List.not_mem_nil, or_false] at ha
  rcases ha with rfl | rfl
  · refine ⟨by decide +kernel, fun u c h => ?_⟩
    cases u <;> (cases List.mem_singleton.mp h; decide +kernel)
  · refine ⟨by decide +kernel, fun u c h => ?_⟩
    cases u <;> (cases List.mem_singleton.mp h; decide +kernel)

/-- The last byte of the digits; the first and the last byte of the output of LZD. -/
theorem witness_OwnedBufferAccessIsRefused :
    { rd := spanOf 0x10 9, wr := noSpan } ∈ unitClaims tAll .crc ∧
      { rd := spanOf 0x20 5, wr := spanOf 0x200 5 } ∈ unitClaims tAll .lzd ∧
      (0x18 + [0xAA].length ≤ tAll.memSize ∧ spansMeet (spanOf 0x10 9) { base := 0x18, len := [0xAA].length } = true) ∧
      (0x204 + [0xAA].length ≤ tAll.memSize ∧
        spansMeet (spanOf 0x200 5) { base := 0x204, len := [0xAA].length } = true) ∧
      (0x200 + 1 ≤ tAll.memSize ∧ spansMeet (spanOf 0x200 5) { base := 0x200, len := 1 } = true) := by
  decide +kernel

/-- LZD writes from the last byte of CIPH's buffer on: both clash, on one byte, and CRC with neither; CRC reads the last
byte LZD writes. -/
theorem witness_ClashingCompletionIsRefused :
    (let s := { tLzd 0x20 5 0x4F 5 with lzd := { (tLzd 0x20 5 0x4F 5).lzd with
        claims := [{ rd := spanOf 0x20 5, wr := spanOf 0x4F 5 }] } };
      unitClash s .ciph = true ∧ unitClash s .lzd = true ∧ unitClash s .crc = false ∧
        unitBusy s .ciph = true ∧ s.ciph.len.toNat % 16 = 0 ∧ spanInMemory s.memSize (ciphClaim s).rd = true ∧
        spanInMemory s.memSize (ciphClaim s).wr = true ∧ badOverlap s = false ∧
        unitBusy s .lzd = true ∧ spanInMemory s.memSize (lzdClaim s).rd = true ∧
        spanInMemory s.memSize (lzdClaim s).wr = true ∧ spansMeet (lzdClaim s).rd (lzdClaim s).wr = false) ∧
    (let s := { tAll with crc := { tAll.crc with
        src := 0x204, len := 1, claims := [{ rd := spanOf 0x204 1, wr := noSpan }] } };
      unitClash s .crc = true ∧ unitBusy s .crc = true ∧ spanInMemory s.memSize (crcClaim s).rd = true) := by
  decide +kernel

theorem witness_ResetClearsRegistersKeepsMemory :
    memWf (tIn .reset).mem = true ∧ (tIn .reset).lzd.run = none ∧ (tIn .reset).inputs = .reset :: [] := by
  decide +kernel

/-- The invariant holds where all three units are busy, whatever comes next. -/
theorem inv_tAll (l : List Input) : Inv { tAll with inputs := l } where
  crcStatus := rfl
  ciphStatus := rfl
  lzdStatus := rfl
  crcLevel := rfl
  ciphLevel := rfl
  mode := by show (0x001#32 &&& ~~~modeMask) = 0; decide
  mem := by show memWf tAll.mem = true; decide +kernel
  memIn := by
    have h : tAll.mem.all (fun c => decide (c.1 < tAll.memSize)) = true := by decide +kernel
    simpa only [List.all_eq_true, decide_eq_true_eq] using h
  size := by show 1 ≤ tAll.memSize ∧ tAll.memSize ≤ 2 ^ 32; decide +kernel
  crcResult := fun _ => rfl
  lzdResult := fun _ => ⟨rfl, rfl⟩
  crcOwns := fun _ => rfl
  ciphOwns := fun _ => rfl
  lzdOwns := fun _ => rfl
  run := fun _ h => nomatch h

theorem witness_StepKeepsInvariant :
    Inv (tIn (.turn .crc)) ∧ (∃ t, step (tIn (.turn .crc)) = .next t) ∧
      Inv (tIn .reset) ∧ ∃ t, step (tIn .reset) = .next t :=
  ⟨inv_tAll _, runs (by decide +kernel), inv_tAll _, runs (by decide +kernel)⟩

/-- A byte in the last address of a memory of two, and another primitive. -/
theorem witness_ResetHasInvariant :
    1 ≤ 2 ∧ 2 ≤ 2 ^ 32 ∧ memWf [(1, 0xAA#8)] = true ∧ ∀ c ∈ [(1, 0xAA#8)], c.1 < 2 := by decide

theorem witness_StepKeepsParameters :
    (∃ t, step { tIn (.turn .ciph) with prim := .other 3 } = .next t) ∧ ∃ t, step (tIn .reset) = .next t :=
  ⟨runs (by decide +kernel), runs (by decide +kernel)⟩

/-- The first token, whole, and cut off one byte before its end. -/
theorem witness_StepRunsTheTokenInMemory :
    (let s := withRun freshRun tAll;
    s.lzd.run = some freshRun ∧ freshRun.op < s.lzd.expLen.toNat ∧ freshRun.ip < s.lzd.len.toNat ∧
      decode (runContext freshRun)
        (.stream (memRead s.mem (s.lzd.src.toNat + freshRun.ip) (s.lzd.len.toNat - freshRun.ip))) =
          .ok (.lit (some .one) [0x61, 0x62])) ∧
    (let s := withRun freshRun (tLzd 0x20 2 0x200 5);
      s.lzd.run = some freshRun ∧ freshRun.op < s.lzd.expLen.toNat ∧ freshRun.ip < s.lzd.len.toNat ∧
        decode (runContext freshRun)
          (.stream (memRead s.mem (s.lzd.src.toNat + freshRun.ip) (s.lzd.len.toNat - freshRun.ip))) =
            .error .truncated) := by decide +kernel

/-- The first token cut off after one of its two bytes: its marker's level is reported (spec/44_lz_decompressor.md
R225, R249). -/
theorem test_first_token_cut_off : lzEnd (step (withRun freshRun (tLzd 0x20 2 0x200 5))) 0x00010506 0 0 = true := by
  decide +kernel

theorem witness_StepRunsTheDecodedCommand :
    (let s := { State.reset with inputs := [.regWrite 32 0x100 1] };
      s.lzd.run = none ∧ legalAccess 32 0x100 = true ∧ s.inputs = .regWrite 32 0x100 1 :: [] ∧
        decode none (.ctrlWrite 0x100 s.ciph.mode 1) = .ok (.ciphBadmode .zero .enc .start)) ∧
    (let s := tIn (.turn .ciph);
      s.lzd.run = none ∧ s.inputs = .turn .ciph :: [] ∧ unitBusy s .ciph = true ∧
        decode none (.unitTurn .ciph s.ciph.mode) = .ok (.encEcb .complete)) := by decide +kernel

theorem witness_StatusFollowsLifeCycle :
    Inv (tIn (.turn .crc)) ∧ (∃ t, step (tIn (.turn .crc)) = .next t) ∧
      Inv (tIn .reset) ∧ ∃ t, step (tIn .reset) = .next t :=
  ⟨inv_tAll _, runs (by decide +kernel), inv_tAll _, runs (by decide +kernel)⟩

/-- A host write to the last key register, and RESET. -/
theorem witness_KeyChangesOnlyByHostOrReset :
    (∃ t, step { State.reset with inputs := [.regWrite 32 0x13C 7] } = .next t ∧
      t.ciph.key ≠ State.reset.ciph.key) ∧
    ∃ t, step (tIn .reset) = .next t ∧ t.ciph.key ≠ tAll.ciph.key := by
  obtain ⟨t, h, ht⟩ := next_of_after (o := step { State.reset with inputs := [.regWrite 32 0x13C 7] })
    (p := fun t => decide (t.ciph.key ≠ State.reset.ciph.key)) (by decide +kernel)
  obtain ⟨u, g, hu⟩ := next_of_after (o := step (tIn .reset))
    (p := fun t => decide (t.ciph.key ≠ tAll.ciph.key)) (by decide +kernel)
  exact ⟨⟨t, h, of_decide_eq_true ht⟩, u, g, of_decide_eq_true hu⟩

/-- A host write of a byte, and LZD's completion. -/
theorem witness_MemoryChangesOnlyWhereAllowed :
    (Inv (tIn (.memWrite 0x1FFFF [0xAA])) ∧ ∃ t, step (tIn (.memWrite 0x1FFFF [0xAA])) = .next t ∧
      memGet t.mem 0x1FFFF ≠ memGet tAll.mem 0x1FFFF) ∧
    Inv (tIn (.turn .lzd)) ∧ ∃ t, step (tIn (.turn .lzd)) = .next t ∧ memGet t.mem 0x204 ≠ memGet tAll.mem 0x204 := by
  obtain ⟨t, h, ht⟩ := next_of_after (o := step (tIn (.memWrite 0x1FFFF [0xAA])))
    (p := fun t => decide (memGet t.mem 0x1FFFF ≠ memGet tAll.mem 0x1FFFF)) (by decide +kernel)
  obtain ⟨u, g, hu⟩ := next_of_after (o := step (tIn (.turn .lzd)))
    (p := fun t => decide (memGet t.mem 0x204 ≠ memGet tAll.mem 0x204)) (by decide +kernel)
  exact ⟨⟨inv_tAll _, t, h, of_decide_eq_true ht⟩, inv_tAll _, u, g, of_decide_eq_true hu⟩

theorem witness_CompletionsCommute :
    ∃ a b, Inv { tAll with inputs := [] } ∧ tAll.lzd.run = none ∧ UnitId.crc ≠ .lzd ∧ unitBusy tAll .crc = true ∧
      unitBusy tAll .lzd = true ∧ unitClash tAll .crc = false ∧ unitClash tAll .lzd = false ∧
      unitTurn .crc tAll = .next a ∧ unitTurn .lzd a = .next b := by
  have h : after (unitTurn .crc tAll) (fun a => after (unitTurn .lzd a) (fun _ => true)) = true := by decide +kernel
  obtain ⟨a, ha, hb⟩ := next_of_after h
  obtain ⟨b, hb⟩ := runs hb
  exact ⟨a, b, inv_tAll _, rfl, by decide, rfl, rfl, by decide +kernel, by decide +kernel, ha, hb⟩

theorem witness_QuietMachineFinishesEverything :
    Inv { tAll with inputs := [] } ∧ tAll.lzd.run = none ∧ tAll.inputs = [] ∧
      ∀ u ∈ [UnitId.crc, .ciph, .lzd], unitClash tAll u = false :=
  ⟨inv_tAll _, rfl, rfl, by decide +kernel⟩

end Sys2Proof.Tests
end

section
/-! The registers as bytes and as a window (spec/10_state.md): how the bytes of a key or IV lie in its registers, and
which register accesses are answered. -/

namespace Sys2Proof

/-! ## Key and IV bytes -/

namespace Quad

@[simp] theorem get_map {α β : Type} (f : α → β) (a : Quad α) (i : Fin 4) : (a.map f).get i = f (a.get i) := by
  fin_cases i <;> rfl

end Quad

namespace Oct

@[simp] theorem get_map {α β : Type} (f : α → β) (a : Oct α) (i : Fin 8) : (a.map f).get i = f (a.get i) := by
  fin_cases i <;> rfl

end Oct

namespace Machine

@[simp] theorem keyBytes_get (k : Oct Word) (i : Fin 8) : (keyBytes k).get i = wordBytes (k.get i) :=
  Oct.get_map wordBytes k i

@[simp] theorem ivBytes_get (iv : Quad Word) (i : Fin 4) : (ivBytes iv).get i = wordBytes (iv.get i) :=
  Quad.get_map wordBytes iv i

@[simp] theorem wordBytes_get (w : Word) (j : Fin 4) : (wordBytes w).get j = wordByte w j.val := by
  fin_cases j <;> rfl

/-- A byte of a register as a digit of its value to the base 256. -/
theorem wordByte_toNat (w : Word) (i : Nat) : (wordByte w i).toNat = w.toNat / 2 ^ (8 * i) % 256 := by
  rw [wordByte, BitVec.extractLsb'_toNat, Nat.shiftRight_eq_div_pow]

theorem wordBytes_get_toNat (w : Word) (j : Fin 4) :
    ((wordBytes w).get j).toNat = w.toNat / 2 ^ (8 * j.val) % 256 := by
  rw [wordBytes_get, wordByte_toNat]

/-- Settles O22: a key and an IV are the bytes of each of their registers, and those are the digits of its value. -/
theorem keyAndIvPackingIsLittleEndian : Obligations.KeyAndIvPackingIsLittleEndian := by
  refine ⟨fun k i j => ?_, fun iv i j => ?_⟩
  · rw [keyBytes_get, wordBytes_get_toNat]
  · rw [ivBytes_get, wordBytes_get_toNat]

/-! ## The register window -/

theorem legalAccess_iff (width off : Nat) :
    legalAccess width off = true ↔ width = 32 ∧ off % 4 = 0 ∧ off < 0x400 := by
  simp [legalAccess, and_assoc]

theorem legalAccess_false_iff (width off : Nat) :
    legalAccess width off = false ↔ width ≠ 32 ∨ off % 4 ≠ 0 ∨ 0x400 ≤ off := by
  rw [← Bool.not_eq_true, legalAccess_iff]; omega

theorem hostRead_of_legal {width off : Nat} (h : legalAccess width off = true) (s : State) :
    hostRead width off s = .next (readRegister off s) := by
  simp [hostRead, h]

theorem hostRead_of_illegal {width off : Nat} (h : legalAccess width off = false) (s : State) :
    hostRead width off s = .refused .badRegisterAccess := by
  simp [hostRead, h]

theorem hostWrite_of_illegal {width off : Nat} (h : legalAccess width off = false) (v : Word) (s : State) :
    hostWrite width off v s = .refused .badRegisterAccess := by
  simp [hostWrite, h]

/-- A write outside the CTRL ports is a plain register write. -/
theorem hostWrite_of_not_ctrl {width off : Nat} (h : legalAccess width off = true) (hc : ctrlUnit off = none)
    (v : Word) (s : State) : hostWrite width off v s = .next (writeOffset off v s) := by
  simp [hostWrite, h, hc]

/-- A write of a CTRL port runs the command its value decodes to, if any. -/
theorem hostWrite_of_ctrl {width off : Nat} {u : UnitId} (h : legalAccess width off = true)
    (hc : ctrlUnit off = some u) (v : Word) (s : State) :
    hostWrite width off v s = writeCtrl off v s := by
  simp [hostWrite, h, hc]

/-! ## Commands from a CTRL port -/

/-- START of any command is the start of its unit; only the claimed ranges depend on the command. -/
theorem exec_decodeCommand_start (u : UnitId) (mode : Word) (s : State) :
    ∃ c, exec (decodeCommand u mode .start) s = startCommand u c s := by
  cases u with
  | crc => exact ⟨crcClaim s, rfl⟩
  | lzd => exact ⟨lzdClaim s, rfl⟩
  | ciph =>
    simp only [decodeCommand, decodeCiph]
    split
    · cases modeDir mode <;> exact ⟨ciphClaim s, rfl⟩
    · split
      · cases modeDir mode <;> exact ⟨ciphClaim s, rfl⟩
      · split <;> exact ⟨emptyClaim, rfl⟩

/-- The only commands a CTRL write can give are START and CLEAR. -/
theorem decodeCtrl_ok {u : UnitId} {mode v : Word} {i : Instr} (h : decodeCtrl u mode v = .ok i) :
    i = decodeCommand u mode .start ∨ i = .clear u := by
  unfold decodeCtrl at h
  split at h
  · cases h; exact .inl rfl
  · split at h
    · cases h; exact .inr rfl
    · cases h

/-- Neither START nor CLEAR can be refused or fault, whatever the state. -/
theorem exec_of_decodeCtrl {u : UnitId} {mode v : Word} {i : Instr} (h : decodeCtrl u mode v = .ok i) (s : State) :
    ∃ t, exec i s = .next t := by
  obtain rfl | rfl := decodeCtrl_ok h
  · obtain ⟨c, hc⟩ := exec_decodeCommand_start u mode s
    exact ⟨_, hc.trans (startCommand_eq u c s)⟩
  · exact ⟨clearUnit u s, rfl⟩

/-- What a write of a CTRL port does: the decoded command, or nothing. -/
theorem writeCtrl_cases {off : Nat} {u : UnitId} (hc : ctrlUnit off = some u) (v : Word) (s : State) :
    (∃ i, decodeCtrl u s.ciph.mode v = .ok i ∧ writeCtrl off v s = exec i s) ∨
      (∃ e, decodeCtrl u s.ciph.mode v = .error e ∧ writeCtrl off v s = .next s) := by
  cases hd : decodeCtrl u s.ciph.mode v with
  | ok i => exact .inl ⟨i, rfl, by simp [writeCtrl, decode, hc, hd]⟩
  | error e => exact .inr ⟨e, rfl, by simp [writeCtrl, decode, hc, hd]⟩

/-- Every legal write answers a next state: a plain write always, a CTRL port for each value. -/
theorem hostWrite_of_legal {width off : Nat} (h : legalAccess width off = true) (v : Word) (s : State) :
    ∃ t, hostWrite width off v s = .next t := by
  cases hc : ctrlUnit off with
  | none => exact ⟨_, hostWrite_of_not_ctrl h hc v s⟩
  | some u =>
    rw [hostWrite_of_ctrl h hc]
    obtain ⟨i, hd, hw⟩ | ⟨e, -, hw⟩ := writeCtrl_cases hc v s
    · exact hw ▸ exec_of_decodeCtrl hd s
    · exact ⟨s, hw⟩

/-- Settles O46: the legal accesses are exactly those answered; a CTRL write is the one that needs an argument. -/
theorem badRegisterAccessIsRefused : Obligations.BadRegisterAccessIsRefused := by
  refine fun s width off v => ⟨fun hbad => ?_, fun hwidth halign hoff => ?_⟩
  · have h := (legalAccess_false_iff width off).mpr hbad
    exact ⟨hostRead_of_illegal h s, hostWrite_of_illegal h v s⟩
  · have h := (legalAccess_iff width off).mpr ⟨hwidth, halign, hoff⟩
    exact ⟨⟨_, hostRead_of_legal h s⟩, hostWrite_of_legal h v s⟩

/-! ## BLK_ID -/

/-- A read of a register that is no STATUS only puts the word on the bus. -/
theorem readRegister_of_not_status {off : Nat} (h : statusUnit off = none) (s : State) :
    readRegister off s = { s with busData := readOffset s off } := by
  simp [readRegister, h]

/-- BLK_ID lies in the region of no unit, so no busy unit decides what a write to it does. -/
theorem writeOffset_blkId (v : Word) (s : State) : writeOffset 0x300 v s = s := rfl

theorem readOffset_blkId (s : State) : readOffset s 0x300 = 0x46424A44 := rfl

/-- Settles O42: BLK_ID is neither a STATUS register nor a CTRL port, so a read only puts its constant on the bus and a
write is a plain write of a read-only register. -/
theorem blkIdIsConstant : Obligations.BlkIdIsConstant := by
  intro s v
  have h : legalAccess 32 0x300 = true := by decide
  constructor
  · rw [hostRead_of_legal h, readRegister_of_not_status (by decide), readOffset_blkId]
  · rw [hostWrite_of_not_ctrl h (by decide), writeOffset_blkId]

end Machine

end Sys2Proof
end

section
/-! Host writes to the CTRL ports and to the region of a busy unit (spec/40_commands.md): the lock, and CLEAR. -/

namespace Sys2Proof

namespace Machine

/-! ## The CTRL ports -/

@[simp] theorem ctrlUnit_ctrlOffset (u : UnitId) : ctrlUnit (ctrlOffset u) = some u := by
  cases u <;> rfl

@[simp] theorem legalAccess_ctrlOffset (u : UnitId) : legalAccess 32 (ctrlOffset u) = true := by
  cases u <;> rfl

/-- The only CTRL port of a unit is the one of `ctrlOffset`. -/
theorem ctrlUnit_eq_some_iff (off : Nat) (u : UnitId) : ctrlUnit off = some u ↔ off = ctrlOffset u := by
  refine ⟨fun h => ?_, fun h => h ▸ ctrlUnit_ctrlOffset u⟩
  unfold ctrlUnit at h
  split_ifs at h with hcrc hciph hlzd
  · cases h; exact hcrc
  · cases h; exact hciph
  · cases h; exact hlzd

/-- A CTRL port lies in the region of its own unit. -/
theorem regionUnit_of_ctrlUnit {off : Nat} {u : UnitId} (h : ctrlUnit off = some u) : regionUnit off = some u := by
  obtain rfl := (ctrlUnit_eq_some_iff off u).mp h
  cases u <;> rfl

/-- Bit 1 without bit 0 is CLEAR, whatever the other bits and the mode. -/
theorem decodeCtrl_clear {v : Word} (h0 : v.getLsbD 0 = false) (h1 : v.getLsbD 1 = true) (u : UnitId) (mode : Word) :
    decodeCtrl u mode v = .ok (.clear u) := by
  rw [decodeCtrl, if_neg (ne_true_of_eq_false h0), if_pos h1]

/-- A CTRL write that decodes to a command runs it. -/
theorem writeCtrl_of_decodeCtrl {off : Nat} {u : UnitId} {v : Word} {i : Instr} {s : State}
    (hc : ctrlUnit off = some u) (hd : decodeCtrl u s.ciph.mode v = .ok i) : writeCtrl off v s = exec i s := by
  simp [writeCtrl, decode, hc, hd]

/-! ## A busy unit's lock -/

theorem startCommand_of_busy {u : UnitId} {s : State} (hb : unitBusy s u = true) (c : Claim) :
    startCommand u c s = .next s := by
  rw [startCommand_eq, if_pos hb]

theorem exec_clear (u : UnitId) (s : State) : exec (.clear u) s = .next (clearUnit u s) := rfl

theorem exec_clear_of_busy {u : UnitId} {s : State} (hb : unitBusy s u = true) : exec (.clear u) s = .next s := by
  rw [exec_clear, clearUnit_eq, if_pos hb]

theorem exec_clear_of_idle {u : UnitId} {s : State} (hb : unitBusy s u = false) :
    exec (.clear u) s = .next (setStatus u (clearedStatus (unitStatus s u)) s) := by
  rw [exec_clear, clearUnit_eq, hb, if_neg Bool.false_ne_true]

/-- Both commands a CTRL write can give, START and CLEAR, leave a busy unit alone. -/
theorem exec_of_decodeCtrl_of_busy {u : UnitId} {mode v : Word} {i : Instr} {s : State}
    (h : decodeCtrl u mode v = .ok i) (hb : unitBusy s u = true) : exec i s = .next s := by
  obtain rfl | rfl := decodeCtrl_ok h
  · obtain ⟨c, hc⟩ := exec_decodeCommand_start u mode s
    rw [hc, startCommand_of_busy hb]
  · exact exec_clear_of_busy hb

theorem writeCtrl_of_busy {off : Nat} {u : UnitId} {s : State} (hc : ctrlUnit off = some u)
    (hb : unitBusy s u = true) (v : Word) : writeCtrl off v s = .next s := by
  obtain ⟨i, hd, hw⟩ | ⟨e, -, hw⟩ := writeCtrl_cases hc v s
  · rw [hw, exec_of_decodeCtrl_of_busy hd hb]
  · exact hw

theorem writeLocked_of_busy {off : Nat} {u : UnitId} {s : State} (hr : regionUnit off = some u)
    (hb : unitBusy s u = true) : writeLocked s off = true := by
  simp [writeLocked, hr, hb]

theorem writeOffset_of_locked {off : Nat} {s : State} (h : writeLocked s off = true) (v : Word) :
    writeOffset off v s = s := by
  rw [writeOffset, if_pos h]

/-- Settles O37: outside the CTRL port the lock drops the write; the CTRL port lies in its own unit's region, and the
commands that it can give do nothing on a busy unit. -/
theorem busyUnitIgnoresWrites : Obligations.BusyUnitIgnoresWrites := by
  intro s off v u hlegal hregion hbusy
  cases hc : ctrlUnit off with
  | none => rw [hostWrite_of_not_ctrl hlegal hc, writeOffset_of_locked (writeLocked_of_busy hregion hbusy)]
  | some u' =>
    obtain rfl : u' = u := Option.some.inj ((regionUnit_of_ctrlUnit hc).symm.trans hregion)
    rw [hostWrite_of_ctrl hlegal hc, writeCtrl_of_busy hc hbusy]

/-! ## CLEAR -/

/-- The CLEAR write of a unit is its command CLEAR. -/
theorem hostWrite_clear {v : Word} (h0 : v.getLsbD 0 = false) (h1 : v.getLsbD 1 = true) (u : UnitId) (s : State) :
    hostWrite 32 (ctrlOffset u) v s = exec (.clear u) s := by
  rw [hostWrite_of_ctrl (legalAccess_ctrlOffset u) (ctrlUnit_ctrlOffset u),
    writeCtrl_of_decodeCtrl (ctrlUnit_ctrlOffset u) (decodeCtrl_clear h0 h1 u _)]

/-- Settles O38: the three states are `setStatus` of the cleared STATUS, written out for each unit. -/
theorem clearClearsStatusOnly : Obligations.ClearClearsStatusOnly := by
  refine ⟨fun s u v h0 h1 => hostWrite_clear h0 h1 u s, fun s => ⟨?crc, ?ciph, ?lzd, fun u => exec_clear_of_busy⟩⟩
  case crc => exact exec_clear_of_idle
  case ciph => exact exec_clear_of_idle
  case lzd => exact exec_clear_of_idle

end Machine

end Sys2Proof
end

section
/-! The CRC unit (spec/41_crc32.md): the byte step over XOR, and what the completion step of CRC32 answers. -/

namespace Sys2Proof

namespace Machine

/-! ## The bit step over XOR

A bit step is linear over XOR, and on a word whose low bits are 0 it only shifts. So the bits that `n` steps do not
reach pass through as a plain shift, which is what makes the table form possible. -/

theorem crcBit_eq_xor (a : Word) : crcBit a = (a >>> 1) ^^^ (if a.getLsbD 0 then Config.crcPoly else 0#32) := by
  unfold crcBit
  split
  · rfl
  · rw [BitVec.xor_zero]

/-- A word taken under a condition: taking it twice takes it not at all. -/
theorem ite_xor_eq_xor_ite (p q : Bool) (k : Word) :
    (if p ^^ q then k else 0#32) = (if p then k else 0#32) ^^^ (if q then k else 0#32) := by
  cases p <;> cases q <;> simp

theorem crcBit_xor (a c : Word) : crcBit (a ^^^ c) = crcBit a ^^^ crcBit c := by
  simp only [crcBit_eq_xor, BitVec.ushiftRight_xor_distrib, BitVec.getLsbD_xor, ite_xor_eq_xor_ite]
  ac_rfl

theorem crcBit_of_low_bit_zero {a : Word} (h : a.getLsbD 0 = false) : crcBit a = a >>> 1 := by
  rw [crcBit, if_neg (ne_true_of_eq_false h)]

theorem crcBits_xor (n : Nat) (a c : Word) : crcBits n (a ^^^ c) = crcBits n a ^^^ crcBits n c := by
  induction n generalizing a c with
  | zero => rfl
  | succ n ih => rw [crcBits, crcBit_xor, ih]; rfl

theorem crcBits_of_low_bits_zero {n : Nat} {a : Word} (h : ∀ i < n, a.getLsbD i = false) :
    crcBits n a = a >>> n := by
  induction n generalizing a with
  | zero => rw [crcBits, BitVec.ushiftRight_zero]
  | succ n ih =>
    have hshift : ∀ i < n, (a >>> 1).getLsbD i = false := fun i hi => by
      rw [BitVec.getLsbD_ushiftRight]
      exact h (1 + i) (by omega)
    rw [crcBits, crcBit_of_low_bit_zero (h 0 n.succ_pos), ih hshift, ← BitVec.shiftRight_add, Nat.add_comm]

/-- Two words that agree in their low `n` bits differ after `n` bit steps only by the shifted difference. -/
theorem crcBits_of_low_bits_eq {n : Nat} {x y : Word} (h : ∀ i < n, x.getLsbD i = y.getLsbD i) :
    crcBits n x = crcBits n y ^^^ ((x ^^^ y) >>> n) := by
  have hzero : ∀ i < n, (x ^^^ y).getLsbD i = false := fun i hi => by
    rw [BitVec.getLsbD_xor, h i hi, Bool.xor_self]
  calc crcBits n x = crcBits n (y ^^^ (x ^^^ y)) := by
        rw [BitVec.xor_comm x y, ← BitVec.xor_assoc, BitVec.xor_self, BitVec.zero_xor]
    _ = crcBits n y ^^^ crcBits n (x ^^^ y) := crcBits_xor n y _
    _ = crcBits n y ^^^ ((x ^^^ y) >>> n) := by rw [crcBits_of_low_bits_zero hzero]

/-! ## The byte step as the table step -/

theorem getLsbD_byteMask (i : Nat) : (0xFF#32).getLsbD i = decide (i < 8) := by
  have hmask : (0xFF#32).getLsbD i = (decide (i < 32) && (2 ^ 8 - 1).testBit i) := BitVec.getLsbD_ofNat ..
  rw [hmask, Nat.testBit_two_pow_sub_one, ← Bool.decide_and]
  exact decide_eq_decide.mpr (by omega)

/-- The byte and the table index lie in the low 8 bits, so shifting them out leaves the accumulator's upper bits. -/
theorem xor_low_byte_ushiftRight (a : Word) (b : Byte) :
    ((a ^^^ b.setWidth 32) ^^^ ((a ^^^ b.setWidth 32) &&& 0xFF#32)) >>> 8 = a >>> 8 := by
  apply BitVec.eq_of_getLsbD_eq
  intro i _
  simp [getLsbD_byteMask]

theorem crcByte_eq_table_step (a : Word) (b : Byte) :
    crcByte a b = crcBits 8 ((a ^^^ b.setWidth 32) &&& 0xFF#32) ^^^ (a >>> 8) := by
  have hlow : ∀ i < 8, (a ^^^ b.setWidth 32).getLsbD i = ((a ^^^ b.setWidth 32) &&& 0xFF#32).getLsbD i :=
    fun i hi => by rw [BitVec.getLsbD_and, getLsbD_byteMask, decide_eq_true hi, Bool.and_true]
  rw [crcByte, crcBits_of_low_bits_eq hlow, xor_low_byte_ushiftRight]

/-- Settles O9: the table form by linearity of the bit step; the eight entries are computed. -/
theorem crcByteIsTableStep : Obligations.CrcByteIsTableStep :=
  ⟨crcByte_eq_table_step, by decide, by decide, by decide, by decide, by decide, by decide, by decide, by decide⟩

/-! ## The completion step of CRC32 -/

theorem exec_crc32_complete (s : State) : exec (.crc32 .complete) s = completeCrc s := rfl

theorem completeCrc_of_outside_memory {s : State} (hb : unitBusy s .crc = true)
    (hm : spanInMemory s.memSize (crcClaim s).rd = false) : completeCrc s = .next (raiseError .crc .addr s) := by
  simp [completeCrc, hb, hm]

theorem completeCrc_of_no_clash {s : State} (hb : unitBusy s .crc = true)
    (hm : spanInMemory s.memSize (crcClaim s).rd = true) (hc : unitClash s .crc = false) :
    completeCrc s = .next (crcDone s) := by
  simp [completeCrc, hb, hm, hc]

/-- Settles O7: R157's range check fails, and the error completion of the CRC unit writes STATUS alone. -/
theorem crc32OutsideMemoryIsAddr : Obligations.Crc32OutsideMemoryIsAddr := by
  refine ⟨by decide, fun s hbusy hpos hend => ?_⟩
  have houtside : spanInMemory s.memSize (crcClaim s).rd = false := (spanInMemory_false_iff _ _).mpr ⟨hpos, hend⟩
  rw [exec_crc32_complete, completeCrc_of_outside_memory hbusy houtside]
  rfl

/-! ## An operation that touches no byte -/

theorem spansMeet_of_left_empty {a : Span} (h : a.len = 0) (b : Span) : spansMeet a b = false := by
  simp [spansMeet, h]

theorem claimsClash_of_left_empty {a : Claim} (hrd : a.rd.len = 0) (hwr : a.wr.len = 0) (b : Claim) :
    claimsClash a b = false := by
  simp [claimsClash, spansMeet_of_left_empty hrd, spansMeet_of_left_empty hwr]

theorem clashesWith_of_empty_claim {s : State} {u : UnitId} {a : Claim} (ha : unitClaim s u = some a)
    (hrd : a.rd.len = 0) (hwr : a.wr.len = 0) (v : UnitId) : clashesWith s u v = false := by
  cases hv : unitClaim s v with
  | none => simp [clashesWith, hv]
  | some b => simp [clashesWith, ha, hv, claimsClash_of_left_empty hrd hwr]

/-- A unit that owns only empty ranges clashes with no other. -/
theorem unitClash_of_empty_claim {s : State} {u : UnitId} {a : Claim} (ha : unitClaim s u = some a)
    (hrd : a.rd.len = 0) (hwr : a.wr.len = 0) : unitClash s u = false := by
  simp [unitClash, clashesWith_of_empty_claim ha hrd hwr]

theorem crc32_nil : crc32 [] = 0 := by decide

theorem crcDone_of_len_zero {s : State} (h : s.crc.len = 0) :
    crcDone s = { s with crc := { s.crc with status := doneStatus none, result := 0 } } := by
  simp [crcDone, h, memRead, crc32_nil]

/-- Settles O8: an empty range passes the range check wherever it starts and meets no other unit's, and the checksum
of no bytes is 0. -/
theorem crc32OfNothingIsZero : Obligations.Crc32OfNothingIsZero := by
  refine ⟨by decide, fun s hbusy howns hlen => ?_⟩
  have hempty : (crcClaim s).rd.len = 0 := congrArg BitVec.toNat hlen
  have hinside : spanInMemory s.memSize (crcClaim s).rd = true := (spanInMemory_iff _ _).mpr (Or.inl hempty)
  have hfree : unitClash s .crc = false := unitClash_of_empty_claim howns hempty noSpan_len
  rw [exec_crc32_complete, completeCrc_of_no_clash hbusy hinside hfree, crcDone_of_len_zero hlen]

end Machine

end Sys2Proof
end

section
/-! The cipher adapter (spec/42_cipher_adapter.md): what a mode function leaves in memory block by block, what the
completion step of a cipher command answers for each outcome of its checks, and the unsupported modes. -/

namespace Sys2Proof

namespace Machine

/-! ## The chaining values of a run of blocks -/

/-- The chaining value with which a mode function meets block `j` of the input `inp`: `chain` at block 0, then what the
block before handed on (spec/42_cipher_adapter.md R174, R175). -/
def chainAt (f : ModeStep) (chain : Block) (inp : Nat → Block) : Nat → Block
  | 0 => chain
  | j + 1 => (f (chainAt f chain inp j) (inp j)).2

theorem chainAt_succ_eq_chainAt_tail (f : ModeStep) (chain : Block) (inp : Nat → Block) (j : Nat) :
    chainAt f chain inp (j + 1) = chainAt f (f chain (inp 0)).2 (fun i => inp (i + 1)) j := by
  induction j with
  | zero => rfl
  | succ j ih => rw [chainAt, ih, chainAt]

theorem chainAt_congr {f : ModeStep} {chain : Block} {inp inp' : Nat → Block} {j : Nat}
    (h : ∀ i < j, inp i = inp' i) : chainAt f chain inp j = chainAt f chain inp' j := by
  induction j with
  | zero => rfl
  | succ j ih => rw [chainAt, chainAt, ih fun i hi => h i (by omega), h j (by omega)]

/-! ## Memory after a mode function -/

theorem readBlock_writeBlock_outside {m : List Host.Cell} (hm : memWf m = true) {a a' : Nat} (b : Block)
    (h : a' + 16 ≤ a ∨ a + 16 ≤ a') : readBlock (writeBlock m a b) a' = readBlock m a' :=
  readBlock_congr fun _ _ _ => memGet_writeBlock_outside hm (by omega)

theorem memGet_cipherBlocks_outside (f : ModeStep) {n : Nat} {m : List Host.Cell} (hm : memWf m = true) (chain : Block)
    (src : Nat) {dst a : Nat} (h : a < dst ∨ dst + 16 * n ≤ a) :
    memGet (cipherBlocks f n chain src dst m) a = memGet m a := by
  induction n generalizing m chain src dst with
  | zero => rfl
  | succ n ih =>
    have hrest : a < dst + Config.blockBytes ∨ dst + Config.blockBytes + 16 * n ≤ a := by
      simp only [Config.blockBytes]; omega
    rw [cipherBlocks, ih (memWf_writeBlock hm _ _) _ _ hrest, memGet_writeBlock_outside hm (by omega)]

/-- What a mode function leaves in memory: output block `j` is what it makes of input block `j` and the chaining value
there, both taken from the memory before. In place (`dst = src`) or with ranges apart, no block is overwritten before it
is read; that is all `hord` asks. -/
theorem readBlock_cipherBlocks (f : ModeStep) {n : Nat} {m : List Host.Cell} (hm : memWf m = true) (chain : Block)
    {src dst : Nat} (hord : dst ≤ src ∨ src + 16 * n ≤ dst) {j : Nat} (hj : j < n) :
    readBlock (cipherBlocks f n chain src dst m) (dst + 16 * j) =
      (f (chainAt f chain (fun i => readBlock m (src + 16 * i)) j) (readBlock m (src + 16 * j))).1 := by
  induction n generalizing m chain src dst j with
  | zero => omega
  | succ n ih =>
    rw [cipherBlocks]
    set out := f chain (readBlock m src)
    have hm' : memWf (writeBlock m dst out.1) = true := memWf_writeBlock hm _ _
    cases j with
    | zero =>
      have hkeep : ∀ a, dst ≤ a → a < dst + 16 →
          memGet (cipherBlocks f n out.2 (src + 16) (dst + 16) (writeBlock m dst out.1)) a =
            memGet (writeBlock m dst out.1) a :=
        fun a _ _ => memGet_cipherBlocks_outside f hm' _ _ (by omega)
      exact (readBlock_congr hkeep).trans (readBlock_writeBlock hm dst _)
    | succ j =>
      have hinp : ∀ i < n, readBlock (writeBlock m dst out.1) (src + 16 + 16 * i) = readBlock m (src + 16 * (i + 1)) :=
        fun i hi => by
          rw [readBlock_writeBlock_outside hm _ (by omega), show src + 16 + 16 * i = src + 16 * (i + 1) by omega]
      have hchain : chainAt f out.2 (fun i => readBlock (writeBlock m dst out.1) (src + 16 + 16 * i)) j =
          chainAt f chain (fun i => readBlock m (src + 16 * i)) (j + 1) := by
        rw [chainAt_succ_eq_chainAt_tail]
        exact chainAt_congr fun i hi => hinp i (by omega)
      have hstep := ih hm' out.2 (src := src + 16) (dst := dst + 16) (by omega) (Nat.lt_of_succ_lt_succ hj)
      rw [hchain, hinp j (by omega), show dst + 16 + 16 * j = dst + 16 * (j + 1) by omega] at hstep
      exact hstep

/-! ## The completion step of a cipher command -/

theorem exec_encEcb_complete (s : State) :
    exec (.encEcb .complete) s = completeCiph (ecbEncStep (bc s) (unitKey s)) noChain s := rfl

theorem exec_decEcb_complete (s : State) :
    exec (.decEcb .complete) s = completeCiph (ecbDecStep (bc s) (unitKey s)) noChain s := rfl

theorem exec_encCbc_complete (s : State) :
    exec (.encCbc .complete) s = completeCiph (cbcEncStep (bc s) (unitKey s)) (unitIv s) s := rfl

theorem exec_decCbc_complete (s : State) :
    exec (.decCbc .complete) s = completeCiph (cbcDecStep (bc s) (unitKey s)) (unitIv s) s := rfl

/-- The four commands differ in their mode function and its first chaining value only. -/
theorem exec_cipher_complete {i : Instr}
    (hi : i = .encEcb .complete ∨ i = .encCbc .complete ∨ i = .decEcb .complete ∨ i = .decCbc .complete) (s : State) :
    ∃ f chain, exec i s = completeCiph f chain s := by
  obtain rfl | rfl | rfl | rfl := hi
  · exact ⟨_, _, exec_encEcb_complete s⟩
  · exact ⟨_, _, exec_encCbc_complete s⟩
  · exact ⟨_, _, exec_decEcb_complete s⟩
  · exact ⟨_, _, exec_decCbc_complete s⟩

section Checks

variable {s : State} (f : ModeStep) (chain : Block)

theorem completeCiph_of_bad_length (hb : unitBusy s .ciph = true) (hlen : s.ciph.len.toNat % 16 ≠ 0) :
    completeCiph f chain s = .next (raiseError .ciph .ciphLen s) := by
  simp [completeCiph, hb, Config.blockBytes, hlen]

theorem completeCiph_of_bad_ranges (hb : unitBusy s .ciph = true) (hlen : s.ciph.len.toNat % 16 = 0)
    (hbad : spanInMemory s.memSize (ciphClaim s).rd = false ∨ spanInMemory s.memSize (ciphClaim s).wr = false ∨
      badOverlap s = true) : completeCiph f chain s = .next (raiseError .ciph .addr s) := by
  obtain hrd | hwr | hov := hbad
  · simp [completeCiph, hb, Config.blockBytes, hlen, hrd]
  · simp [completeCiph, hb, Config.blockBytes, hlen, hwr]
  · simp [completeCiph, hb, Config.blockBytes, hlen, hov]

theorem completeCiph_of_checks_pass (hb : unitBusy s .ciph = true) (hlen : s.ciph.len.toNat % 16 = 0)
    (hrd : spanInMemory s.memSize (ciphClaim s).rd = true) (hwr : spanInMemory s.memSize (ciphClaim s).wr = true)
    (hov : badOverlap s = false) (hc : unitClash s .ciph = false) :
    completeCiph f chain s = .next (ciphDone f chain s) := by
  simp [completeCiph, hb, Config.blockBytes, hlen, hrd, hwr, hov, hc]

end Checks

theorem badOverlap_iff (s : State) :
    badOverlap s = true ↔ s.ciph.dst ≠ s.ciph.src ∧ s.ciph.src.toNat < s.ciph.dst.toNat + s.ciph.len.toNat ∧
      s.ciph.dst.toNat < s.ciph.src.toNat + s.ciph.len.toNat := by
  simp only [badOverlap, ciphClaim, Bool.and_eq_true, decide_eq_true_eq, spansMeet_iff, spanOf_base, spanOf_len]
  exact and_congr_right fun _ => by omega

theorem ciphReady_iff (s : State) :
    ciphReady s = true ↔ unitBusy s .ciph = true ∧ s.ciph.len.toNat % 16 = 0 ∧
      spanInMemory s.memSize (ciphClaim s).rd = true ∧ spanInMemory s.memSize (ciphClaim s).wr = true ∧
      badOverlap s = false ∧ unitClash s .ciph = false := by
  simp [ciphReady, and_assoc]

/-- Without a bad overlap no input block is overwritten before it is read. -/
theorem dst_le_src_or_src_end_le_dst {s : State} (h : badOverlap s = false) :
    s.ciph.dst.toNat ≤ s.ciph.src.toNat ∨
      s.ciph.src.toNat + 16 * (s.ciph.len.toNat / 16) ≤ s.ciph.dst.toNat := by
  by_cases heq : s.ciph.dst = s.ciph.src
  · exact .inl (by rw [heq])
  · have hapart := mt (badOverlap_iff s).mpr (ne_true_of_eq_false h)
    simp only [heq, ne_eq, not_false_eq_true, true_and] at hapart
    omega

/-- Input block `j` of the CIPH unit (spec/42_cipher_adapter.md R166). -/
def inputBlock (s : State) (j : Nat) : Block := readBlock s.mem (s.ciph.src.toNat + 16 * j)

/-- The answer of a ready CIPH unit, for every mode function: the output blocks, the bytes left alone, and success. -/
theorem completeCiph_of_ready (f : ModeStep) (chain : Block) {s : State} (hm : memWf s.mem = true)
    (hready : ciphReady s = true) :
    ∃ t, completeCiph f chain s = .next t ∧
      (∀ j, j < s.ciph.len.toNat / 16 → readBlock t.mem (s.ciph.dst.toNat + 16 * j) =
        (f (chainAt f chain (inputBlock s) j) (inputBlock s j)).1) ∧
      sameOutside (ciphClaim s).wr s.mem t.mem ∧ ciphSucceeded s t := by
  obtain ⟨hb, hlen, hrd, hwr, hov, hc⟩ := (ciphReady_iff s).mp hready
  refine ⟨ciphDone f chain s, completeCiph_of_checks_pass f chain hb hlen hrd hwr hov hc, ?blocks, ?frame, rfl⟩
  case blocks =>
    exact fun j hj => readBlock_cipherBlocks f hm chain (dst_le_src_or_src_end_le_dst hov) hj
  case frame =>
    intro a ha
    have hout : a < s.ciph.dst.toNat ∨ s.ciph.dst.toNat + s.ciph.len.toNat ≤ a := (spanHas_false_iff _ _).mp ha
    exact memGet_cipherBlocks_outside f hm chain _ (by simp only [Config.blockBytes]; omega)

/-! ## The four modes -/

/-- Settles O11: the ECB step makes its output of the input block alone. -/
theorem encEcbEncryptsEveryBlock : Obligations.EncEcbEncryptsEveryBlock := by
  intro s hm hready
  rw [exec_encEcb_complete]
  exact completeCiph_of_ready (ecbEncStep (bc s) (unitKey s)) noChain hm hready

/-- Settles O12: the ECB step makes its output of the input block alone. -/
theorem decEcbDecryptsEveryBlock : Obligations.DecEcbDecryptsEveryBlock := by
  intro s hm hready
  rw [exec_decEcb_complete]
  exact completeCiph_of_ready (ecbDecStep (bc s) (unitKey s)) noChain hm hready

/-- Settles O13: the step hands its output block on, so the chaining value at a later block is the output before it. -/
theorem encCbcChainsOutputBlocks : Obligations.EncCbcChainsOutputBlocks := by
  intro s hm hready
  obtain ⟨t, ht, hblocks, hframe, hok⟩ := completeCiph_of_ready (cbcEncStep (bc s) (unitKey s)) (unitIv s) hm hready
  refine ⟨t, ht, fun j hj => ?_, hframe, hok⟩
  rw [hblocks j hj]
  cases j with
  | zero => rfl
  | succ j =>
    rw [if_neg j.succ_ne_zero, Nat.add_sub_cancel, hblocks j (by omega)]
    rfl

/-- Settles O14: the step hands its input block on, and input blocks are those of the memory before. -/
theorem decCbcChainsInputBlocks : Obligations.DecCbcChainsInputBlocks := by
  intro s hm hready
  obtain ⟨t, ht, hblocks, hframe, hok⟩ := completeCiph_of_ready (cbcDecStep (bc s) (unitKey s)) (unitIv s) hm hready
  refine ⟨t, ht, fun j hj => ?_, hframe, hok⟩
  rw [hblocks j hj]
  cases j with
  | zero => rfl
  | succ j =>
    rw [if_neg j.succ_ne_zero, Nat.add_sub_cancel]
    rfl

/-! ## Unsupported modes -/

theorem exec_ciphBadmode_complete (alg : BadAlg) (dir : Dir) {s : State} (hb : unitBusy s .ciph = true) :
    exec (.ciphBadmode alg dir .complete) s = .next (raiseError .ciph .ciphMode s) := by
  simp [exec, execCiphBadmode, completeBadmode, hb]

theorem decodeCiph_of_unsupported {mode : Word} (h1 : modeAlg mode ≠ 1#2) (h2 : modeAlg mode ≠ 2#2) (ph : Phase) :
    ∃ alg, decodeCiph mode ph = .ciphBadmode alg (modeDir mode) ph := by
  rw [decodeCiph, if_neg h1, if_neg h2]
  split
  · exact ⟨.zero, rfl⟩
  · exact ⟨.three, rfl⟩

/-- Settles O15: with ALG neither 1 nor 2 the unit's turn is CIPH.BADMODE, which looks at no other register. -/
theorem unsupportedModeFails : Obligations.UnsupportedModeFails := by
  refine ⟨by decide, fun s alg dir hb => exec_ciphBadmode_complete alg dir hb, fun s hb h1 h2 => ?_⟩
  obtain ⟨alg, halg⟩ := decodeCiph_of_unsupported h1 h2 .complete
  rw [unitTurn_eq, if_pos hb, decodeCommand, halg]
  exact exec_ciphBadmode_complete alg _ hb

/-! ## The checks in their order -/

/-- Settles O16: each clause is one failing check of the completion step that the four commands share. -/
theorem ciphChecksInOrder : Obligations.CiphChecksInOrder := by
  intro s i hi hb
  obtain ⟨f, chain, hexec⟩ := exec_cipher_complete hi s
  rw [hexec]
  refine ⟨fun hlen => completeCiph_of_bad_length f chain hb hlen, fun hlen hpos hend => ?range,
    fun hlen hne hsrc hdst => ?overlap⟩
  case range =>
    refine completeCiph_of_bad_ranges f chain hb hlen ?_
    obtain hrd | hwr := hend
    · exact .inl ((spanInMemory_false_iff _ _).mpr ⟨hpos, hrd⟩)
    · exact .inr (.inl ((spanInMemory_false_iff _ _).mpr ⟨hpos, hwr⟩))
  case overlap =>
    exact completeCiph_of_bad_ranges f chain hb hlen (.inr (.inr ((badOverlap_iff s).mpr ⟨hne, hsrc, hdst⟩)))

/-! ## ECB and the IV -/

/-- The state with another IV in the CIPH registers. -/
def withIv (iv : Quad Word) (s : State) : State := { s with ciph := { s.ciph with iv := iv } }

/-- The completion step reads the IV only as the first chaining value it is given. -/
theorem completeCiph_withIv {f : ModeStep} {chain : Block} {s t : State} (h : completeCiph f chain s = .next t)
    (iv : Quad Word) : completeCiph f chain (withIv iv s) = .next (withIv iv t) := by
  obtain ⟨hb, ⟨hlen, rfl⟩ | ⟨hlen, ⟨hbad, rfl⟩ | ⟨hrd, hwr, hov, hc, rfl⟩⟩⟩ := completeCiph_next h
  · exact completeCiph_of_bad_length (s := withIv iv s) f chain hb hlen
  · exact completeCiph_of_bad_ranges (s := withIv iv s) f chain hb hlen hbad
  · exact completeCiph_of_checks_pass (s := withIv iv s) f chain hb hlen hrd hwr hov hc

/-- Settles O17: the ECB commands give the completion step a fixed chaining value in place of the IV. -/
theorem ecbIgnoresIv : Obligations.EcbIgnoresIv := by
  intro s t iv i hi h
  obtain rfl | rfl := hi
  · rw [exec_encEcb_complete] at h
    exact completeCiph_withIv h iv
  · rw [exec_decEcb_complete] at h
    exact completeCiph_withIv h iv

end Machine

end Sys2Proof
end

section
/-! The AES-256 primitive (spec/43_aes256_primitive.md): the substitution tables against the field GF(2^8), and the
worked example, each point of R207 from the point before it. -/

namespace Sys2Proof

namespace Machine

-- As in the tests: evaluations in the kernel run one after another, not each in a thread of its own.
set_option Elab.async false

/-! ## The substitution tables

The affine map of R193 is invertible, so the table itself tells which byte it was applied to. That byte is the inverse
in GF(2^8), which leaves one product for each entry to check. The tables are lists of literals, so what is said of their
entries is computed for each of the 256 bytes. -/

/-- The affine map from inv(a) to SBOX[a] (spec/43_aes256_primitive.md R193). -/
def sboxAffine (b : Byte) : Byte :=
  b ^^^ b.rotateLeft 1 ^^^ b.rotateLeft 2 ^^^ b.rotateLeft 3 ^^^ b.rotateLeft 4 ^^^ 0x63

/-- The affine map that undoes `sboxAffine`. -/
def sboxAffineInv (y : Byte) : Byte := y.rotateLeft 1 ^^^ y.rotateLeft 3 ^^^ y.rotateLeft 6 ^^^ 0x05

theorem sboxAffine_sboxAffineInv (y : Byte) : sboxAffine (sboxAffineInv y) = y := by
  revert y; decide +kernel

/-- inv(a) of spec/43_aes256_primitive.md R191, read back from SBOX[a]. -/
def gfInv (a : Byte) : Byte := sboxAffineInv (sbox a)

theorem sbox_eq_sboxAffine_gfInv (a : Byte) : sbox a = sboxAffine (gfInv a) :=
  (sboxAffine_sboxAffineInv (sbox a)).symm

theorem gfInv_zero : gfInv 0 = 0 := by decide

theorem gfMul_gfInv {a : Byte} (ha : a ≠ 0) : gfMul a (gfInv a) = 1 := by
  revert a; decide +kernel

theorem invSbox_sbox (a : Byte) : invSbox (sbox a) = a := by
  revert a; decide +kernel

/-- Settles O21: `gfInv` is the inverse in the field, and the affine map takes it to the table's entry. -/
theorem sboxIsAffineOfInverse : Obligations.SboxIsAffineOfInverse := by
  refine ⟨fun a => ⟨gfInv a, ?_, sbox_eq_sboxAffine_gfInv a⟩, invSbox_sbox⟩
  split
  case isTrue hzero => rw [hzero, gfInv_zero]
  case isFalse hne => exact gfMul_gfInv hne

/-! ## The worked example of R207 -/

/-- The worked example after `AddRoundKey(·, 0)`. -/
def exampleWhitened : Block :=
  ⟨⟨0x00, 0x10, 0x20, 0x30⟩, ⟨0x40, 0x50, 0x60, 0x70⟩, ⟨0x80, 0x90, 0xa0, 0xb0⟩, ⟨0xc0, 0xd0, 0xe0, 0xf0⟩⟩

/-- The worked example in round 1 after `SubBytes`. -/
def exampleSubstituted : Block :=
  ⟨⟨0x63, 0xca, 0xb7, 0x04⟩, ⟨0x09, 0x53, 0xd0, 0x51⟩, ⟨0xcd, 0x60, 0xe0, 0xe7⟩, ⟨0xba, 0x70, 0xe1, 0x8c⟩⟩

/-- The worked example in round 1 after `ShiftRows`. -/
def exampleShifted : Block :=
  ⟨⟨0x63, 0x53, 0xe0, 0x8c⟩, ⟨0x09, 0x60, 0xe1, 0x04⟩, ⟨0xcd, 0x70, 0xb7, 0x51⟩, ⟨0xba, 0xca, 0xd0, 0xe7⟩⟩

/-- The worked example in round 1 after `MixColumns`. -/
def exampleMixed : Block :=
  ⟨⟨0x5f, 0x72, 0x64, 0x15⟩, ⟨0x57, 0xf5, 0xbc, 0x92⟩, ⟨0xf7, 0xbe, 0x3b, 0x29⟩, ⟨0x1d, 0xb9, 0xf9, 0x1a⟩⟩

/-- The worked example after round 1. -/
def exampleAfterRound1 : Block :=
  ⟨⟨0x4f, 0x63, 0x76, 0x06⟩, ⟨0x43, 0xe0, 0xaa, 0x85⟩, ⟨0xef, 0xa7, 0x21, 0x32⟩, ⟨0x01, 0xa4, 0xe7, 0x05⟩⟩

/-- The final output of the worked example. -/
def exampleOutput : Block :=
  ⟨⟨0x8e, 0xa2, 0xb7, 0xca⟩, ⟨0x51, 0x67, 0x45, 0xbf⟩, ⟨0xea, 0xfc, 0x49, 0x90⟩, ⟨0x4b, 0x49, 0x60, 0x89⟩⟩

theorem addRoundKey_zero_exampleBlock :
    addRoundKey (keySchedule exampleKey) 0 exampleBlock = exampleWhitened := by decide +kernel

theorem subBytes_exampleWhitened : subBytes exampleWhitened = exampleSubstituted := by decide +kernel

theorem shiftRows_exampleSubstituted : shiftRows exampleSubstituted = exampleShifted := rfl

theorem mixColumns_exampleShifted : mixColumns exampleShifted = exampleMixed := by decide +kernel

theorem addRoundKey_one_exampleMixed :
    addRoundKey (keySchedule exampleKey) 1 exampleMixed = exampleAfterRound1 := by decide +kernel

theorem encRound_one_exampleWhitened :
    encRound (keySchedule exampleKey) exampleWhitened 1 = exampleAfterRound1 := by
  rw [encRound, subBytes_exampleWhitened, shiftRows_exampleSubstituted, mixColumns_exampleShifted,
    addRoundKey_one_exampleMixed]

/-- Rounds 2 to 14 of the worked example. -/
theorem laterRounds_exampleAfterRound1 :
    addRoundKey (keySchedule exampleKey) 14 (shiftRows (subBytes
      (middleRounds.tail.foldl (encRound (keySchedule exampleKey)) exampleAfterRound1))) = exampleOutput := by
  decide +kernel

/-- Encryption is the whitening, round 1 and the later rounds in turn. -/
theorem aesEncrypt_exampleBlock : aesEncrypt exampleKey exampleBlock = exampleOutput := by
  have hsplit : middleRounds = 1 :: middleRounds.tail := rfl
  rw [aesEncrypt, encryptWith, addRoundKey_zero_exampleBlock, hsplit, List.foldl_cons, encRound_one_exampleWhitened,
    laterRounds_exampleAfterRound1]

theorem aesDecrypt_exampleOutput : aesDecrypt exampleKey exampleOutput = exampleBlock := by decide +kernel

theorem aesEncrypt_zero :
    aesEncrypt (Oct.fill zeroCol) (Quad.fill zeroCol) =
      ⟨⟨0xdc, 0x95, 0xc0, 0x78⟩, ⟨0xa2, 0x40, 0x89, 0x89⟩, ⟨0xad, 0x48, 0xa2, 0x14⟩, ⟨0x92, 0x84, 0x20, 0x87⟩⟩ := by
  decide +kernel

/-- Settles O20: each point of R207 is reached from the point before it. -/
theorem primitiveWorkedExample : Obligations.PrimitiveWorkedExample := by
  unfold Obligations.PrimitiveWorkedExample
  simp only [addRoundKey_zero_exampleBlock, subBytes_exampleWhitened, shiftRows_exampleSubstituted,
    mixColumns_exampleShifted, encRound_one_exampleWhitened]
  exact ⟨rfl, rfl, rfl, rfl, rfl, aesEncrypt_exampleBlock, aesDecrypt_exampleOutput, aesEncrypt_zero⟩

end Machine

end Sys2Proof
end

section
/-! How a token is read back from its bytes (spec/30_encoding.md R100 to R114): whatever reader answers the bytes that
`tokenBytes` wrote, and whatever stands after them, the decoder finds the token again. -/

namespace Sys2Proof

/-! ## Sizes -/

/-- The family of `Laws.TokenSize`, for every instruction. -/
theorem tokenSize_statement (i : Instr) : Laws.TokenSize.Statement i := by
  cases i with
  | crc32 ph => exact Laws.TokenSize.crc32 ph
  | encEcb ph => exact Laws.TokenSize.encEcb ph
  | encCbc ph => exact Laws.TokenSize.encCbc ph
  | decEcb ph => exact Laws.TokenSize.decEcb ph
  | decCbc ph => exact Laws.TokenSize.decCbc ph
  | ciphBadmode alg dir ph => exact Laws.TokenSize.ciphBadmode alg dir ph
  | lzd ph => exact Laws.TokenSize.lzd ph
  | clear u => exact Laws.TokenSize.clear u
  | lit mark data => exact Laws.TokenSize.lit mark data
  | match1S f h lo => exact Laws.TokenSize.match1S f h lo
  | match1L h x lo => exact Laws.TokenSize.match1L h x lo
  | match2S f h lo => exact Laws.TokenSize.match2S f h lo
  | match2L h n x lo => exact Laws.TokenSize.match2L h n x lo
  | match2SF f xd => exact Laws.TokenSize.match2SF f xd
  | match2LF n x xd => exact Laws.TokenSize.match2LF n x xd
  | lzBadlevel m h => exact Laws.TokenSize.lzBadlevel m h

@[simp] theorem tokenBytes_length (i : Instr) : (tokenBytes i).length = tokenSize i := (tokenSize_statement i).1

/-- A token or reserved first byte is at least one byte long. -/
theorem tokenSize_pos {i : Instr} (ht : i.isToken = true) (hw : i.wellFormed = true) : 0 < tokenSize i := by
  obtain hsize | ⟨m, h, rfl⟩ := (tokenSize_statement i).2 ht hw
  · omega
  · exact Nat.one_pos

/-! ## Fields of a control byte -/

@[simp] theorem ctrlF_ctrlByte (f : BitVec 3) (h : BitVec 5) : ctrlF (ctrlByte f h) = f :=
  BitVec.extractLsb'_append_eq_left

@[simp] theorem ctrlH_ctrlByte (f : BitVec 3) (h : BitVec 5) : ctrlH (ctrlByte f h) = h :=
  BitVec.extractLsb'_append_eq_right

/-- The high and the low byte of an offset give it back (spec/30_encoding.md R109). -/
theorem be16_bytes (x : BitVec 16) : be16 (x.extractLsb' 8 8) (x.extractLsb' 0 8) = x := by
  apply BitVec.eq_of_toNat_eq
  simp only [be16, BitVec.toNat_ofNat, BitVec.extractLsb'_toNat, Nat.shiftRight_eq_div_pow]
  have := x.isLt
  omega

/-- H is wide enough for every run length the grammar allows (spec/30_encoding.md R104). -/
theorem litH_toNat {data : List Byte} (h1 : 1 ≤ data.length) (h2 : data.length ≤ 32) :
    (BitVec.ofNat 5 (data.length - 1)).toNat + 1 = data.length := by
  rw [BitVec.toNat_ofNat]; omega

@[simp] theorem markerLevel_markerBits (l : Level) : markerLevel (markerBits (some l)) = some l := by
  cases l <;> rfl

theorem markerLevel_eq_none {m : BitVec 3} (h : 2 ≤ m.toNat) : markerLevel m = none := by
  have h0 : m ≠ 0#3 := by rintro rfl; simp at h
  have h1 : m ≠ Config.level2Marker := by rintro rfl; simp [Config.level2Marker] at h
  simp [markerLevel, h0, h1]

/-! ## Readers -/

/-- The reader answers the bytes `bs` from index `pos` on. -/
def Reads (rd : Nat → Option Byte) : Nat → List Byte → Prop
  | _, [] => True
  | pos, b :: bs => rd pos = some b ∧ Reads rd (pos + 1) bs

theorem reads_cons {rd : Nat → Option Byte} {pos : Nat} {b : Byte} {bs : List Byte} :
    Reads rd pos (b :: bs) ↔ rd pos = some b ∧ Reads rd (pos + 1) bs := Iff.rfl

theorem reads_append {rd : Nat → Option Byte} {pos : Nat} {bs cs : List Byte} :
    Reads rd pos (bs ++ cs) ↔ Reads rd pos bs ∧ Reads rd (pos + bs.length) cs := by
  induction bs generalizing pos with
  | nil => simp [Reads]
  | cons b bs ih =>
    simp only [List.cons_append, reads_cons, ih, List.length_cons, and_assoc]
    rw [show pos + 1 + bs.length = pos + (bs.length + 1) by omega]

theorem reads_getElem? (pre bs rest : List Byte) : Reads (fun i => (pre ++ (bs ++ rest))[i]?) pre.length bs := by
  induction bs generalizing pre with
  | nil => trivial
  | cons b bs ih =>
    have htail := ih (pre ++ [b])
    simp only [List.append_assoc, List.singleton_append, List.length_append, List.length_singleton] at htail
    exact ⟨by simp, htail⟩

theorem takeBytes_of_reads {rd : Nat → Option Byte} {pos : Nat} {bs : List Byte} (h : Reads rd pos bs) :
    takeBytes rd pos bs.length = some bs := by
  induction bs generalizing pos with
  | nil => rfl
  | cons b bs ih =>
    obtain ⟨hb, hbs⟩ := h
    simp [takeBytes, hb, ih hbs]

theorem readChain_of_reads {rd : Nat → Option Byte} {pos n fuel : Nat} {x : Byte} (hx : x ≠ 0xFF#8)
    (h : Reads rd pos (List.replicate n 0xFF#8 ++ [x])) (hfuel : n < fuel) : readChain rd pos fuel = some (n, x) := by
  induction n generalizing pos fuel with
  | zero =>
    obtain ⟨fuel, rfl⟩ := Nat.exists_eq_add_one_of_ne_zero (Nat.ne_of_gt hfuel)
    simp [readChain, h.1, hx]
  | succ n ih =>
    obtain ⟨fuel, rfl⟩ := Nat.exists_eq_add_one_of_ne_zero (Nat.ne_of_gt (Nat.zero_lt_of_lt hfuel))
    rw [List.replicate_succ, List.cons_append, reads_cons] at h
    obtain ⟨hff, hrest⟩ := h
    simp [readChain, hff, ih hrest (Nat.lt_of_succ_lt_succ hfuel)]

/-! ## The cases of the decoder -/

section Cases

variable {rd : Nat → Option Byte} {c : Byte} (fuel : Nat)

theorem decodeToken_first_lit {l : Level} (hc : rd 0 = some c) (hm : markerLevel (ctrlF c) = some l) :
    decodeToken none rd fuel = decodeLit (some l) (ctrlH c) rd := by simp [decodeToken, hc, hm]

theorem decodeToken_first_bad (hc : rd 0 = some c) (hm : markerLevel (ctrlF c) = none) :
    decodeToken none rd fuel = .ok (.lzBadlevel (ctrlF c) (ctrlH c)) := by simp [decodeToken, hc, hm]

theorem decodeToken_later_lit (l : Level) (hc : rd 0 = some c) (hF : ctrlF c = 0#3) :
    decodeToken (some l) rd fuel = decodeLit none (ctrlH c) rd := by simp [decodeToken, hc, hF]

theorem decodeToken_match1 (hc : rd 0 = some c) (hF : ctrlF c ≠ 0#3) :
    decodeToken (some .one) rd fuel = decodeMatch1 (ctrlF c) (ctrlH c) rd := by simp [decodeToken, hc, hF]

theorem decodeToken_match2 (hc : rd 0 = some c) (hF : ctrlF c ≠ 0#3) :
    decodeToken (some .two) rd fuel = decodeMatch2 (ctrlF c) (ctrlH c) rd fuel := by simp [decodeToken, hc, hF]

end Cases

theorem decodeLit_of_reads {rd : Nat → Option Byte} {data : List Byte} (mark : Option Level) (h1 : 1 ≤ data.length)
    (h2 : data.length ≤ 32) (h : Reads rd 1 data) :
    decodeLit mark (BitVec.ofNat 5 (data.length - 1)) rd = .ok (.lit mark data) := by
  simp only [decodeLit, litH_toNat h1 h2, takeBytes_of_reads h]

section Tail

variable {rd : Nat → Option Byte} {pos : Nat} (near : Byte → Instr) (far : BitVec 16 → Instr)

theorem decodeTail2_near {h : BitVec 5} {lo : Byte} (hesc : isEscape h lo = false) (hlo : rd pos = some lo) :
    decodeTail2 h rd pos near far = .ok (near lo) := by simp [decodeTail2, hlo, hesc]

theorem decodeTail2_far {xd : BitVec 16} (h : Reads rd pos (0xFF#8 :: be16Bytes xd)) :
    decodeTail2 31#5 rd pos near far = .ok (far xd) := by
  obtain ⟨hff, hhi, hlo, -⟩ := h
  have hesc : isEscape 31#5 0xFF#8 = true := rfl
  simp [decodeTail2, hff, hesc, hhi, hlo, be16_bytes]

end Tail

theorem wellFormed_lit_iff (mark : Option Level) (data : List Byte) :
    (Instr.lit mark data).wellFormed = true ↔ 1 ≤ data.length ∧ data.length ≤ 32 := by
  simp only [Instr.wellFormed, Bool.and_eq_true, decide_eq_true_eq]
  exact Iff.rfl

theorem shortF_iff (f : BitVec 3) : shortF f = true ↔ f ≠ 0#3 ∧ f ≠ 7#3 := by simp [shortF]

/-! ## Every token -/

/-- A token is read from its bytes, whatever the reader answers beyond them (spec/30_encoding.md R100, R113). -/
theorem decodeToken_of_reads {i : Instr} {ctx : Option Level} {rd : Nat → Option Byte} {fuel : Nat}
    (ht : i.isToken = true) (hw : i.wellFormed = true) (hf : i.fitsContext ctx = true)
    (hrd : Reads rd 0 (tokenBytes i)) (hfuel : tokenSize i ≤ fuel) : decodeToken ctx rd fuel = .ok i := by
  cases i with
  | crc32 | encEcb | encCbc | decEcb | decCbc | ciphBadmode | lzd | clear => cases ht
  | lit mark data =>
    obtain ⟨hc, hdata⟩ := hrd
    obtain ⟨h1, h2⟩ := (wellFormed_lit_iff mark data).mp hw
    cases ctx with
    | none =>
      obtain ⟨l, rfl⟩ : ∃ l, mark = some l := Option.isSome_iff_exists.mp (by simpa [Instr.fitsContext] using hf)
      rw [decodeToken_first_lit (l := l) fuel hc (by simp), ctrlH_ctrlByte, decodeLit_of_reads _ h1 h2 hdata]
    | some l =>
      obtain rfl : mark = none := by simpa [Instr.fitsContext] using hf
      rw [decodeToken_later_lit fuel l hc (ctrlF_ctrlByte _ _), ctrlH_ctrlByte, decodeLit_of_reads _ h1 h2 hdata]
  | match1S f h lo =>
    obtain ⟨hc, hlo, -⟩ := hrd
    obtain ⟨h0, h7⟩ := (shortF_iff f).mp hw
    obtain rfl : ctx = some .one := by simpa [Instr.fitsContext] using hf
    rw [decodeToken_match1 fuel hc (by simpa using h0)]
    simp [decodeMatch1, h7, hlo]
  | match1L h x lo =>
    obtain ⟨hc, hx, hlo, -⟩ := hrd
    obtain rfl : ctx = some .one := by simpa [Instr.fitsContext] using hf
    rw [decodeToken_match1 fuel hc (by simp)]
    simp [decodeMatch1, hx, hlo]
  | match2S f h lo =>
    obtain ⟨hc, hlo, -⟩ := hrd
    simp only [Instr.wellFormed, Bool.and_eq_true, Bool.not_eq_true', shortF_iff] at hw
    obtain ⟨⟨h0, h7⟩, hesc⟩ := hw
    obtain rfl : ctx = some .two := by simpa [Instr.fitsContext] using hf
    rw [decodeToken_match2 fuel hc (by simpa using h0)]
    simp [decodeMatch2, h7, decodeTail2_near _ _ hesc hlo]
  | match2L h n x lo =>
    obtain ⟨hc, hrest⟩ := hrd
    rw [show [x, lo] = [x] ++ [lo] from rfl, ← List.append_assoc, reads_append] at hrest
    obtain ⟨hchain, hlo, -⟩ := hrest
    simp only [Instr.wellFormed, Bool.and_eq_true, Bool.not_eq_true', bne_iff_ne] at hw
    obtain ⟨hx, hesc⟩ := hw
    obtain rfl : ctx = some .two := by simpa [Instr.fitsContext] using hf
    have hn : n < fuel := by simp only [tokenSize] at hfuel; omega
    have hpos : rd (n + 2) = some lo := by
      simpa [show 0 + 1 + (n + 1) = n + 2 by omega] using hlo
    rw [decodeToken_match2 fuel hc (by simp)]
    simp [decodeMatch2, readChain_of_reads hx hchain hn, decodeTail2_near _ _ hesc hpos]
  | match2SF f xd =>
    obtain ⟨hc, htail⟩ := hrd
    obtain ⟨h0, h7⟩ := (shortF_iff f).mp hw
    obtain rfl : ctx = some .two := by simpa [Instr.fitsContext] using hf
    rw [decodeToken_match2 fuel hc (by simpa using h0)]
    simp [decodeMatch2, h7, decodeTail2_far _ _ htail]
  | match2LF n x xd =>
    obtain ⟨hc, hrest⟩ := hrd
    rw [← List.singleton_append (x := x), ← List.append_assoc, reads_append] at hrest
    obtain ⟨hchain, htail⟩ := hrest
    have hx : x ≠ 0xFF#8 := by simpa [Instr.wellFormed] using hw
    obtain rfl : ctx = some .two := by simpa [Instr.fitsContext] using hf
    have hn : n < fuel := by simp only [tokenSize] at hfuel; omega
    have hpos : Reads rd (n + 2) (0xFF#8 :: be16Bytes xd) := by
      simpa [show 0 + 1 + (n + 1) = n + 2 by omega] using htail
    rw [decodeToken_match2 fuel hc (by simp)]
    simp [decodeMatch2, readChain_of_reads hx hchain hn, decodeTail2_far _ _ hpos]
  | lzBadlevel m h =>
    obtain ⟨hc, -⟩ := hrd
    obtain rfl : ctx = none := by simpa [Instr.fitsContext] using hf
    have hm : markerLevel m = none := markerLevel_eq_none (by simpa [Instr.wellFormed] using hw)
    rw [decodeToken_first_bad fuel hc (by simpa using hm), ctrlF_ctrlByte, ctrlH_ctrlByte]

/-- A token is known by its own bytes, whatever follows it in the stream. -/
theorem decode_tokenBytes_append {i : Instr} {ctx : Option Level} (rest : List Byte) (ht : i.isToken = true)
    (hw : i.wellFormed = true) (hf : i.fitsContext ctx = true) :
    decode ctx (.stream (tokenBytes i ++ rest)) = .ok i :=
  decodeToken_of_reads ht hw hf (reads_getElem? [] (tokenBytes i) rest) (by simp)

end Sys2Proof
end

section
/-! The LZ decompressor (spec/44_lz_decompressor.md): the turns of its main loop, what a token does to the output as
bytes and as memory, and the decoding of a whole stream. -/

namespace Sys2Proof

namespace Machine

/-! ## The completion step of LZD and the turns of its loop -/

theorem exec_lzd_complete (s : State) : exec (.lzd .complete) s = completeLzd s := rfl

theorem lzdReady_iff (s : State) :
    lzdReady s = true ↔ unitBusy s .lzd = true ∧ spanInMemory s.memSize (lzdClaim s).rd = true ∧
      spanInMemory s.memSize (lzdClaim s).wr = true ∧ spansMeet (lzdClaim s).rd (lzdClaim s).wr = false ∧
      unitClash s .lzd = false := by
  simp [lzdReady, and_assoc]

/-- Once the checks have passed, the completion step is the loop from the fresh working state. -/
theorem exec_lzd_of_ready {s : State} (h : lzdReady s = true) :
    exec (.lzd .complete) s = lzdLoop (s.lzd.len.toNat + 1) (withRun freshRun s) := by
  obtain ⟨hb, hrd, hwr, hmeet, hclash⟩ := (lzdReady_iff s).mp h
  simp [exec_lzd_complete, completeLzd, hb, hrd, hwr, hmeet, hclash]

theorem lzdLoop_of_end {s t : State} (n : Nat) (h : lzdTick s = .next t) (ht : t.lzd.run = none) :
    lzdLoop (n + 1) s = .next t := by simp [lzdLoop, h, ht]

theorem lzdLoop_of_continue {s t : State} {r : LzRun} (n : Nat) (h : lzdTick s = .next t) (ht : t.lzd.run = some r) :
    lzdLoop (n + 1) s = lzdLoop n t := by simp [lzdLoop, h, ht]

/-- An error with a decompression under way, as the spec words it (spec/44_lz_decompressor.md R249). -/
theorem raiseError_eq_lzdFailed {s : State} {r : LzRun} (h : s.lzd.run = some r) (c : Cause) :
    raiseError .lzd c s = lzdFailed c r s := by simp [raiseError, h, lzdFailed]

section Ticks

variable {s : State} {r : LzRun} (hr : s.lzd.run = some r)

include hr

theorem lzdTick_of_complete (hop : s.lzd.expLen.toNat ≤ r.op) : lzdTick s = .next (lzdDone r s) := by
  simp [lzdTick, hr, hop]

theorem lzdTick_of_no_input (hop : r.op < s.lzd.expLen.toNat) (hip : s.lzd.len.toNat ≤ r.ip) :
    lzdTick s = .next (lzdFailed .lzShort r s) := by
  simp [lzdTick, hr, Nat.not_le.mpr hop, hip, raiseError_eq_lzdFailed hr]

theorem lzdTick_of_token {i : Instr} (hop : r.op < s.lzd.expLen.toNat) (hip : r.ip < s.lzd.len.toNat)
    (hf : fetchToken s r = .ok i) : lzdTick s = runToken i s := by
  simp [lzdTick, hr, Nat.not_le.mpr hop, Nat.not_le.mpr hip, hf]

end Ticks

/-- The loop runs a token as `exec` does. -/
theorem runToken_eq_exec {i : Instr} (h : i.isToken = true) (s : State) : runToken i s = exec i s := by
  cases i with
  | crc32 | encEcb | encCbc | decEcb | decCbc | ciphBadmode | lzd | clear => cases h
  | lit | match1S | match1L | match2S | match2L | match2SF | match2LF | lzBadlevel => rfl

theorem exec_lzBadlevel {s : State} {r : LzRun} (hr : s.lzd.run = some r) (m : BitVec 3) (h : BitVec 5) :
    exec (.lzBadlevel m h) s = .next (lzdFailed .lzLevel r s) := by
  have harm : exec (.lzBadlevel m h) s = execLzBadlevel m h s := rfl
  simp [harm, execLzBadlevel, hr, raiseError_eq_lzdFailed hr]

/-! ## Decompressions that end before a token -/

/-- Settles O28: the first turn finds the output complete. -/
theorem noOutputWantedSucceeds : Obligations.NoOutputWantedSucceeds := by
  intro s hready hE
  have htick : lzdTick (withRun freshRun s) = .next (lzdDone freshRun (withRun freshRun s)) :=
    lzdTick_of_complete rfl (by simp [hE])
  rw [exec_lzd_of_ready hready, lzdLoop_of_end _ htick rfl]
  rfl

/-- Settles O29: the first turn finds the input used up. -/
theorem noInputIsShort : Obligations.NoInputIsShort := by
  intro s hready hN hE
  have hpos : 0 < s.lzd.expLen.toNat := Nat.pos_of_ne_zero fun h => hE (BitVec.eq_of_toNat_eq h)
  have htick : lzdTick (withRun freshRun s) = .next (lzdFailed .lzShort freshRun (withRun freshRun s)) :=
    lzdTick_of_no_input rfl hpos (by simp [hN])
  rw [exec_lzd_of_ready hready, lzdLoop_of_end _ htick rfl]
  rfl

/-- The first token of a stream whose marker names no level. -/
theorem fetchToken_bad_marker {s : State} (hN : 0 < s.lzd.len.toNat)
    (hm : 2 ≤ (ctrlF (memGet s.mem s.lzd.src.toNat)).toNat) :
    fetchToken s freshRun = .ok (.lzBadlevel (ctrlF (memGet s.mem s.lzd.src.toNat))
      (ctrlH (memGet s.mem s.lzd.src.toNat))) :=
  decodeToken_first_bad _ (by simp [srcByte, freshRun, hN]) (markerLevel_eq_none hm)

/-- Settles O27: the first turn runs the reserved first byte. -/
theorem badMarkerEndsWithLzLevel : Obligations.BadMarkerEndsWithLzLevel := by
  refine ⟨fun s r m h hr => exec_lzBadlevel hr m h, fun s hready hE hN hm => ?command, by decide⟩
  case command =>
    have htick : lzdTick (withRun freshRun s) = .next (lzdFailed .lzLevel freshRun (withRun freshRun s)) := by
      rw [lzdTick_of_token rfl hE hN (fetchToken_bad_marker (s := withRun freshRun s) hN hm), runToken_eq_exec rfl]
      exact exec_lzBadlevel rfl _ _
    rw [exec_lzd_of_ready hready, lzdLoop_of_end _ htick rfl]
    rfl

/-! ## Matches -/

theorem trueLength_eq (lv : Nat) : trueLength lv = lv + 2 := rfl

theorem trueDistance_eq (dv : Nat) : trueDistance dv = dv + 1 := rfl

/-- The six match forms differ in their size and the pair they store only. -/
theorem exec_match {i : Instr} {lv dv : Nat} (hi : storedPair i = some (lv, dv)) (s : State) :
    exec i s = runMatch (tokenSize i) lv dv s := by
  cases i with
  | crc32 | encEcb | encCbc | decEcb | decCbc | ciphBadmode | lzd | clear | lit | lzBadlevel => cases hi
  | match1S | match1L | match2S | match2L | match2SF | match2LF => cases hi; rfl

theorem runMatch_of_fits {s : State} {r : LzRun} {size lv dv : Nat} (hr : s.lzd.run = some r)
    (hin : r.ip + size ≤ s.lzd.len.toNat) (hout : r.op + (lv + 2) ≤ s.lzd.expLen.toNat) (hdist : dv + 1 ≤ r.op) :
    runMatch size lv dv s = .next (matchDone r size (lv + 2) (dv + 1) s) := by
  simp only [runMatch, hr, trueLength_eq, trueDistance_eq, Nat.not_lt.mpr hin, Nat.not_lt.mpr hout,
    Nat.not_lt.mpr hdist, if_false]

/-- The serial copy repeats the last `dist` bytes: byte `k` of the copy is byte `k % dist` of them
(spec/44_lz_decompressor.md R241). -/
theorem memGet_copyMatch {dist n k : Nat} {m : List Host.Cell} {a : Nat} (hm : memWf m = true) (hd : 0 < dist)
    (ha : dist ≤ a) (hk : k < n) : memGet (copyMatch dist a n m) (a + k) = memGet m (a - dist + k % dist) := by
  induction n generalizing m a k with
  | zero => omega
  | succ n ih =>
    rw [copyMatch]
    set v := memGet m (a - dist) with hv
    have hm' : memWf (memPut m a v) = true := memWf_memPut hm a v
    cases k with
    | zero =>
      rw [memGet_copyMatch_outside hm' (by omega), Nat.add_zero, memGet_memPut_self hm, Nat.zero_mod, Nat.add_zero]
    | succ k =>
      rw [show a + (k + 1) = a + 1 + k by omega, ih hm' (by omega) (by omega)]
      have hlt : k % dist < dist := Nat.mod_lt k hd
      by_cases hwrap : k % dist + 1 = dist
      · have hmod : (k + 1) % dist = 0 := by rw [← Nat.mod_add_mod, hwrap, Nat.mod_self]
        rw [hmod, show a + 1 - dist + k % dist = a by omega, memGet_memPut_self hm, Nat.add_zero]
      · have hmod : (k + 1) % dist = k % dist + 1 := by
          rw [← Nat.mod_add_mod, Nat.mod_eq_of_lt (by omega)]
        rw [hmod, memGet_memPut_ne _ _ (by omega), show a + 1 - dist + k % dist = a - dist + (k % dist + 1) by omega]

/-- Settles O24: every form is `runMatch`, whose copy is `memGet_copyMatch`. -/
theorem matchRepeatsEarlierOutput : Obligations.MatchRepeatsEarlierOutput := by
  intro s r i lv dv hi hm hr hin hout hdist
  refine ⟨matchDone r (tokenSize i) (lv + 2) (dv + 1) s, ?runs, fun k hk => ?copied, fun a ha => ?kept, rfl, rfl⟩
  case runs => rw [exec_match hi, runMatch_of_fits hr hin hout hdist]
  case copied => exact memGet_copyMatch hm (Nat.succ_pos dv) (by omega) hk
  case kept => exact memGet_copyMatch_outside hm ((spanHas_false_iff _ _).mp ha)

/-! ## Byte sequences in memory -/

theorem memRead_drop (m : List Host.Cell) (a n k : Nat) : (memRead m a n).drop k = memRead m (a + k) (n - k) := by
  apply List.ext_getElem?
  intro i
  rw [List.getElem?_drop, memRead_getElem?, memRead_getElem?, Nat.add_assoc]
  exact if_congr (by omega) rfl rfl

theorem memRead_succ (m : List Host.Cell) (a n : Nat) : memRead m a (n + 1) = memRead m a n ++ [memGet m (a + n)] := by
  induction n generalizing a with
  | zero => rfl
  | succ n ih => rw [memRead, ih (a + 1), memRead, List.cons_append, show a + 1 + n = a + (n + 1) by omega]

/-! ## Tokens as bytes -/

/-- What a token that means something is: a literal run that appends its bytes, or a match that refers to earlier
output and appends its copy. -/
theorem tokenOut_eq_some {i : Instr} {out out' : List Byte} (h : tokenOut i out = some out') :
    (∃ mark data, i = .lit mark data ∧ out' = out ++ data) ∨
      ∃ lv dv, storedPair i = some (lv, dv) ∧ dv + 1 ≤ out.length ∧ out' = copyOut (dv + 1) (lv + 2) out := by
  unfold tokenOut at h
  split at h
  · exact .inl ⟨_, _, rfl, (Option.some.inj h).symm⟩
  · split at h
    · cases h
    · rename_i lv dv hpair
      rw [trueDistance_eq, trueLength_eq] at h
      split at h
      · cases h
      · exact .inr ⟨lv, dv, hpair, by omega, (Option.some.inj h).symm⟩

@[simp] theorem copyOut_length (dist n : Nat) (out : List Byte) : (copyOut dist n out).length = out.length + n := by
  induction n generalizing out with
  | zero => rfl
  | succ n ih => rw [copyOut, ih, List.length_append, List.length_singleton, Nat.add_assoc, Nat.add_comm 1]

/-- Every token produces output. -/
theorem length_lt_of_tokenOut {i : Instr} {out out' : List Byte} (hw : i.wellFormed = true)
    (h : tokenOut i out = some out') : out.length < out'.length := by
  obtain ⟨mark, data, rfl, rfl⟩ | ⟨lv, dv, -, -, rfl⟩ := tokenOut_eq_some h
  · obtain ⟨hdata, -⟩ := (wellFormed_lit_iff mark data).mp hw
    rw [List.length_append]; omega
  · rw [copyOut_length]; omega

theorem streamOut_cons {i : Instr} {is : List Instr} {out final : List Byte} (h : streamOut (i :: is) out = some final) :
    ∃ out', tokenOut i out = some out' ∧ streamOut is out' = some final := by
  rw [streamOut] at h
  split at h
  · cases h
  · exact ⟨_, by assumption, h⟩

theorem length_le_of_streamOut {toks : List Instr} {out final : List Byte} (hw : ∀ i ∈ toks, i.wellFormed = true)
    (h : streamOut toks out = some final) : out.length ≤ final.length := by
  induction toks generalizing out with
  | nil => rw [Option.some.inj h]
  | cons i is ih =>
    obtain ⟨out', hout, hrest⟩ := streamOut_cons h
    have hlt := length_lt_of_tokenOut (hw i List.mem_cons_self) hout
    have hle := ih (fun j hj => hw j (List.mem_cons_of_mem i hj)) hrest
    omega

theorem laterToken_iff (l : Level) (i : Instr) :
    laterToken l i = true ↔ i.isToken = true ∧ i.wellFormed = true ∧ i.fitsContext (some l) = true := by
  simp [laterToken, and_assoc]

theorem wellFormed_of_laterToken {l : Level} {i : Instr} (h : laterToken l i = true) : i.wellFormed = true := by
  obtain ⟨-, hw, -⟩ := (laterToken_iff l i).mp h
  exact hw

/-- A stream is a literal run with the marker of its level, then later tokens. -/
theorem goodStream_cases {l : Level} {toks : List Instr} (h : goodStream l toks = true) :
    ∃ data rest, toks = .lit (some l) data :: rest ∧ (Instr.lit (some l) data).wellFormed = true ∧
      ∀ i ∈ rest, laterToken l i = true := by
  unfold goodStream at h
  split at h
  · simp only [Bool.and_eq_true, decide_eq_true_eq, List.all_eq_true] at h
    obtain ⟨⟨rfl, hlit⟩, hrest⟩ := h
    exact ⟨_, _, rfl, hlit, hrest⟩
  · cases h

/-! ## Tokens as memory -/

/-- Memory `m` while LZD decompresses: it holds the output `out`, and what lies outside the output range is as in `s`. -/
structure HoldsOutput (s : State) (out : List Byte) (m : List Host.Cell) : Prop where
  wf : memWf m = true
  out_eq : memRead m s.lzd.dst.toNat out.length = out
  same : sameOutside (lzdClaim s).wr s.mem m

theorem holdsOutput_nil {s : State} (hm : memWf s.mem = true) : HoldsOutput s [] s.mem := ⟨hm, rfl, fun _ _ => rfl⟩

namespace HoldsOutput

variable {s : State} {out : List Byte} {m : List Host.Cell}

/-- The byte `dist` before the end of the output. -/
theorem memGet_back (h : HoldsOutput s out m) {dist : Nat} (hd : 0 < dist) (hle : dist ≤ out.length) :
    memGet m (s.lzd.dst.toNat + out.length - dist) = out.getD (out.length - dist) 0 := by
  have hread := memRead_getElem? m s.lzd.dst.toNat out.length (out.length - dist)
  rw [h.out_eq, if_pos (by omega), ← Nat.add_sub_assoc hle] at hread
  rw [List.getD_eq_getElem?_getD, hread, Option.getD_some]

/-- One more byte of output. -/
theorem put (h : HoldsOutput s out m) (hlen : out.length < s.lzd.expLen.toNat) (v : Byte) :
    HoldsOutput s (out ++ [v]) (memPut m (s.lzd.dst.toNat + out.length) v) where
  wf := memWf_memPut h.wf _ v
  out_eq := by
    rw [List.length_append, List.length_singleton, memRead_succ, memGet_memPut_self h.wf,
      memRead_congr (m' := m) fun b _ _ => memGet_memPut_ne m v (by omega), h.out_eq]
  same := fun a ha => by
    have hout := (spanHas_false_iff _ _).mp ha
    simp only [lzdClaim, spanOf_base, spanOf_len] at hout
    rw [memGet_memPut_ne m v (by omega), h.same a ha]

theorem write (h : HoldsOutput s out m) {data : List Byte} (hlen : out.length + data.length ≤ s.lzd.expLen.toNat) :
    HoldsOutput s (out ++ data) (memWrite m (s.lzd.dst.toNat + out.length) data) := by
  induction data generalizing out m with
  | nil => rwa [List.append_nil]
  | cons v vs ih =>
    rw [List.length_cons] at hlen
    have htail := ih (h.put (by omega) v) (by rw [List.length_append, List.length_singleton]; omega)
    rwa [List.append_assoc, List.length_append] at htail

theorem copy (h : HoldsOutput s out m) {dist n : Nat} (hd : 0 < dist) (hle : dist ≤ out.length)
    (hlen : out.length + n ≤ s.lzd.expLen.toNat) :
    HoldsOutput s (copyOut dist n out) (copyMatch dist (s.lzd.dst.toNat + out.length) n m) := by
  induction n generalizing out m with
  | zero => exact h
  | succ n ih =>
    rw [copyOut, copyMatch, h.memGet_back hd hle]
    have htail := ih (h.put (by omega) (out.getD (out.length - dist) 0))
      (by rw [List.length_append]; omega) (by rw [List.length_append, List.length_singleton]; omega)
    rwa [List.length_append] at htail

/-- The input is not written: the address checks keep it apart from the output range. -/
theorem input_eq (h : HoldsOutput s out m) (hready : lzdReady s = true) {k : Nat} :
    memRead m (s.lzd.src.toNat + k) (s.lzd.len.toNat - k) =
      memRead s.mem (s.lzd.src.toNat + k) (s.lzd.len.toNat - k) := by
  obtain ⟨-, -, -, hmeet, -⟩ := (lzdReady_iff s).mp hready
  refine memRead_congr fun a hlo hhi => h.same a (eq_false_of_ne_true fun hwr => ?_)
  have hrd : spanHas (lzdClaim s).rd a = true := by
    rw [spanHas_iff]
    simp only [lzdClaim, spanOf_base, spanOf_len]
    omega
  exact absurd (spansMeet_of_spanHas hrd hwr) (ne_true_of_eq_false hmeet)

end HoldsOutput

/-! ## One token of a stream -/

/-- `s` while LZD decompresses, with working state `r` and memory `m`. -/
def midRun (s : State) (r : LzRun) (m : List Host.Cell) : State := withRun r { s with mem := m }

@[simp] theorem midRun_lzd (s : State) (r : LzRun) (m : List Host.Cell) :
    (midRun s r m).lzd = { s.lzd with run := some r } := rfl

/-- The working state between the tokens of a stream of level `l`, after the first. -/
def laterRun (l : Level) (ip op : Nat) : LzRun := { ip := ip, op := op, level := some l, first := false }

/-- The level a token's marker sets. -/
def tokenMark : Instr → Option Level
  | .lit mark _ => mark
  | _ => none

@[simp] theorem tokenMark_lit (mark : Option Level) (data : List Byte) : tokenMark (.lit mark data) = mark := rfl

/-- The input from stream index `ip` on. -/
def inputFrom (s : State) (ip : Nat) : List Byte := memRead s.mem (s.lzd.src.toNat + ip) (s.lzd.len.toNat - ip)

theorem inputFrom_length (s : State) (ip : Nat) : (inputFrom s ip).length = s.lzd.len.toNat - ip := memRead_length _ _ _

theorem inputFrom_add {s : State} {ip : Nat} {bs rest : List Byte} (h : inputFrom s ip = bs ++ rest) :
    inputFrom s (ip + bs.length) = rest := by
  rw [inputFrom, ← Nat.add_assoc, Nat.sub_add_eq, ← memRead_drop, ← inputFrom, h, List.drop_left]

/-- A fetch decodes the input that is left. -/
theorem fetchToken_midRun {s : State} {r : LzRun} {out : List Byte} {m : List Host.Cell} (hready : lzdReady s = true)
    (h : HoldsOutput s out m) : fetchToken (midRun s r m) r = decode (runContext r) (.stream (inputFrom s r.ip)) := by
  have hsrc : srcByte (midRun s r m) r = fun j => (inputFrom s r.ip)[j]? := by
    funext j
    rw [inputFrom, ← h.input_eq hready, memRead_getElem?]
    exact if_congr (by simp only [midRun_lzd]; omega) rfl rfl
  rw [fetchToken, hsrc, decode, inputFrom_length]
  rfl

theorem execLit_of_fits {s : State} {r : LzRun} {data : List Byte} (mark : Option Level) (hr : s.lzd.run = some r)
    (hin : r.ip + (1 + data.length) ≤ s.lzd.len.toNat) (hout : r.op + data.length ≤ s.lzd.expLen.toNat) :
    execLit mark data s = .next (litDone (marked mark r) data s) := by
  simp [execLit, hr, Nat.not_lt.mpr hin, Nat.not_lt.mpr hout]

theorem advance_eq_laterRun {l : Level} {r : LzRun} (h : r.level = some l) (size n : Nat) :
    advance r size n = laterRun l (r.ip + size) (r.op + n) := by simp [advance, laterRun, h]

theorem litDone_midRun (r r' : LzRun) (data : List Byte) (s : State) (m : List Host.Cell) :
    litDone r' data (midRun s r m) = midRun s (advance r' (1 + data.length) data.length)
      (memWrite m (s.lzd.dst.toNat + r'.op) data) := rfl

theorem matchDone_midRun (r r' : LzRun) (size length dist : Nat) (s : State) (m : List Host.Cell) :
    matchDone r' size length dist (midRun s r m) = midRun s (advance r' size length)
      (copyMatch dist (s.lzd.dst.toNat + r'.op) length m) := rfl

theorem tokenMark_of_storedPair {i : Instr} {p : Nat × Nat} (h : storedPair i = some p) : tokenMark i = none := by
  cases i with
  | lit => cases h
  | _ => rfl

/-- The machine's token and the token on bytes: `exec` writes what `tokenOut` means and moves both cursors. -/
theorem exec_token {s : State} {r : LzRun} {i : Instr} {out out' : List Byte} {m : List Host.Cell} {l : Level}
    (h : HoldsOutput s out m) (hop : r.op = out.length) (hlevel : (marked (tokenMark i) r).level = some l)
    (hout : tokenOut i out = some out') (hin : r.ip + tokenSize i ≤ s.lzd.len.toNat)
    (hE : out'.length ≤ s.lzd.expLen.toNat) :
    ∃ m', exec i (midRun s r m) = .next (midRun s (laterRun l (r.ip + tokenSize i) out'.length) m') ∧
      HoldsOutput s out' m' := by
  obtain ⟨mark, data, rfl, rfl⟩ | ⟨lv, dv, hpair, hdist, rfl⟩ := tokenOut_eq_some hout
  · rw [List.length_append] at hE
    refine ⟨_, ?_, h.write hE⟩
    have hexec : exec (.lit mark data) (midRun s r m) = .next (litDone (marked mark r) data (midRun s r m)) :=
      execLit_of_fits (s := midRun s r m) mark rfl hin (by rw [hop]; exact hE)
    rw [tokenMark_lit] at hlevel
    rw [hexec, litDone_midRun, advance_eq_laterRun hlevel, marked_ip, marked_op, hop, List.length_append]
    rfl
  · rw [copyOut_length] at hE
    refine ⟨_, ?_, h.copy (Nat.succ_pos dv) hdist hE⟩
    have hexec : exec i (midRun s r m) = .next (matchDone r (tokenSize i) (lv + 2) (dv + 1) (midRun s r m)) := by
      rw [exec_match hpair]
      exact runMatch_of_fits rfl hin (by rw [hop]; exact hE) (by rw [hop]; exact hdist)
    rw [tokenMark_of_storedPair hpair, marked_none] at hlevel
    rw [hexec, matchDone_midRun, advance_eq_laterRun hlevel, hop, copyOut_length]

/-- One turn of the loop at a token that fits its place. -/
theorem lzdTick_midRun {s : State} {r : LzRun} {i : Instr} {out out' rest : List Byte} {m : List Host.Cell} {l : Level}
    (hready : lzdReady s = true) (h : HoldsOutput s out m) (hop : r.op = out.length)
    (hinput : inputFrom s r.ip = tokenBytes i ++ rest) (ht : i.isToken = true) (hw : i.wellFormed = true)
    (hfit : i.fitsContext (runContext r) = true) (hlevel : (marked (tokenMark i) r).level = some l)
    (hout : tokenOut i out = some out') (hE : out'.length ≤ s.lzd.expLen.toNat) :
    ∃ m', lzdTick (midRun s r m) = .next (midRun s (laterRun l (r.ip + tokenSize i) out'.length) m') ∧
      HoldsOutput s out' m' := by
  have hsize : 0 < tokenSize i := tokenSize_pos ht hw
  have hlt : out.length < out'.length := length_lt_of_tokenOut hw hout
  have hleft : s.lzd.len.toNat - r.ip = tokenSize i + rest.length := by
    rw [← inputFrom_length, hinput, List.length_append, tokenBytes_length]
  have hfetch : fetchToken (midRun s r m) r = .ok i := by
    rw [fetchToken_midRun hready h, hinput, decode_tokenBytes_append rest ht hw hfit]
  have htick : lzdTick (midRun s r m) = exec i (midRun s r m) := by
    rw [lzdTick_of_token (r := r) rfl (by simp only [midRun_lzd]; omega) (by simp only [midRun_lzd]; omega) hfetch,
      runToken_eq_exec ht]
  rw [htick]
  exact exec_token h hop hlevel hout (by omega) hE

/-! ## A whole stream -/

/-- A token after the first carries no marker, so it leaves the level. -/
theorem tokenMark_of_laterToken {l : Level} {i : Instr} (h : laterToken l i = true) : tokenMark i = none := by
  obtain ⟨-, -, hfit⟩ := (laterToken_iff l i).mp h
  cases i with
  | lit => simpa [Instr.fitsContext] using hfit
  | _ => rfl

/-- `s` after LZD has decoded a stream of level `l` and `used` bytes to `n` bytes of output, with memory `m`. -/
def decoded (s : State) (l : Level) (used n : Nat) (m : List Host.Cell) : State :=
  lzdDone (laterRun l used n) { s with mem := m }

/-- The loop from a token boundary after the first token on: it runs the tokens that are left and succeeds. -/
theorem lzdLoop_laterTokens {s : State} {l : Level} {toks : List Instr} {ip fuel : Nat} {out final trailing : List Byte}
    {m : List Host.Cell} (hready : lzdReady s = true) (h : HoldsOutput s out m)
    (hinput : inputFrom s ip = toks.flatMap tokenBytes ++ trailing) (htoks : ∀ i ∈ toks, laterToken l i = true)
    (hout : streamOut toks out = some final) (hE : final.length = s.lzd.expLen.toNat) (hfuel : toks.length < fuel) :
    ∃ m', lzdLoop fuel (midRun s (laterRun l ip out.length) m) =
        .next (decoded s l (ip + (toks.flatMap tokenBytes).length) final.length m') ∧ HoldsOutput s final m' := by
  induction toks generalizing ip fuel out m with
  | nil =>
    obtain ⟨fuel, rfl⟩ := Nat.exists_eq_add_one_of_ne_zero (Nat.ne_of_gt hfuel)
    obtain rfl : out = final := Option.some.inj hout
    have htick := lzdTick_of_complete (s := midRun s (laterRun l ip out.length) m) rfl hE.ge
    exact ⟨m, lzdLoop_of_end fuel htick rfl, h⟩
  | cons i is ih =>
    obtain ⟨fuel, rfl⟩ := Nat.exists_eq_add_one_of_ne_zero (Nat.ne_of_gt (Nat.zero_lt_of_lt hfuel))
    have hi : laterToken l i = true := htoks i List.mem_cons_self
    have his : ∀ j ∈ is, laterToken l j = true := fun j hj => htoks j (List.mem_cons_of_mem i hj)
    obtain ⟨ht, hw, hfit⟩ := (laterToken_iff l i).mp hi
    obtain ⟨out', hout', hrest⟩ := streamOut_cons hout
    have hle : out'.length ≤ final.length :=
      length_le_of_streamOut (fun j hj => wellFormed_of_laterToken (his j hj)) hrest
    rw [List.flatMap_cons, List.append_assoc] at hinput
    obtain ⟨m₁, htick, h₁⟩ := lzdTick_midRun (r := laterRun l ip out.length) hready h rfl hinput ht hw hfit
      (by rw [tokenMark_of_laterToken hi]; rfl) hout' (hE ▸ hle)
    have hinput₁ := inputFrom_add hinput
    rw [tokenBytes_length] at hinput₁
    obtain ⟨m', hloop, h'⟩ := ih h₁ hinput₁ his hrest (Nat.lt_of_succ_lt_succ hfuel)
    refine ⟨m', ?_, h'⟩
    rw [lzdLoop_of_continue fuel htick rfl, List.flatMap_cons, List.length_append, tokenBytes_length, ← Nat.add_assoc]
    exact hloop

/-- A stream has at most one token for each of its bytes. -/
theorem length_le_flatMap_tokenBytes {toks : List Instr} (h : ∀ i ∈ toks, 0 < tokenSize i) :
    toks.length ≤ (toks.flatMap tokenBytes).length := by
  induction toks with
  | nil => exact Nat.le_refl 0
  | cons i is ih =>
    have hi := h i List.mem_cons_self
    have his := ih fun j hj => h j (List.mem_cons_of_mem i hj)
    rw [List.flatMap_cons, List.length_append, tokenBytes_length, List.length_cons]
    omega

/-- The whole command on a stream: its marked literal run first, then the tokens after it. -/
theorem exec_lzd_of_stream {s : State} {l : Level} {toks : List Instr} {out trailing : List Byte}
    (hm : memWf s.mem = true) (hready : lzdReady s = true) (hgood : goodStream l toks = true)
    (hout : streamOut toks [] = some out) (hinput : inputFrom s 0 = toks.flatMap tokenBytes ++ trailing)
    (hE : out.length = s.lzd.expLen.toNat) :
    ∃ m', exec (.lzd .complete) s = .next (decoded s l (toks.flatMap tokenBytes).length out.length m') ∧
      HoldsOutput s out m' := by
  obtain ⟨data, rest, rfl, hw, hrest⟩ := goodStream_cases hgood
  have hpos : ∀ i ∈ rest, 0 < tokenSize i := fun i hi => by
    obtain ⟨ht, hw, -⟩ := (laterToken_iff l i).mp (hrest i hi)
    exact tokenSize_pos ht hw
  have hfuel : rest.length < s.lzd.len.toNat := by
    have hlen := congrArg List.length hinput
    have hle := length_le_flatMap_tokenBytes hpos
    have hfirst : 0 < tokenSize (.lit (some l) data) := tokenSize_pos rfl hw
    rw [inputFrom_length, List.flatMap_cons, List.length_append, List.length_append, tokenBytes_length] at hlen
    omega
  obtain ⟨out₁, hout₁, hout⟩ := streamOut_cons hout
  have hle : out₁.length ≤ out.length :=
    length_le_of_streamOut (fun j hj => wellFormed_of_laterToken (hrest j hj)) hout
  rw [List.flatMap_cons, List.append_assoc] at hinput
  obtain ⟨m₁, htick, h₁⟩ := lzdTick_midRun (r := freshRun) hready (holdsOutput_nil hm) rfl hinput rfl hw rfl rfl hout₁
    (hE ▸ hle)
  have hinput₁ := inputFrom_add hinput
  rw [tokenBytes_length] at hinput₁
  obtain ⟨m', hloop, h'⟩ := lzdLoop_laterTokens hready h₁ hinput₁ hrest hout hE hfuel
  refine ⟨m', ?_, h'⟩
  rw [exec_lzd_of_ready hready, List.flatMap_cons, List.length_append, tokenBytes_length,
    ← Nat.zero_add (tokenSize _)]
  exact (lzdLoop_of_continue _ htick rfl).trans hloop

/-- Settles O34: the loop runs the stream's tokens one by one, each doing to memory what it means on bytes. -/
theorem lzdDecodesEveryStream : Obligations.LzdDecodesEveryStream := by
  refine ⟨fun s hready hE => ⟨_, noOutputWantedSucceeds s hready hE, rfl, rfl, rfl, rfl⟩, ?stream⟩
  case stream =>
    intro s l toks out trailing hm hready hgood hout hinput hE
    obtain ⟨m', hexec, h⟩ := exec_lzd_of_stream hm hready hgood hout hinput hE
    refine ⟨_, hexec, hE ▸ h.out_eq, rfl, ?outLen, ?inUsed, h.same, rfl, rfl, rfl, rfl, rfl, rfl⟩
    case outLen =>
      apply BitVec.eq_of_toNat_eq
      simp [decoded, laterRun, hE]
    case inUsed =>
      have hlen := congrArg List.length hinput
      rw [memRead_length, List.length_append] at hlen
      have hlt : (toks.flatMap tokenBytes).length < 2 ^ 32 := by omega
      exact (BitVec.toNat_ofNat _ _).trans (Nat.mod_eq_of_lt hlt)

end Machine

end Sys2Proof
end

section
/-! The checksum (spec/41_crc32.md R160): a byte step loses nothing of the accumulator and nothing of the byte, so one
changed byte is never made up for. -/

namespace Sys2Proof

namespace Machine

/-! ## The byte step is injective -/

/-- A bit step takes no word but 0 to 0: the polynomial sets bit 31, which the shift clears. -/
theorem eq_zero_of_crcBit_eq_zero {a : Word} (h : crcBit a = 0#32) : a = 0#32 := by
  have hlow : a.getLsbD 0 = false := by
    by_contra hset
    rw [Bool.not_eq_false] at hset
    rw [crcBit, if_pos hset] at h
    have htop : ((a >>> 1) ^^^ Config.crcPoly).getLsbD 31 = true := by
      rw [BitVec.getLsbD_xor, BitVec.getLsbD_ushiftRight, BitVec.getLsbD_of_ge a (1 + 31) (by omega)]
      rfl
    rw [h] at htop
    exact absurd htop (by decide)
  rw [crcBit_of_low_bit_zero hlow] at h
  apply BitVec.eq_of_getLsbD_eq
  intro i hi
  cases i with
  | zero => rw [hlow]; rfl
  | succ i =>
    have hbit := congrArg (fun w => w.getLsbD i) h
    simp only [BitVec.getLsbD_ushiftRight] at hbit
    rw [Nat.add_comm, hbit, BitVec.getLsbD_zero, BitVec.getLsbD_zero]

theorem crcBits_injective (n : Nat) : Function.Injective (crcBits n) := by
  induction n with
  | zero => exact fun _ _ h => h
  | succ n ih =>
    intro a c h
    have hbit : crcBit a = crcBit c := ih h
    refine BitVec.xor_eq_zero_iff.mp (eq_zero_of_crcBit_eq_zero ?_)
    rw [crcBit_xor, hbit, BitVec.xor_self]

/-- The byte step as a function of the accumulator. -/
theorem crcByte_left_injective (b : Byte) : Function.Injective (fun a => crcByte a b) :=
  fun _ _ h => (BitVec.xor_left_inj _).mp (crcBits_injective 8 h)

/-- The byte step as a function of the byte. -/
theorem crcByte_right_injective (a : Word) : Function.Injective (crcByte a) := by
  intro b b' h
  have hwide : b.setWidth 32 = b'.setWidth 32 := (BitVec.xor_right_inj _).mp (crcBits_injective 8 h)
  have hback := congrArg (BitVec.setWidth 8) hwide
  simpa using hback

theorem crcAcc_left_injective (bs : List Byte) : Function.Injective (fun a => crcAcc a bs) := by
  induction bs with
  | nil => exact fun _ _ h => h
  | cons b bs ih => exact fun _ _ h => crcByte_left_injective b (ih h)

/-- Settles O10: after the changed byte the accumulators differ, and no later byte step makes them equal. -/
theorem crcDetectsOneChangedByte : Obligations.CrcDetectsOneChangedByte := by
  intro before after b b' hne h
  have hacc : crcAcc Config.crcInit (before ++ b :: after) = crcAcc Config.crcInit (before ++ b' :: after) :=
    (BitVec.xor_left_inj _).mp h
  simp only [crcAcc, List.foldl_append, List.foldl_cons] at hacc
  exact hne (crcByte_right_injective _ (crcAcc_left_injective after hacc))

/-- Settles O6: the state is `crcDone`, written out. -/
theorem crc32CompletesWithChecksum : Obligations.Crc32CompletesWithChecksum := by
  intro s hready
  simp only [crcReady, Bool.and_eq_true, Bool.not_eq_true'] at hready
  obtain ⟨⟨hbusy, hinside⟩, hfree⟩ := hready
  rw [exec_crc32_complete, completeCrc_of_no_clash hbusy hinside hfree]
  rfl

end Machine

end Sys2Proof
end

section
/-! Inverses (spec/43_aes256_primitive.md R206, spec/42_cipher_adapter.md R182): each round transformation and its
inverse, the primitive and its inverse, and from them a cipher command followed by its opposite in place. -/

namespace Sys2Proof

namespace Machine

-- As in the tests: evaluations in the kernel run one after another, not each in a thread of its own.
set_option Elab.async false

/-! ## Columns and blocks under XOR -/

@[simp] theorem colXor_colXor_cancel (a k : Col) : colXor (colXor a k) k = a := by
  simp [colXor, Quad.zipWith]

@[simp] theorem blockXor_blockXor_cancel (a k : Block) : blockXor (blockXor a k) k = a := by
  simp [blockXor, Quad.zipWith]

@[simp] theorem addRoundKey_addRoundKey (w : List Col) (r : Nat) (b : Block) :
    addRoundKey w r (addRoundKey w r b) = b := blockXor_blockXor_cancel b _

/-! ## SubBytes and ShiftRows -/

theorem sbox_invSbox (a : Byte) : sbox (invSbox a) = a := by
  revert a; decide +kernel

theorem quad_map_map_of_inverse {α : Type} {f g : α → α} (h : ∀ x, g (f x) = x) (a : Quad α) :
    (a.map f).map g = a := by
  simp [Quad.map, h]

@[simp] theorem invSubBytes_subBytes (b : Block) : invSubBytes (subBytes b) = b :=
  quad_map_map_of_inverse (quad_map_map_of_inverse invSbox_sbox) b

@[simp] theorem subBytes_invSubBytes (b : Block) : subBytes (invSubBytes b) = b :=
  quad_map_map_of_inverse (quad_map_map_of_inverse sbox_invSbox) b

@[simp] theorem invShiftRows_shiftRows (b : Block) : invShiftRows (shiftRows b) = b := rfl

@[simp] theorem shiftRows_invShiftRows (b : Block) : shiftRows (invShiftRows b) = b := rfl

/-! ## MixColumns

Both maps are linear over XOR, and every column is an XOR of columns with a single bit; on those 32 columns the two maps
are checked to undo each other. -/

theorem xtime_eq_xor (a : Byte) : xtime a = (a <<< 1) ^^^ (if a.getLsbD 7 then 0x1B#8 else 0#8) := by
  unfold xtime
  split
  · rfl
  · rw [BitVec.xor_zero]

/-- A byte taken under a condition: taking it twice takes it not at all. -/
theorem ite_xor_eq_xor_ite_byte (p q : Bool) (k : Byte) :
    (if p ^^ q then k else 0#8) = (if p then k else 0#8) ^^^ (if q then k else 0#8) := by
  cases p <;> cases q <;> simp

theorem xtime_xor (a c : Byte) : xtime (a ^^^ c) = xtime a ^^^ xtime c := by
  simp only [xtime_eq_xor, BitVec.shiftLeft_xor_distrib, BitVec.getLsbD_xor, ite_xor_eq_xor_ite_byte]
  ac_rfl

theorem gfMulBits_xor (n : Nat) (a c k : Byte) : gfMulBits n (a ^^^ c) k = gfMulBits n a k ^^^ gfMulBits n c k := by
  induction n generalizing a c k with
  | zero => exact (BitVec.xor_self).symm
  | succ n ih =>
    simp only [gfMulBits, xtime_xor, ih]
    split
    · ac_rfl
    · simp only [BitVec.zero_xor]

theorem gfDot_colXor (k0 k1 k2 k3 : Byte) (a c : Col) :
    gfDot k0 k1 k2 k3 (colXor a c) = gfDot k0 k1 k2 k3 a ^^^ gfDot k0 k1 k2 k3 c := by
  simp only [gfDot, colXor, Quad.zipWith, gfMul, gfMulBits_xor]
  ac_rfl

theorem mixColumn_colXor (a c : Col) : mixColumn (colXor a c) = colXor (mixColumn a) (mixColumn c) := by
  simp only [mixColumn, gfDot_colXor]
  rfl

theorem invMixColumn_colXor (a c : Col) : invMixColumn (colXor a c) = colXor (invMixColumn a) (invMixColumn c) := by
  simp only [invMixColumn, gfDot_colXor]
  rfl

/-- A byte as the XOR of its bits, each in its own place. -/
theorem byte_eq_xor_bits (x : Byte) :
    x = (List.finRange 8).foldr (fun i y => (if x.getLsbD i.val then 1#8 <<< i.val else 0#8) ^^^ y) 0#8 := by
  revert x; decide +kernel

/-- What holds of single bits and is kept by XOR holds of every byte. -/
theorem byte_xor_induction {P : Byte → Prop} (hzero : P 0#8) (hbit : ∀ i : Fin 8, P (1#8 <<< i.val))
    (hxor : ∀ x y, P x → P y → P (x ^^^ y)) (x : Byte) : P x := by
  rw [byte_eq_xor_bits x]
  induction List.finRange 8 with
  | nil => exact hzero
  | cons i l ih =>
    refine hxor _ _ ?_ ih
    split
    · exact hbit i
    · exact hzero

/-- What holds of columns with a single bit and is kept by XOR holds of every column. -/
theorem col_xor_induction {P : Col → Prop} (hxor : ∀ a c, P a → P c → P (colXor a c))
    (h0 : ∀ i : Fin 8, P ⟨1#8 <<< i.val, 0, 0, 0⟩) (h1 : ∀ i : Fin 8, P ⟨0, 1#8 <<< i.val, 0, 0⟩)
    (h2 : ∀ i : Fin 8, P ⟨0, 0, 1#8 <<< i.val, 0⟩) (h3 : ∀ i : Fin 8, P ⟨0, 0, 0, 1#8 <<< i.val⟩) (a : Col) : P a := by
  have hzero : P ⟨0, 0, 0, 0⟩ := by simpa [colXor, Quad.zipWith] using hxor _ _ (h0 0) (h0 0)
  have h0 : ∀ x, P ⟨x, 0, 0, 0⟩ := byte_xor_induction hzero h0
    fun x y hx hy => by simpa [colXor, Quad.zipWith] using hxor _ _ hx hy
  have h1 : ∀ x, P ⟨0, x, 0, 0⟩ := byte_xor_induction hzero h1
    fun x y hx hy => by simpa [colXor, Quad.zipWith] using hxor _ _ hx hy
  have h2 : ∀ x, P ⟨0, 0, x, 0⟩ := byte_xor_induction hzero h2
    fun x y hx hy => by simpa [colXor, Quad.zipWith] using hxor _ _ hx hy
  have h3 : ∀ x, P ⟨0, 0, 0, x⟩ := byte_xor_induction hzero h3
    fun x y hx hy => by simpa [colXor, Quad.zipWith] using hxor _ _ hx hy
  simpa [colXor, Quad.zipWith] using
    hxor _ _ (hxor _ _ (h0 a.q0) (h1 a.q1)) (hxor _ _ (h2 a.q2) (h3 a.q3))

theorem invMixColumn_mixColumn (a : Col) : invMixColumn (mixColumn a) = a :=
  col_xor_induction (P := fun a => invMixColumn (mixColumn a) = a)
    (fun a c ha hc => by rw [mixColumn_colXor, invMixColumn_colXor, ha, hc])
    (by decide +kernel) (by decide +kernel) (by decide +kernel) (by decide +kernel) a

theorem mixColumn_invMixColumn (a : Col) : mixColumn (invMixColumn a) = a :=
  col_xor_induction (P := fun a => mixColumn (invMixColumn a) = a)
    (fun a c ha hc => by rw [invMixColumn_colXor, mixColumn_colXor, ha, hc])
    (by decide +kernel) (by decide +kernel) (by decide +kernel) (by decide +kernel) a

@[simp] theorem invMixColumns_mixColumns (b : Block) : invMixColumns (mixColumns b) = b :=
  quad_map_map_of_inverse invMixColumn_mixColumn b

@[simp] theorem mixColumns_invMixColumns (b : Block) : mixColumns (invMixColumns b) = b :=
  quad_map_map_of_inverse mixColumn_invMixColumn b

/-! ## The primitive -/

/-- Rounds undone in the opposite order, seen through a map `p` that stands between the two directions. -/
theorem foldl_reverse_undo {α β : Type} {f g : α → β → α} {p : α → α} (h : ∀ x r, g (p (f x r)) r = p x) (l : List β)
    (x : α) : l.reverse.foldl g (p (l.foldl f x)) = p x := by
  induction l generalizing x with
  | nil => rfl
  | cons r l ih => rw [List.reverse_cons, List.foldl_append, List.foldl_cons, List.foldl_cons, List.foldl_nil, ih, h]

theorem decRound_encRound (w : List Col) (b : Block) (r : Nat) :
    decRound w (shiftRows (subBytes (encRound w b r))) r = shiftRows (subBytes b) := by simp [decRound, encRound]

theorem encRound_decRound (w : List Col) (b : Block) (r : Nat) :
    encRound w (invSubBytes (invShiftRows (decRound w b r))) r = invSubBytes (invShiftRows b) := by
  simp [decRound, encRound]

theorem decryptWith_encryptWith (w : List Col) (b : Block) : decryptWith w (encryptWith w b) = b := by
  rw [decryptWith, encryptWith, addRoundKey_addRoundKey,
    foldl_reverse_undo (p := fun x => shiftRows (subBytes x)) (decRound_encRound w)]
  simp

theorem encryptWith_decryptWith (w : List Col) (b : Block) : encryptWith w (decryptWith w b) = b := by
  have hrounds := foldl_reverse_undo (p := fun x => invSubBytes (invShiftRows x)) (encRound_decRound w)
    middleRounds.reverse (addRoundKey w 14 b)
  rw [List.reverse_reverse] at hrounds
  rw [encryptWith, decryptWith, addRoundKey_addRoundKey, hrounds]
  simp

@[simp] theorem primitive_dec_enc (p : Primitive) (k : Key) (b : Block) :
    (primitive p).dec k ((primitive p).enc k b) = b := by
  cases p with
  | aes256 => exact decryptWith_encryptWith (keySchedule k) b
  | other n => exact (Config.otherCipher n k).symm_apply_apply b

@[simp] theorem primitive_enc_dec (p : Primitive) (k : Key) (b : Block) :
    (primitive p).enc k ((primitive p).dec k b) = b := by
  cases p with
  | aes256 => exact encryptWith_decryptWith (keySchedule k) b
  | other n => exact (Config.otherCipher n k).apply_symm_apply b

/-- Settles O19: AES-256 round by round, the free family because its members are permutations. -/
theorem primitiveIsInvertible : Obligations.PrimitiveIsInvertible :=
  fun s k b => ⟨primitive_dec_enc s.prim k b, primitive_enc_dec s.prim k b⟩

/-! ## A mode and the mode that undoes it -/

/-- Mode step `g` gives back the block that `f` was given and hands on the same chaining value. -/
def UndoneBy (f g : ModeStep) : Prop := ∀ chain b, g chain (f chain b).1 = (b, (f chain b).2)

theorem chainAt_of_undoneBy {f g : ModeStep} (h : UndoneBy f g) (chain : Block) (inp : Nat → Block) (j : Nat) :
    chainAt g chain (fun i => (f (chainAt f chain inp i) (inp i)).1) j = chainAt f chain inp j := by
  induction j with
  | zero => rfl
  | succ j ih => rw [chainAt, ih, h, chainAt]

section Modes

variable (p : Primitive) (k : Key)

theorem ecbEnc_undoneBy_ecbDec : UndoneBy (ecbEncStep (primitive p) k) (ecbDecStep (primitive p) k) :=
  fun _ b => Prod.ext (primitive_dec_enc p k b) rfl

theorem ecbDec_undoneBy_ecbEnc : UndoneBy (ecbDecStep (primitive p) k) (ecbEncStep (primitive p) k) :=
  fun _ b => Prod.ext (primitive_enc_dec p k b) rfl

theorem cbcEnc_undoneBy_cbcDec : UndoneBy (cbcEncStep (primitive p) k) (cbcDecStep (primitive p) k) := by
  intro chain b
  simp [cbcEncStep, cbcDecStep]

theorem cbcDec_undoneBy_cbcEnc : UndoneBy (cbcDecStep (primitive p) k) (cbcEncStep (primitive p) k) := by
  intro chain b
  simp [cbcEncStep, cbcDecStep]

end Modes

/-! ## There and back in place -/

/-- A block read tells its 16 bytes. -/
theorem memGet_eq_of_readBlock_eq {m m' : List Host.Cell} {a b : Nat} (h : readBlock m a = readBlock m' a)
    (hlo : a ≤ b) (hhi : b < a + 16) : memGet m b = memGet m' b := by
  simp only [readBlock, readCol, Quad.mk.injEq] at h
  obtain ⟨i, rfl⟩ := Nat.exists_eq_add_of_le hlo
  have hi : i < 16 := by omega
  interval_cases i <;> simp_all

/-- Two memories that agree block for block in a range, and byte for byte outside it, read the same everywhere. -/
theorem memGet_eq_of_blocks {m m' : List Host.Cell} {base n : Nat}
    (hin : ∀ j < n, readBlock m (base + 16 * j) = readBlock m' (base + 16 * j))
    (hout : ∀ a, a < base ∨ base + 16 * n ≤ a → memGet m a = memGet m' a) (a : Nat) : memGet m a = memGet m' a := by
  by_cases ha : a < base ∨ base + 16 * n ≤ a
  · exact hout a ha
  · exact memGet_eq_of_readBlock_eq (hin ((a - base) / 16) (by omega)) (by omega) (by omega)

/-- A mode function in place and the one that undoes it leave memory as it was. -/
theorem cipherBlocks_undo {f g : ModeStep} (h : UndoneBy f g) {m : List Host.Cell} (hm : memWf m = true) (n : Nat)
    (chain : Block) (base : Nat) :
    cipherBlocks g n chain base base (cipherBlocks f n chain base base m) = m := by
  have hm₁ : memWf (cipherBlocks f n chain base base m) = true := memWf_cipherBlocks f n hm chain base base
  refine memWf_ext (memWf_cipherBlocks g n hm₁ chain base base) hm
    (memGet_eq_of_blocks (base := base) (n := n) (fun j hj => ?inside) fun a ha => ?outside)
  case inside =>
    have hblock : ∀ i < n, readBlock (cipherBlocks f n chain base base m) (base + 16 * i) =
        (f (chainAt f chain (fun i => readBlock m (base + 16 * i)) i) (readBlock m (base + 16 * i))).1 :=
      fun i hi => readBlock_cipherBlocks f hm chain (Or.inl (Nat.le_refl base)) hi
    rw [readBlock_cipherBlocks g hm₁ chain (Or.inl (Nat.le_refl base)) hj,
      chainAt_congr fun i hi => hblock i (by omega), chainAt_of_undoneBy h, hblock j hj, h]
  case outside =>
    rw [memGet_cipherBlocks_outside g hm₁ chain base ha, memGet_cipherBlocks_outside f hm chain base ha]

/-- A unit clashes only with busy ones. -/
theorem unitClash_ciph_of_others_idle {s : State} (hcrc : s.crc.status.busy = false)
    (hlzd : s.lzd.status.busy = false) : unitClash s .ciph = false := by
  have hidle : ∀ v, clashesWith s .ciph v = false := by
    intro v
    unfold clashesWith
    split
    · cases v with
      | crc => simp [unitBusy, unitStatus, hcrc]
      | ciph => simp
      | lzd => simp [unitBusy, unitStatus, hlzd]
    · rfl
  simp [unitClash, hidle]

/-- Started again with the registers as they are, the CIPH unit is ready again if no other unit is busy. -/
theorem ciphReady_ciphAgain {s : State} (f : ModeStep) (chain : Block) (h : ciphReady s = true)
    (hcrc : s.crc.status.busy = false) (hlzd : s.lzd.status.busy = false) :
    ciphReady (ciphAgain (ciphDone f chain s)) = true := by
  obtain ⟨-, hlen, hrd, hwr, hov, -⟩ := (ciphReady_iff s).mp h
  exact (ciphReady_iff _).mpr ⟨rfl, hlen, hrd, hwr, hov, unitClash_ciph_of_others_idle hcrc hlzd⟩

theorem completeCiph_eq_of_ready (f : ModeStep) (chain : Block) {s : State} (h : ciphReady s = true) :
    completeCiph f chain s = .next (ciphDone f chain s) := by
  obtain ⟨hb, hlen, hrd, hwr, hov, hc⟩ := (ciphReady_iff s).mp h
  exact completeCiph_of_checks_pass f chain hb hlen hrd hwr hov hc

/-- A mode in place, then the mode that undoes it: memory is the list it was. -/
theorem completeCiph_round_trip {f g : ModeStep} (hfg : UndoneBy f g) (chain : Block) {s : State}
    (hm : memWf s.mem = true) (hready : ciphReady s = true) (hinplace : s.ciph.dst = s.ciph.src)
    (hcrc : s.crc.status.busy = false) (hlzd : s.lzd.status.busy = false) :
    ∃ u, completeCiph g chain (ciphAgain (ciphDone f chain s)) = .next u ∧ u.mem = s.mem := by
  refine ⟨_, completeCiph_eq_of_ready g chain (ciphReady_ciphAgain f chain hready hcrc hlzd), ?_⟩
  have hmem := cipherBlocks_undo hfg hm (s.ciph.len.toNat / Config.blockBytes) chain s.ciph.src.toNat
  simp only [ciphDone_mem, ciphMem, ciphAgain, startUnit_mem, startUnit_ciph, ciphDone_ciph, hinplace]
  exact hmem

/-- Settles O18: in each of the four pairs the second mode step undoes the first, with the same first chaining
value. -/
theorem cipherRoundTripRestoresMemory : Obligations.CipherRoundTripRestoresMemory := by
  intro s t i j hij hm hready hinplace hcrc hlzd h
  obtain ⟨rfl, rfl⟩ | ⟨rfl, rfl⟩ | ⟨rfl, rfl⟩ | ⟨rfl, rfl⟩ := hij
  · rw [exec_encEcb_complete, completeCiph_eq_of_ready _ _ hready] at h
    cases h
    exact completeCiph_round_trip (ecbEnc_undoneBy_ecbDec s.prim (unitKey s)) noChain hm hready hinplace hcrc hlzd
  · rw [exec_decEcb_complete, completeCiph_eq_of_ready _ _ hready] at h
    cases h
    exact completeCiph_round_trip (ecbDec_undoneBy_ecbEnc s.prim (unitKey s)) noChain hm hready hinplace hcrc hlzd
  · rw [exec_encCbc_complete, completeCiph_eq_of_ready _ _ hready] at h
    cases h
    exact completeCiph_round_trip (cbcEnc_undoneBy_cbcDec s.prim (unitKey s)) (unitIv s) hm hready hinplace hcrc hlzd
  · rw [exec_decCbc_complete, completeCiph_eq_of_ready _ _ hready] at h
    cases h
    exact completeCiph_round_trip (cbcDec_undoneBy_cbcEnc s.prim (unitKey s)) (unitIv s) hm hready hinplace hcrc hlzd

end Machine

end Sys2Proof
end

section
/-! What the decoder reads (spec/30_encoding.md R100 to R115): the inverse direction of `decodeToken_of_reads`, so that
bytes and tokens determine each other, and that only a missing byte stops the decoder. -/

namespace Sys2Proof

-- As in the tests: evaluations in the kernel run one after another, not each in a thread of its own.
set_option Elab.async false

/-! ## Fields of a control byte, put together again -/

theorem ctrlByte_ctrlF_ctrlH (c : Byte) : ctrlByte (ctrlF c) (ctrlH c) = c := by
  revert c; decide +kernel

theorem markerBits_of_markerLevel {m : BitVec 3} {l : Level} (h : markerLevel m = some l) :
    markerBits (some l) = m := by
  unfold markerLevel at h
  split_ifs at h with h0 h1
  · cases h; exact h0.symm
  · cases h; exact h1.symm

theorem two_le_of_markerLevel_eq_none {m : BitVec 3} (h : markerLevel m = none) : 2 ≤ m.toNat := by
  revert m; decide

theorem be16Bytes_be16 (b0 b1 : Byte) : be16Bytes (be16 b0 b1) = [b0, b1] := by
  have hb0 := b0.isLt
  have hb1 := b1.isLt
  simp only [be16Bytes, List.cons.injEq, and_true]
  constructor
  · apply BitVec.eq_of_toNat_eq
    simp only [be16, BitVec.extractLsb'_toNat, BitVec.toNat_ofNat, Nat.shiftRight_eq_div_pow]
    omega
  · apply BitVec.eq_of_toNat_eq
    simp only [be16, BitVec.extractLsb'_toNat, BitVec.toNat_ofNat, Nat.shiftRight_eq_div_pow]
    omega

theorem isEscape_iff (h : BitVec 5) (lo : Byte) : isEscape h lo = true ↔ h = 31#5 ∧ lo = 0xFF#8 := by
  simp [isEscape]

/-- A run length and its field H determine each other. -/
theorem ofNat_length_of_litH {h : BitVec 5} {data : List Byte} (hlen : data.length = h.toNat + 1) :
    BitVec.ofNat 5 (data.length - 1) = h := by
  rw [hlen, Nat.add_sub_cancel, BitVec.ofNat_toNat, BitVec.setWidth_eq]

/-! ## What the parts of the decoder read -/

theorem reads_of_takeBytes {rd : Nat → Option Byte} {pos n : Nat} {bs : List Byte} (h : takeBytes rd pos n = some bs) :
    bs.length = n ∧ Reads rd pos bs := by
  induction n generalizing pos bs with
  | zero => cases h; exact ⟨rfl, trivial⟩
  | succ n ih =>
    rw [takeBytes] at h
    split at h
    · cases h
    · rename_i b hb
      split at h
      · cases h
      · rename_i bs' hbs
        cases h
        obtain ⟨hlen, hreads⟩ := ih hbs
        exact ⟨by rw [List.length_cons, hlen], hb, hreads⟩

theorem reads_of_readChain {rd : Nat → Option Byte} {pos fuel n : Nat} {x : Byte}
    (h : readChain rd pos fuel = some (n, x)) : x ≠ 0xFF#8 ∧ Reads rd pos (List.replicate n 0xFF#8 ++ [x]) := by
  induction fuel generalizing pos n with
  | zero => cases h
  | succ fuel ih =>
    rw [readChain] at h
    split at h
    · cases h
    · rename_i y hy
      split_ifs at h with hff
      · split at h
        · cases h
        · rename_i hrest
          cases h
          obtain ⟨hx, hreads⟩ := ih hrest
          exact ⟨hx, by rw [hy, hff], hreads⟩
      · cases h
        exact ⟨hff, hy, trivial⟩

theorem decodeLit_ok {mark : Option Level} {h : BitVec 5} {rd : Nat → Option Byte} {i : Instr}
    (hi : decodeLit mark h rd = .ok i) :
    ∃ data, i = .lit mark data ∧ data.length = h.toNat + 1 ∧ Reads rd 1 data := by
  unfold decodeLit at hi
  split at hi
  · cases hi
  · rename_i data hdata
    cases hi
    exact ⟨data, rfl, reads_of_takeBytes hdata⟩

theorem decodeTail2_ok {h : BitVec 5} {rd : Nat → Option Byte} {pos : Nat} {near : Byte → Instr}
    {far : BitVec 16 → Instr} {i : Instr} (hi : decodeTail2 h rd pos near far = .ok i) :
    (∃ lo, isEscape h lo = false ∧ Reads rd pos [lo] ∧ i = near lo) ∨
      ∃ xd, h = 31#5 ∧ Reads rd pos (0xFF#8 :: be16Bytes xd) ∧ i = far xd := by
  unfold decodeTail2 at hi
  split at hi
  · cases hi
  · rename_i lo hlo
    split_ifs at hi with hesc
    · obtain ⟨rfl, rfl⟩ := (isEscape_iff h lo).mp hesc
      split at hi
      · rename_i b0 b1 hb0 hb1
        cases hi
        exact .inr ⟨be16 b0 b1, rfl, by rw [be16Bytes_be16]; exact ⟨hlo, hb0, hb1, trivial⟩, rfl⟩
      · cases hi
    · cases hi
      exact .inl ⟨lo, eq_false_of_ne_true hesc, ⟨hlo, trivial⟩, rfl⟩

/-! ## What the decoder reads -/

/-- Through the reader, at its index 0, stands the well-formed token `i`, in a place where it may stand. -/
structure ReadsToken (ctx : Option Level) (rd : Nat → Option Byte) (i : Instr) : Prop where
  isToken : i.isToken = true
  wellFormed : i.wellFormed = true
  fits : i.fitsContext ctx = true
  reads : Reads rd 0 (tokenBytes i)

section Read

variable {ctx : Option Level} {rd : Nat → Option Byte} {c : Byte} {i : Instr}

theorem readsToken_of_decodeLit {mark : Option Level} (hc : rd 0 = some c) (hmark : markerBits mark = ctrlF c)
    (hfit : mark.isSome = ctx.isNone) (hi : decodeLit mark (ctrlH c) rd = .ok i) : ReadsToken ctx rd i := by
  obtain ⟨data, rfl, hlen, hreads⟩ := decodeLit_ok hi
  have hH := (ctrlH c).isLt
  refine ⟨rfl, (wellFormed_lit_iff mark data).mpr ⟨by omega, by omega⟩, by simp [Instr.fitsContext, hfit], ?_⟩
  rw [tokenBytes, ofNat_length_of_litH hlen, hmark, ctrlByte_ctrlF_ctrlH]
  exact ⟨hc, hreads⟩

theorem readsToken_of_decodeMatch1 (hc : rd 0 = some c) (hF : ctrlF c ≠ 0#3)
    (hi : decodeMatch1 (ctrlF c) (ctrlH c) rd = .ok i) : ReadsToken (some .one) rd i := by
  have hbyte := ctrlByte_ctrlF_ctrlH c
  unfold decodeMatch1 at hi
  split_ifs at hi with h7
  · rw [h7] at hbyte
    split at hi
    · rename_i x lo hx hlo
      cases hi
      exact ⟨rfl, rfl, rfl, by rw [hbyte]; exact hc, hx, hlo, trivial⟩
    · cases hi
  · split at hi
    · rename_i lo hlo
      cases hi
      exact ⟨rfl, (shortF_iff _).mpr ⟨hF, h7⟩, rfl, by rw [hbyte]; exact hc, hlo, trivial⟩
    · cases hi

theorem readsToken_of_decodeMatch2 {fuel : Nat} (hc : rd 0 = some c) (hF : ctrlF c ≠ 0#3)
    (hi : decodeMatch2 (ctrlF c) (ctrlH c) rd fuel = .ok i) : ReadsToken (some .two) rd i := by
  have hbyte := ctrlByte_ctrlF_ctrlH c
  unfold decodeMatch2 at hi
  split_ifs at hi with h7
  · rw [h7] at hbyte
    split at hi
    · cases hi
    · rename_i n x hchain
      obtain ⟨hx, hreads⟩ := reads_of_readChain hchain
      have hpos : 0 + 1 + (List.replicate n 0xFF#8 ++ [x]).length = n + 2 := by simp; omega
      obtain ⟨lo, hesc, hlo, rfl⟩ | ⟨xd, hH, hfar, rfl⟩ := decodeTail2_ok hi
      · refine ⟨rfl, by simp [Instr.wellFormed, hx, hesc], rfl, ?_⟩
        rw [tokenBytes, hbyte, ← List.singleton_append (x := x), ← List.append_assoc]
        exact ⟨hc, reads_append.mpr ⟨hreads, by rw [hpos]; exact hlo⟩⟩
      · rw [hH] at hbyte
        refine ⟨rfl, by simp [Instr.wellFormed, hx], rfl, ?_⟩
        rw [tokenBytes, hbyte, ← List.singleton_append (x := x), ← List.append_assoc]
        exact ⟨hc, reads_append.mpr ⟨hreads, by rw [hpos]; exact hfar⟩⟩
  · obtain ⟨lo, hesc, hlo, rfl⟩ | ⟨xd, hH, hfar, rfl⟩ := decodeTail2_ok hi
    · exact ⟨rfl, by simp [Instr.wellFormed, (shortF_iff _).mpr ⟨hF, h7⟩, hesc], rfl, by rw [hbyte]; exact hc, hlo⟩
    · rw [hH] at hbyte
      exact ⟨rfl, (shortF_iff _).mpr ⟨hF, h7⟩, rfl, by rw [hbyte]; exact hc, hfar⟩

/-- The inverse of `decodeToken_of_reads`. -/
theorem readsToken_of_decodeToken {fuel : Nat} (h : decodeToken ctx rd fuel = .ok i) : ReadsToken ctx rd i := by
  cases hc : rd 0 with
  | none => simp [decodeToken, hc] at h
  | some c =>
    cases ctx with
    | none =>
      cases hm : markerLevel (ctrlF c) with
      | some l =>
        rw [decodeToken_first_lit fuel hc hm] at h
        exact readsToken_of_decodeLit hc (markerBits_of_markerLevel hm) rfl h
      | none =>
        rw [decodeToken_first_bad fuel hc hm] at h
        cases h
        exact ⟨rfl, decide_eq_true (two_le_of_markerLevel_eq_none hm), rfl,
          by rw [ctrlByte_ctrlF_ctrlH]; exact hc, trivial⟩
    | some l =>
      by_cases hF : ctrlF c = 0#3
      · rw [decodeToken_later_lit fuel l hc hF] at h
        exact readsToken_of_decodeLit (mark := none) hc hF.symm rfl h
      · cases l with
        | one =>
          rw [decodeToken_match1 fuel hc hF] at h
          exact readsToken_of_decodeMatch1 hc hF h
        | two =>
          rw [decodeToken_match2 fuel hc hF] at h
          exact readsToken_of_decodeMatch2 hc hF h

end Read

/-- Bytes that a list answers from an index on stand there. -/
theorem drop_eq_append_of_reads {bytes bs : List Byte} {pos : Nat} (h : Reads (fun i => bytes[i]?) pos bs) :
    ∃ rest, bytes.drop pos = bs ++ rest := by
  induction bs generalizing pos with
  | nil => exact ⟨bytes.drop pos, rfl⟩
  | cons b bs ih =>
    obtain ⟨hb, hbs⟩ := h
    have hb : bytes[pos]? = some b := hb
    obtain ⟨rest, hrest⟩ := ih hbs
    exact ⟨rest, by rw [List.drop_eq_getElem?_toList_append, hb, hrest]; rfl⟩

/-- Settles O3: the token is read byte for byte, and a list's reader answers the list's bytes. -/
theorem decodedTokenIsItsEncoding : Obligations.DecodedTokenIsItsEncoding := by
  intro ctx bytes i h
  obtain ⟨ht, hw, hfit, hreads⟩ := readsToken_of_decodeToken h
  exact ⟨ht, hw, hfit, drop_eq_append_of_reads hreads⟩

/-- Settles O2. -/
theorem tokenDecodeIgnoresWhatFollows : Obligations.TokenDecodeIgnoresWhatFollows :=
  fun _ _ rest ht hw hfit => decode_tokenBytes_append rest ht hw hfit

/-! ## Commands -/

/-- A command's START write and its unit's turn decode to the command that unit and mode select. -/
theorem decode_encodeCommand (ctx : Option Level) (u : UnitId) (mode : Word) (ph : Phase) :
    decode ctx (encodeCommand u mode ph) = .ok (decodeCommand u mode ph) := by
  cases ph with
  | start => cases u <;> rfl
  | complete => rfl

theorem decode_encode_ciph (ctx : Option Level) {mode : Word} {ph : Phase} {i : Instr} (h : decodeCiph mode ph = i) :
    decode ctx (encodeCommand .ciph mode ph) = .ok i := by
  rw [decode_encodeCommand, decodeCommand, h]

theorem decode_tokenBytes {i : Instr} {ctx : Option Level} (ht : i.isToken = true) (hw : i.wellFormed = true)
    (hf : i.fitsContext ctx = true) : decode ctx (.stream (tokenBytes i)) = .ok i := by
  simpa using decode_tokenBytes_append [] ht hw hf

/-- Settles O1: commands by their unit and mode, tokens by their bytes. -/
theorem decodeOfEncodeIsIdentity : Obligations.DecodeOfEncodeIsIdentity := by
  intro i ctx hw hfit
  cases i with
  | crc32 ph => exact decode_encodeCommand ctx .crc 0#32 ph
  | encEcb ph => exact decode_encode_ciph ctx rfl
  | encCbc ph => exact decode_encode_ciph ctx rfl
  | decEcb ph => exact decode_encode_ciph ctx rfl
  | decCbc ph => exact decode_encode_ciph ctx rfl
  | ciphBadmode alg dir ph => exact decode_encode_ciph ctx (by cases alg <;> cases dir <;> rfl)
  | lzd ph => exact decode_encodeCommand ctx .lzd 0#32 ph
  | clear u => cases u <;> rfl
  | lit | match1S | match1L | match2S | match2L | match2SF | match2LF | lzBadlevel =>
    exact decode_tokenBytes rfl hw hfit

/-- Settles O5: each word is decoded by the tables. -/
theorem listedWordsDecode : Obligations.ListedWordsDecode :=
  ⟨rfl, rfl, rfl, by decide, by decide, by decide, by decide, by decide⟩

/-! ## Only a missing byte stops the decoder -/

theorem decodeLit_error {mark : Option Level} {h : BitVec 5} {rd : Nat → Option Byte} {e : DecodeError}
    (he : decodeLit mark h rd = .error e) : e = .truncated := by
  unfold decodeLit at he
  split at he <;> cases he
  rfl

theorem decodeTail2_error {h : BitVec 5} {rd : Nat → Option Byte} {pos : Nat} {near : Byte → Instr}
    {far : BitVec 16 → Instr} {e : DecodeError} (he : decodeTail2 h rd pos near far = .error e) : e = .truncated := by
  unfold decodeTail2 at he
  split at he
  · cases he; rfl
  · split_ifs at he
    split at he <;> cases he
    rfl

theorem decodeToken_error {ctx : Option Level} {rd : Nat → Option Byte} {fuel : Nat} {e : DecodeError}
    (he : decodeToken ctx rd fuel = .error e) : e = .truncated := by
  cases hc : rd 0 with
  | none => simp only [decodeToken, hc] at he; cases he; rfl
  | some c =>
    cases ctx with
    | none =>
      cases hm : markerLevel (ctrlF c) with
      | some l => rw [decodeToken_first_lit fuel hc hm] at he; exact decodeLit_error he
      | none => rw [decodeToken_first_bad fuel hc hm] at he; cases he
    | some l =>
      by_cases hF : ctrlF c = 0#3
      · rw [decodeToken_later_lit fuel l hc hF] at he; exact decodeLit_error he
      · cases l with
        | one =>
          rw [decodeToken_match1 fuel hc hF, decodeMatch1] at he
          split_ifs at he
          · split at he <;> cases he
            rfl
          · split at he <;> cases he
            rfl
        | two =>
          rw [decodeToken_match2 fuel hc hF, decodeMatch2] at he
          split_ifs at he
          · split at he
            · cases he; rfl
            · exact decodeTail2_error he
          · exact decodeTail2_error he

section Total

variable {rd : Nat → Option Byte}

theorem takeBytes_total {pos n : Nat} (h : ∀ j, j < pos + n → ∃ b, rd j = some b) :
    ∃ bs, takeBytes rd pos n = some bs := by
  induction n generalizing pos with
  | zero => exact ⟨[], rfl⟩
  | succ n ih =>
    obtain ⟨b, hb⟩ := h pos (by omega)
    obtain ⟨bs, hbs⟩ := ih (pos := pos + 1) fun j hj => h j (by omega)
    exact ⟨b :: bs, by simp [takeBytes, hb, hbs]⟩

/-- A chain ends at the first byte that is not 0xFF. -/
theorem readChain_total {pos fuel k : Nat} (h : ∀ j, j ≤ k → ∃ b, rd j = some b) (hk : rd k = some 0#8)
    (hpos : pos ≤ k) (hfuel : k < pos + fuel) : ∃ n x, readChain rd pos fuel = some (n, x) ∧ pos + n ≤ k := by
  induction fuel generalizing pos with
  | zero => omega
  | succ fuel ih =>
    obtain ⟨b, hb⟩ := h pos hpos
    by_cases hff : b = 0xFF#8
    · have hne : pos ≠ k := by
        rintro rfl
        rw [hb, hff] at hk
        exact absurd hk (by decide)
      obtain ⟨n, x, hrest, hn⟩ := ih (pos := pos + 1) (by omega) (by omega)
      exact ⟨n + 1, x, by simp [readChain, hb, hff, hrest], by omega⟩
    · exact ⟨0, b, by simp [readChain, hb, hff], hpos⟩

theorem decodeTail2_total {h : BitVec 5} {pos : Nat} (near : Byte → Instr) (far : BitVec 16 → Instr)
    (hrd : ∀ j, j < pos + 3 → ∃ b, rd j = some b) : ∃ i, decodeTail2 h rd pos near far = .ok i := by
  obtain ⟨lo, hlo⟩ := hrd pos (by omega)
  obtain ⟨b0, hb0⟩ := hrd (pos + 1) (by omega)
  obtain ⟨b1, hb1⟩ := hrd (pos + 2) (by omega)
  cases hesc : isEscape h lo with
  | true => exact ⟨far (be16 b0 b1), by simp [decodeTail2, hlo, hesc, hb0, hb1]⟩
  | false => exact ⟨near lo, by simp [decodeTail2, hlo, hesc]⟩

theorem decodeLit_total (mark : Option Level) (h : BitVec 5) (hrd : ∀ j, j < 33 → ∃ b, rd j = some b) :
    ∃ i, decodeLit mark h rd = .ok i := by
  have hH := h.isLt
  obtain ⟨data, hdata⟩ := takeBytes_total (rd := rd) (pos := 1) (n := h.toNat + 1) fun j hj => hrd j (by omega)
  exact ⟨.lit mark data, by simp only [decodeLit, hdata]⟩

/-- With every byte up to `k + 33` there, and a byte 0 at `k` that ends a chain, the decoder reads a token. -/
theorem decodeToken_total (ctx : Option Level) {fuel k : Nat} (hrd : ∀ j, j < k + 33 → ∃ b, rd j = some b)
    (hk : rd k = some 0#8) (hpos : 1 ≤ k) (hfuel : k ≤ fuel) : ∃ i, decodeToken ctx rd fuel = .ok i := by
  obtain ⟨c, hc⟩ := hrd 0 (by omega)
  have hlit := fun mark => decodeLit_total mark (ctrlH c) fun j hj => hrd j (by omega)
  cases ctx with
  | none =>
    cases hm : markerLevel (ctrlF c) with
    | some l => rw [decodeToken_first_lit fuel hc hm]; exact hlit _
    | none => exact ⟨_, decodeToken_first_bad fuel hc hm⟩
  | some l =>
    by_cases hF : ctrlF c = 0#3
    · rw [decodeToken_later_lit fuel l hc hF]; exact hlit _
    · cases l with
      | one =>
        obtain ⟨b1, hb1⟩ := hrd 1 (by omega)
        obtain ⟨b2, hb2⟩ := hrd 2 (by omega)
        rw [decodeToken_match1 fuel hc hF, decodeMatch1, hb1, hb2]
        split_ifs <;> exact ⟨_, rfl⟩
      | two =>
        rw [decodeToken_match2 fuel hc hF, decodeMatch2]
        split_ifs
        · obtain ⟨n, x, hchain, hn⟩ := readChain_total (fun j _ => hrd j (by omega)) hk hpos (fuel := fuel) (by omega)
          rw [hchain]
          exact decodeTail2_total _ _ fun j hj => hrd j (by omega)
        · exact decodeTail2_total _ _ fun j hj => hrd j (by omega)

end Total

/-- Settles O4: enough bytes 0 complete any token. -/
theorem streamRefusedOnlyWhenCutOff : Obligations.StreamRefusedOnlyWhenCutOff := by
  intro ctx bytes e he
  refine ⟨decodeToken_error he, List.replicate 64 0#8, ?_⟩
  have hlen : (bytes ++ List.replicate 64 0#8).length = bytes.length + 64 := by simp
  refine decodeToken_total ctx (k := bytes.length + 1) (fun j hj => ?_) ?_ (by omega) (by omega)
  · exact ⟨_, List.getElem?_eq_getElem (by omega)⟩
  · rw [List.getElem?_append_right (by omega), List.getElem?_replicate, if_pos (by omega)]

end Sys2Proof
end

section
/-! The tokens and the loop of LZD (spec/44_lz_decompressor.md): what each turn of the loop can do, that the loop comes
to an end, and what it leaves. -/

namespace Sys2Proof

namespace Machine

/-! ## Tokens that fail -/

theorem raiseError_withRun (c : Cause) (r : LzRun) (s : State) : raiseError .lzd c (withRun r s) = lzdFailed c r s := rfl

theorem withRun_self {s : State} {r : LzRun} (h : s.lzd.run = some r) : withRun r s = s := by
  obtain ⟨crc, ciph, lzd, prim, mem, memSize, inputs, busData, memData, resets⟩ := s
  obtain ⟨status, src, len, dst, expLen, outLen, inUsed, run, claims⟩ := lzd
  cases h
  rfl

section MatchChecks

variable {s : State} {r : LzRun} {size lv dv : Nat}

theorem runMatch_of_short_input (hr : s.lzd.run = some r) (hin : s.lzd.len.toNat < r.ip + size) :
    runMatch size lv dv s = .next (lzdFailed .lzInOverrun r s) := by
  simp [runMatch, hr, hin, raiseError_eq_lzdFailed hr]

theorem runMatch_of_output_full (hr : s.lzd.run = some r) (hin : r.ip + size ≤ s.lzd.len.toNat)
    (hout : s.lzd.expLen.toNat < r.op + (lv + 2)) :
    runMatch size lv dv s = .next (lzdFailed .lzOutOverrun r s) := by
  simp [runMatch, hr, Nat.not_lt.mpr hin, trueLength_eq, hout, raiseError_eq_lzdFailed hr]

theorem runMatch_of_far_reference (hr : s.lzd.run = some r) (hin : r.ip + size ≤ s.lzd.len.toNat)
    (hout : r.op + (lv + 2) ≤ s.lzd.expLen.toNat) (hdist : r.op < dv + 1) :
    runMatch size lv dv s = .next (lzdFailed .lzRefUnderrun r s) := by
  simp [runMatch, hr, Nat.not_lt.mpr hin, trueLength_eq, Nat.not_lt.mpr hout, trueDistance_eq, hdist,
    raiseError_eq_lzdFailed hr]

end MatchChecks

section LitChecks

variable {s : State} {r : LzRun} {data : List Byte} (mark : Option Level)

theorem execLit_of_short_input (hr : s.lzd.run = some r) (hin : s.lzd.len.toNat < r.ip + (1 + data.length)) :
    execLit mark data s = .next (lzdFailed .lzInOverrun (marked mark r) s) := by
  simp [execLit, hr, hin, raiseError_withRun]

theorem execLit_of_output_full (hr : s.lzd.run = some r) (hin : r.ip + (1 + data.length) ≤ s.lzd.len.toNat)
    (hout : s.lzd.expLen.toNat < r.op + data.length) :
    execLit mark data s = .next (lzdFailed .lzOutOverrun (marked mark r) s) := by
  simp [execLit, hr, Nat.not_lt.mpr hin, hout, raiseError_withRun]

end LitChecks

/-- Settles O25: the three checks of `runMatch`, one after the other. -/
theorem matchErrorsInOrder : Obligations.MatchErrorsInOrder := by
  intro s r i lv dv hpair hr
  rw [exec_match hpair]
  exact ⟨runMatch_of_short_input hr, runMatch_of_output_full hr, runMatch_of_far_reference hr⟩

/-- Settles O26: the two checks of `execLit`, one after the other, with the marker taken. -/
theorem litErrorsInOrder : Obligations.LitErrorsInOrder := by
  intro s r mark data hr
  refine ⟨fun hin => ?short, fun hin hout => ?full⟩
  case short => exact (execLit_of_short_input mark hr hin).trans (by cases mark <;> rfl)
  case full => exact (execLit_of_output_full mark hr hin hout).trans (by cases mark <;> rfl)

/-- Settles O23: the literal run is one MemWrite. -/
theorem litWritesItsBytes : Obligations.LitWritesItsBytes := by
  intro s r mark data hm hr hin hout
  refine ⟨litDone (marked mark r) data s, execLit_of_fits mark hr hin hout, fun i hi => ?written, fun a ha => ?kept,
    ?cursors, rfl⟩
  case written =>
    rw [litDone_mem, marked_op, memGet_memWrite hm, if_pos (by omega), Nat.add_sub_cancel_left]
  case kept =>
    rw [litDone_mem, marked_op]
    exact memGet_memWrite_outside hm ((spanHas_false_iff _ _).mp ha)
  case cursors => cases mark <;> rfl

/-! ## The address checks -/

theorem completeLzd_of_bad_ranges {s : State} (hb : unitBusy s .lzd = true)
    (hbad : spanInMemory s.memSize (lzdClaim s).rd = false ∨ spanInMemory s.memSize (lzdClaim s).wr = false ∨
      spansMeet (lzdClaim s).rd (lzdClaim s).wr = true) : completeLzd s = .next (lzdFailed .addr freshRun s) := by
  obtain hrd | hwr | hmeet := hbad
  · simp [completeLzd, hb, hrd, raiseError_withRun]
  · simp [completeLzd, hb, hwr, raiseError_withRun]
  · simp [completeLzd, hb, hmeet, raiseError_withRun]

/-- Settles O30: each of the three conditions fails one of the address checks. -/
theorem lzdAddressErrors : Obligations.LzdAddressErrors := by
  intro s hb hbad
  refine completeLzd_of_bad_ranges hb ?_
  obtain ⟨hpos, hend⟩ | ⟨hpos, hend⟩ | ⟨hN, hE, hsrc, hdst⟩ := hbad
  · exact .inl ((spanInMemory_false_iff _ _).mpr ⟨hpos, hend⟩)
  · exact .inr (.inl ((spanInMemory_false_iff _ _).mpr ⟨hpos, hend⟩))
  · exact .inr (.inr ((spansMeet_iff _ _).mpr ⟨hN, hE, hsrc, hdst⟩))

/-! ## Fetching -/

/-- A fetch decodes the bytes of memory from `ip` to the end of the input. -/
theorem fetchToken_eq_decode (s : State) (r : LzRun) :
    fetchToken s r =
      decode (runContext r) (.stream (memRead s.mem (s.lzd.src.toNat + r.ip) (s.lzd.len.toNat - r.ip))) := by
  have hsrc : srcByte s r = fun j => (memRead s.mem (s.lzd.src.toNat + r.ip) (s.lzd.len.toNat - r.ip))[j]? := by
    funext j
    rw [memRead_getElem?]
    exact if_congr (by omega) rfl rfl
  rw [fetchToken, hsrc, decode, memRead_length]

theorem readsToken_of_fetchToken {s : State} {r : LzRun} {i : Instr} (h : fetchToken s r = .ok i) :
    ReadsToken (runContext r) (srcByte s r) i := readsToken_of_decodeToken h

theorem lzdTick_of_cut_off {s : State} {r : LzRun} {e : DecodeError} (hr : s.lzd.run = some r)
    (hop : r.op < s.lzd.expLen.toNat) (hip : r.ip < s.lzd.len.toNat) (hf : fetchToken s r = .error e) :
    lzdTick s = .next (lzdFailed .lzInOverrun (levelFetched s r) s) := by
  simp [lzdTick, hr, Nat.not_le.mpr hop, Nat.not_le.mpr hip, hf, raiseError_withRun]

theorem step_of_run {s : State} {r : LzRun} (hr : s.lzd.run = some r) : step s = lzdTick s := by
  simp only [step, hr]

/-- Settles O52: the fetch decodes the bytes at `ip`, and the loop runs a token as `exec` does. -/
theorem stepRunsTheTokenInMemory : Obligations.StepRunsTheTokenInMemory := by
  intro s r hr hop hip
  simp only [step_of_run hr, ← fetchToken_eq_decode]
  refine ⟨fun i hi => ?token, fun e he => ?cutOff⟩
  case token =>
    rw [lzdTick_of_token hr hop hip hi, runToken_eq_exec (readsToken_of_fetchToken hi).isToken]
  case cutOff => exact lzdTick_of_cut_off hr hop hip he

/-! ## One turn of the loop -/

/-- The cursors of a decompression (spec/10_state.md R50): within the ranges; all fresh before the first token, the
level known after it. -/
structure CursorsOk (l : LzdUnit) (r : LzRun) : Prop where
  ip_le : r.ip ≤ l.len.toNat
  op_le : r.op ≤ l.expLen.toNat
  fresh : r.first = true → r = freshRun
  later : r.first = false → r.level.isSome = true

theorem cursorsOk_freshRun (l : LzdUnit) : CursorsOk l freshRun :=
  ⟨Nat.zero_le _, Nat.zero_le _, fun _ => rfl, nofun⟩

/-- With output written the first token is behind, so the level is known. -/
theorem CursorsOk.first_of_op_ne_zero {l : LzdUnit} {r : LzRun} (h : CursorsOk l r) (hop : r.op ≠ 0) :
    r.first = false := by
  by_contra hfirst
  rw [h.fresh (eq_true_of_ne_false hfirst)] at hop
  exact hop rfl

theorem runContext_eq_some_iff (r : LzRun) (l : Level) :
    runContext r = some l ↔ r.first = false ∧ r.level = some l := by
  cases hfirst : r.first <;> simp [runContext, hfirst]

theorem token_cases {i : Instr} (h : i.isToken = true) :
    (∃ mark data, i = .lit mark data) ∨ (∃ lv dv, storedPair i = some (lv, dv)) ∨ ∃ m h5, i = .lzBadlevel m h5 := by
  cases i with
  | crc32 | encEcb | encCbc | decEcb | decCbc | ciphBadmode | lzd | clear => cases h
  | lit mark data => exact .inl ⟨mark, data, rfl⟩
  | match1S | match1L | match2S | match2L | match2SF | match2LF => exact .inr (.inl ⟨_, _, rfl⟩)
  | lzBadlevel m h5 => exact .inr (.inr ⟨m, h5, rfl⟩)

/-- A match does not stand first in a stream. -/
theorem level_of_match_fits {i : Instr} {p : Nat × Nat} {r : LzRun} (hp : storedPair i = some p)
    (hfit : i.fitsContext (runContext r) = true) : r.first = false ∧ r.level.isSome = true := by
  have hctx : ∃ l, runContext r = some l := by
    cases i with
    | crc32 | encEcb | encCbc | decEcb | decCbc | ciphBadmode | lzd | clear | lit | lzBadlevel => cases hp
    | match1S | match1L => exact ⟨.one, by simpa [Instr.fitsContext] using hfit⟩
    | match2S | match2L | match2SF | match2LF => exact ⟨.two, by simpa [Instr.fitsContext] using hfit⟩
  obtain ⟨l, hl⟩ := hctx
  obtain ⟨hfirst, hlevel⟩ := (runContext_eq_some_iff r l).mp hl
  exact ⟨hfirst, by rw [hlevel]; rfl⟩

/-- After a literal run that stands in its place the level is known. -/
theorem level_of_lit_fits {mark : Option Level} {data : List Byte} {r : LzRun}
    (hfit : (Instr.lit mark data).fitsContext (runContext r) = true) : (marked mark r).level.isSome = true := by
  cases mark with
  | some l => rfl
  | none =>
    have hctx : (runContext r).isSome = true := by
      cases hc : runContext r with
      | none => rw [hc] at hfit; cases hfit
      | some l => rfl
    obtain ⟨l, hl⟩ := Option.isSome_iff_exists.mp hctx
    obtain ⟨-, hlevel⟩ := (runContext_eq_some_iff r l).mp hl
    rw [marked_none, hlevel]; rfl

/-- What token `i` makes of working state `r` and of the memory of `s`, if it passes its checks. -/
inductive TokenRuns (s : State) (r : LzRun) : Instr → LzRun → List Host.Cell → Prop
  | lit (mark : Option Level) (data : List Byte) :
      TokenRuns s r (.lit mark data) (advance (marked mark r) (1 + data.length) data.length)
        (memWrite s.mem (s.lzd.dst.toNat + r.op) data)
  | copy {i : Instr} {lv dv : Nat} (hpair : storedPair i = some (lv, dv)) (hdist : dv + 1 ≤ r.op) :
      TokenRuns s r i (advance r (tokenSize i) (lv + 2))
        (copyMatch (dv + 1) (s.lzd.dst.toNat + r.op) (lv + 2) s.mem)

namespace TokenRuns

variable {s : State} {r r' : LzRun} {i : Instr} {m : List Host.Cell}

theorem ip_eq (h : TokenRuns s r i r' m) : r'.ip = r.ip + tokenSize i := by
  cases h with
  | lit mark data => rw [advance_ip, marked_ip]; rfl
  | copy => rfl

theorem op_le (h : TokenRuns s r i r' m) : r.op ≤ r'.op := by
  cases h with
  | lit mark data => rw [advance_op, marked_op]; omega
  | copy => rw [advance_op]; omega

theorem first_eq (h : TokenRuns s r i r' m) : r'.first = false := by cases h <;> rfl

theorem level_isSome (h : TokenRuns s r i r' m) (hfit : i.fitsContext (runContext r) = true) :
    r'.level.isSome = true := by
  cases h with
  | lit mark data => exact level_of_lit_fits hfit
  | copy hpair => exact (level_of_match_fits hpair hfit).2

theorem runToken_eq (h : TokenRuns s r i r' m) (hin : r'.ip ≤ s.lzd.len.toNat) (hout : r'.op ≤ s.lzd.expLen.toNat) :
    runToken i (withRun r s) = .next (midRun s r' m) := by
  cases h with
  | lit mark data =>
    rw [advance_ip, marked_ip] at hin
    rw [advance_op, marked_op] at hout
    have hexec : execLit mark data (withRun r s) = .next (litDone (marked mark r) data (withRun r s)) :=
      execLit_of_fits mark rfl hin hout
    refine hexec.trans ?_
    cases mark <;> rfl
  | @copy _ lv dv hpair hdist =>
    have hmatch : runToken i (withRun r s) = runMatch (tokenSize i) lv dv (withRun r s) := by
      rw [runToken_eq_exec, exec_match hpair]
      cases i with
      | crc32 | encEcb | encCbc | decEcb | decCbc | ciphBadmode | lzd | clear => cases hpair
      | _ => rfl
    exact hmatch.trans (runMatch_of_fits rfl hin hout hdist)

end TokenRuns

/-- Token `i` fails in working state `r` with cause `c`, reporting `r'`; the contents of memory make no difference. A
failure reports cursors as they are, and the level if it was known. -/
structure TokenFails (s : State) (r : LzRun) (i : Instr) (c : Cause) (r' : LzRun) : Prop where
  cause : c ≠ .noCause
  addr : c ≠ .addr
  ip_eq : r'.ip = r.ip
  op_eq : r'.op = r.op
  level : r.first = false → r'.level.isSome = true
  runs : ∀ s' : State, s'.lzd = s.lzd → runToken i (withRun r s') = .next (lzdFailed c r' s')

/-- A fetched token runs, or fails one of its checks. -/
theorem token_outcome {s : State} {r : LzRun} {i : Instr} (hr : CursorsOk s.lzd r) (htoken : i.isToken = true)
    (hfit : i.fitsContext (runContext r) = true) :
    (∃ r' m, TokenRuns s r i r' m ∧ r'.ip ≤ s.lzd.len.toNat ∧ r'.op ≤ s.lzd.expLen.toNat) ∨
      ∃ c r', TokenFails s r i c r' := by
  obtain ⟨mark, data, rfl⟩ | ⟨lv, dv, hpair⟩ | ⟨m, h5, rfl⟩ := token_cases htoken
  · have hlevel : r.first = false → (marked mark r).level.isSome = true := fun _ => level_of_lit_fits hfit
    by_cases hin : s.lzd.len.toNat < r.ip + (1 + data.length)
    · exact .inr ⟨.lzInOverrun, marked mark r, by decide, by decide, marked_ip mark r, marked_op mark r, hlevel,
        fun s' hs' => execLit_of_short_input (s := withRun r s') mark rfl (by rwa [withRun_lzd, hs'])⟩
    · by_cases hout : s.lzd.expLen.toNat < r.op + data.length
      · exact .inr ⟨.lzOutOverrun, marked mark r, by decide, by decide, marked_ip mark r, marked_op mark r, hlevel,
          fun s' hs' => execLit_of_output_full (s := withRun r s') mark rfl
            (by rw [withRun_lzd, hs']; exact Nat.not_lt.mp hin) (by rwa [withRun_lzd, hs'])⟩
      · exact .inl ⟨_, _, .lit mark data, by rw [advance_ip, marked_ip]; omega, by rw [advance_op, marked_op]; omega⟩
  · have hexec : ∀ s', runToken i s' = runMatch (tokenSize i) lv dv s' :=
      fun s' => (runToken_eq_exec htoken s').trans (exec_match hpair s')
    by_cases hin : s.lzd.len.toNat < r.ip + tokenSize i
    · exact .inr ⟨.lzInOverrun, r, by decide, by decide, rfl, rfl, hr.later, fun s' hs' => (hexec _).trans
        (runMatch_of_short_input (s := withRun r s') rfl (by rwa [withRun_lzd, hs']))⟩
    · by_cases hout : s.lzd.expLen.toNat < r.op + (lv + 2)
      · exact .inr ⟨.lzOutOverrun, r, by decide, by decide, rfl, rfl, hr.later, fun s' hs' => (hexec _).trans
          (runMatch_of_output_full (s := withRun r s') rfl (by rw [withRun_lzd, hs']; exact Nat.not_lt.mp hin)
            (by rwa [withRun_lzd, hs']))⟩
      · by_cases hdist : r.op < dv + 1
        · exact .inr ⟨.lzRefUnderrun, r, by decide, by decide, rfl, rfl, hr.later, fun s' hs' => (hexec _).trans
            (runMatch_of_far_reference (s := withRun r s') rfl (by rw [withRun_lzd, hs']; exact Nat.not_lt.mp hin)
              (by rw [withRun_lzd, hs']; exact Nat.not_lt.mp hout) hdist)⟩
        · exact .inl ⟨_, _, .copy hpair (Nat.not_lt.mp hdist), by rw [advance_ip]; omega, by rw [advance_op]; omega⟩
  · exact .inr ⟨.lzLevel, r, by decide, by decide, rfl, rfl, hr.later,
      fun s' _ => exec_lzBadlevel (s := withRun r s') rfl m h5⟩

/-- State `s'` shows a decompression with working state `r` the same registers, the same token at `ip` and the same byte
there as `s`. -/
structure SameView (s s' : State) (r : LzRun) : Prop where
  lzd : s'.lzd = s.lzd
  fetch : fetchToken (withRun r s') r = fetchToken (withRun r s) r
  byte : r.ip < s.lzd.len.toNat → memGet s'.mem (s.lzd.src.toNat + r.ip) = memGet s.mem (s.lzd.src.toNat + r.ip)

/-- What one turn of the loop makes of working state `r`. A failure looks at no more than the registers and the token. -/
inductive TickResult (s : State) (r : LzRun) : State → Prop
  | success (hop : r.op = s.lzd.expLen.toNat) : TickResult s r (lzdDone r s)
  | failure (c : Cause) (r' : LzRun) (hcause : c ≠ .noCause) (haddr : c ≠ .addr) (hop : r.op < s.lzd.expLen.toNat)
      (hip' : r'.ip = r.ip) (hop' : r'.op = r.op) (hlevel : r.first = false → r'.level.isSome = true)
      (hagain : ∀ s', SameView s s' r → lzdTick (withRun r s') = .next (lzdFailed c r' s')) :
      TickResult s r (lzdFailed c r' s)
  | token {i : Instr} {r' : LzRun} {m : List Host.Cell} (hop : r.op < s.lzd.expLen.toNat)
      (hip : r.ip < s.lzd.len.toNat) (hfetch : fetchToken (withRun r s) r = .ok i) (hruns : TokenRuns s r i r' m)
      (hcursors : CursorsOk s.lzd r') : TickResult s r (midRun s r' m)

/-- A turn that fails whatever the memory behind the view is. -/
theorem tickResult_of_failure {s : State} {r : LzRun} (c : Cause) (r' : LzRun) (hcause : c ≠ .noCause)
    (haddr : c ≠ .addr) (hop : r.op < s.lzd.expLen.toNat) (hip' : r'.ip = r.ip) (hop' : r'.op = r.op)
    (hlevel : r.first = false → r'.level.isSome = true)
    (hagain : ∀ s', SameView s s' r → lzdTick (withRun r s') = .next (lzdFailed c r' s')) :
    ∃ t, lzdTick (withRun r s) = .next t ∧ TickResult s r t :=
  ⟨_, hagain s ⟨rfl, rfl, fun _ => rfl⟩, .failure c r' hcause haddr hop hip' hop' hlevel hagain⟩

/-- Every turn of the loop answers a next state, and one of three kinds. -/
theorem lzdTick_result {s : State} {r : LzRun} (hr : CursorsOk s.lzd r) :
    ∃ t, lzdTick (withRun r s) = .next t ∧ TickResult s r t := by
  by_cases hop : r.op < s.lzd.expLen.toNat
  · have hop' : ∀ {s'}, SameView s s' r → r.op < (withRun r s').lzd.expLen.toNat :=
      fun hv => by rwa [withRun_lzd, hv.lzd]
    by_cases hip : r.ip < s.lzd.len.toNat
    · have hip' : ∀ {s'}, SameView s s' r → r.ip < (withRun r s').lzd.len.toNat :=
        fun hv => by rwa [withRun_lzd, hv.lzd]
      cases hf : fetchToken (withRun r s) r with
      | ok i =>
        obtain ⟨htoken, -, hfit, -⟩ := readsToken_of_fetchToken hf
        obtain ⟨r', m, hruns, hin, hout⟩ | ⟨c, r', hcause, haddr, hipe, hope, hlevel, hfails⟩ :=
          token_outcome hr htoken hfit
        · refine ⟨_, ?_, .token hop hip hf hruns ⟨hin, hout, fun h => ?_, fun _ => hruns.level_isSome hfit⟩⟩
          · exact (lzdTick_of_token (s := withRun r s) rfl hop hip hf).trans (hruns.runToken_eq hin hout)
          · exact absurd (hruns.first_eq.symm.trans h) Bool.false_ne_true
        · exact tickResult_of_failure c r' hcause haddr hop hipe hope hlevel fun s' hv =>
            (lzdTick_of_token rfl (hop' hv) (hip' hv) (hv.fetch.trans hf)).trans (hfails s' hv.lzd)
      | error e =>
        refine tickResult_of_failure .lzInOverrun (levelFetched s r) (by decide) (by decide) hop rfl rfl
          (fun hfirst => ?_) fun s' hv => ?_
        · obtain ⟨l, hl⟩ := Option.isSome_iff_exists.mp (hr.later hfirst)
          have hctx : runContext r = some l := (runContext_eq_some_iff r l).mpr ⟨hfirst, hl⟩
          simp only [levelFetched, hctx, levelAfter]
          rfl
        · have hlevel : levelFetched (withRun r s') r = levelFetched s r := by
            simp only [levelFetched, withRun_lzd, withRun_mem, hv.lzd, hv.byte hip]
          rw [lzdTick_of_cut_off rfl (hop' hv) (hip' hv) (hv.fetch.trans hf), hlevel]
          rfl
    · refine tickResult_of_failure .lzShort r (by decide) (by decide) hop rfl rfl hr.later fun s' hv => ?_
      have hip' : (withRun r s').lzd.len.toNat ≤ r.ip := by rw [withRun_lzd, hv.lzd]; exact Nat.not_lt.mp hip
      exact lzdTick_of_no_input rfl (hop' hv) hip'
  · have hfull : s.lzd.expLen.toNat ≤ r.op := Nat.not_lt.mp hop
    exact ⟨_, lzdTick_of_complete (s := withRun r s) rfl hfull, .success (Nat.le_antisymm hr.op_le hfull)⟩

/-! ## How far a decompression has come -/

/-- From working state `r` and the memory of `s` to `r'` and memory `m`: the cursors moved on, and memory changed between
the two output cursors only. -/
structure Progress (s : State) (r r' : LzRun) (m : List Host.Cell) : Prop where
  ip_le : r.ip ≤ r'.ip
  op_le : r.op ≤ r'.op
  wf : memWf s.mem = true → memWf m = true
  same : memWf s.mem = true → sameOutside { base := s.lzd.dst.toNat + r.op, len := r'.op - r.op } s.mem m
  cells : ∀ c ∈ m, c ∈ s.mem ∨ (s.lzd.dst.toNat + r.op ≤ c.1 ∧ c.1 < s.lzd.dst.toNat + r'.op)

namespace Progress

variable {s : State} {r r' r'' : LzRun} {m m' : List Host.Cell}

/-- Cursors that stand still, with the memory as it is. -/
theorem stay (hip : r'.ip = r.ip) (hop : r'.op = r.op) : Progress s r r' s.mem :=
  ⟨hip.ge, hop.ge, id, fun _ _ _ => rfl, fun _ h => .inl h⟩

theorem trans (h : Progress s r r' m) (h' : Progress { s with mem := m } r' r'' m') : Progress s r r'' m' where
  ip_le := h.ip_le.trans h'.ip_le
  op_le := h.op_le.trans h'.op_le
  wf := fun hm => h'.wf (h.wf hm)
  same := fun hm a ha => by
    have hle := h.op_le
    have hle' := h'.op_le
    simp only [spanHas_false_iff] at ha
    rw [h'.same (h.wf hm) a ((spanHas_false_iff _ _).mpr (by simp only; omega)),
      h.same hm a ((spanHas_false_iff _ _).mpr (by simp only; omega))]
  cells := fun c hc => by
    have hle := h.op_le
    have hle' := h'.op_le
    obtain hc | hc := h'.cells c hc
    · obtain hc | hc := h.cells c hc
      · exact .inl hc
      · exact .inr ⟨hc.1, by omega⟩
    · simp only at hc
      exact .inr ⟨by omega, by omega⟩

end Progress

theorem TokenRuns.progress {s : State} {r r' : LzRun} {i : Instr} {m : List Host.Cell} (h : TokenRuns s r i r' m) :
    Progress s r r' m where
  ip_le := by rw [h.ip_eq]; omega
  op_le := h.op_le
  wf := fun hm => by
    cases h with
    | lit => exact memWf_memWrite hm _ _
    | copy => exact memWf_copyMatch _ _ hm _
  same := fun hm a ha => by
    simp only [spanHas_false_iff] at ha
    cases h with
    | lit mark data =>
      rw [advance_op, marked_op, Nat.add_sub_cancel_left] at ha
      exact memGet_memWrite_outside hm ha
    | copy =>
      rw [advance_op, Nat.add_sub_cancel_left] at ha
      exact memGet_copyMatch_outside hm ha
  cells := fun c hc => by
    cases h with
    | lit mark data => rw [advance_op, marked_op]; exact (mem_memWrite hc).imp_right fun h => ⟨h.1, by omega⟩
    | copy => rw [advance_op]; exact (mem_copyMatch hc).imp_right fun h => ⟨h.1, by omega⟩

/-! ## The end of the loop -/

/-- How the loop ends from working state `r`: the output complete, or an error with output missing. -/
inductive LoopEnd (s : State) (r : LzRun) : State → Prop
  | success {r' : LzRun} {m : List Host.Cell} (h : Progress s r r' m) (hcursors : CursorsOk s.lzd r')
      (hop : r'.op = s.lzd.expLen.toNat) : LoopEnd s r (lzdDone r' { s with mem := m })
  | failure (c : Cause) {r' : LzRun} {m : List Host.Cell} (h : Progress s r r' m) (hcause : c ≠ .noCause)
      (haddr : c ≠ .addr) (hip : r'.ip ≤ s.lzd.len.toNat) (hop : r'.op < s.lzd.expLen.toNat)
      (hlevel : r'.op ≠ 0 → r'.level.isSome = true) : LoopEnd s r (lzdFailed c r' { s with mem := m })

theorem LoopEnd.of_progress {s t : State} {r r' : LzRun} {m : List Host.Cell} (h : Progress s r r' m)
    (ht : LoopEnd { s with mem := m } r' t) : LoopEnd s r t := by
  cases ht with
  | success h' hcursors hop =>
    exact .success (h.trans h') hcursors hop
  | failure c h' hcause haddr hip hop hlevel => exact .failure c (h.trans h') hcause haddr hip hop hlevel

/-- The loop ends: every token takes at least one byte of input, and no token starts beyond the input. -/
theorem lzdLoop_ends {s : State} {r : LzRun} {fuel : Nat} (hr : CursorsOk s.lzd r)
    (hfuel : s.lzd.len.toNat - r.ip < fuel) : ∃ t, lzdLoop fuel (withRun r s) = .next t ∧ LoopEnd s r t := by
  induction fuel generalizing s r with
  | zero => omega
  | succ fuel ih =>
    obtain ⟨t, htick, hresult⟩ := lzdTick_result hr
    cases hresult with
    | success hop => exact ⟨_, lzdLoop_of_end fuel htick rfl, .success (m := s.mem) (.stay rfl rfl) hr hop⟩
    | failure c r' hcause haddr hop hip' hop' hlevel _ =>
      refine ⟨_, lzdLoop_of_end fuel htick rfl, .failure c (m := s.mem) (.stay hip' hop') hcause haddr
        (hip' ▸ hr.ip_le) (hop' ▸ hop) fun hne => hlevel (hr.first_of_op_ne_zero (hop' ▸ hne))⟩
    | @token i r' m hop _ hfetch hruns hcursors =>
      obtain ⟨htoken, hw, -, -⟩ := readsToken_of_fetchToken hfetch
      have hpos := tokenSize_pos htoken hw
      have hip := hruns.ip_eq
      have hle := hcursors.ip_le
      obtain ⟨t, hloop, hend⟩ := ih (s := { s with mem := m }) hcursors (by simp only; omega)
      exact ⟨t, (lzdLoop_of_continue fuel htick rfl).trans hloop, .of_progress hruns.progress hend⟩

/-! ## The completion step -/

/-- A ready LZD unit completes, and how. -/
theorem exec_lzd_ends {s : State} (h : lzdReady s = true) :
    ∃ t, exec (.lzd .complete) s = .next t ∧ LoopEnd s freshRun t := by
  rw [exec_lzd_of_ready h]
  exact lzdLoop_ends (cursorsOk_freshRun s.lzd) (by simp only [freshRun]; omega)

/-- A busy LZD unit without a clash is ready, or ends with ADDR. -/
theorem exec_lzd_of_no_clash {s : State} (hb : unitBusy s .lzd = true) (hc : unitClash s .lzd = false) :
    exec (.lzd .complete) s = .next (lzdFailed .addr freshRun s) ∨ lzdReady s = true := by
  by_cases hready : lzdReady s = true
  · exact .inr hready
  · refine .inl (completeLzd_of_bad_ranges hb ?_)
    simpa [lzdReady_iff, hb, hc, imp_iff_not_or] using hready

/-- Everything the completion step of LZD can answer. -/
theorem exec_lzd_next {s t : State} (h : exec (.lzd .complete) s = .next t) :
    unitBusy s .lzd = true ∧
      (t = lzdFailed .addr freshRun s ∨ (lzdReady s = true ∧ LoopEnd s freshRun t)) := by
  obtain ⟨hb, ⟨-, rfl⟩ | ⟨hrd, hwr, hmeet, hc, -⟩⟩ := completeLzd_next h
  · exact ⟨hb, .inl rfl⟩
  · have hready := (lzdReady_iff s).mpr ⟨hb, hrd, hwr, hmeet, hc⟩
    obtain ⟨t', ht', hend⟩ := exec_lzd_ends hready
    rw [h] at ht'
    cases ht'
    exact ⟨hb, .inr ⟨hready, hend⟩⟩

theorem toNat_ofNat_of_le {n : Nat} {w : Word} (h : n ≤ w.toNat) : (BitVec.ofNat 32 n).toNat = n := by
  have hw := w.isLt
  exact (BitVec.toNat_ofNat _ _).trans (Nat.mod_eq_of_lt (by omega))

theorem statusOk_failedStatus {c : Cause} (hc : c ≠ .noCause) (level : Option Level) :
    statusOk (failedStatus c level) = true := by
  cases c with
  | noCause => exact absurd rfl hc
  | _ => cases level <;> rfl

theorem statusOk_doneStatus (level : Option Level) : statusOk (doneStatus level) = true := by
  cases level <;> rfl

/-- What every decompression leaves in the registers (spec/44_lz_decompressor.md R223, R249, R250). -/
structure Finished (s t : State) : Prop where
  run : t.lzd.run = none
  busy : t.lzd.status.busy = false
  done : t.lzd.status.done = true
  ok : statusOk t.lzd.status = true
  complete : t.lzd.status.err = false → t.lzd.outLen = s.lzd.expLen
  short : t.lzd.status.err = true → t.lzd.status.cause ≠ .addr → t.lzd.outLen.toNat < s.lzd.expLen.toNat
  inUsed_le : t.lzd.inUsed.toNat ≤ s.lzd.len.toNat
  level : t.lzd.outLen ≠ 0 → t.lzd.status.level.isSome = true

theorem finished_addr (s : State) : Finished s (lzdFailed .addr freshRun s) :=
  ⟨rfl, rfl, rfl, rfl, nofun, fun _ h => absurd rfl h, Nat.zero_le _, fun h => absurd rfl h⟩

theorem ofNat_ne_zero_imp {n : Nat} (h : BitVec.ofNat 32 n ≠ 0) : n ≠ 0 := by
  rintro rfl
  exact h rfl

theorem LoopEnd.finished {s t : State} {r : LzRun} (h : LoopEnd s r t) : Finished s t := by
  cases h with
  | @success r' m h hcursors hop =>
    refine ⟨rfl, rfl, rfl, statusOk_doneStatus _, fun _ => ?_, nofun, ?_, fun hne => ?_⟩
    · apply BitVec.eq_of_toNat_eq
      exact (toNat_ofNat_of_le hcursors.op_le).trans hop
    · exact (toNat_ofNat_of_le hcursors.ip_le).trans_le hcursors.ip_le
    · exact hcursors.later (hcursors.first_of_op_ne_zero (ofNat_ne_zero_imp hne))
  | @failure c r' m h hcause haddr hip hop hlevel =>
    refine ⟨rfl, rfl, rfl, statusOk_failedStatus hcause _, nofun, fun _ _ => ?_, ?_, fun hne => ?_⟩
    · exact (toNat_ofNat_of_le hop.le).trans_lt hop
    · exact (toNat_ofNat_of_le hip).trans_le hip
    · exact hlevel (ofNat_ne_zero_imp hne)

theorem finished_of_exec_lzd {s t : State} (h : exec (.lzd .complete) s = .next t) : Finished s t := by
  obtain ⟨-, rfl | ⟨-, hend⟩⟩ := exec_lzd_next h
  · exact finished_addr s
  · exact hend.finished

/-- Settles O31: the address checks fail, or the loop ends. -/
theorem lzdAlwaysFinishes : Obligations.LzdAlwaysFinishes := by
  intro s hb hc
  have hnext : ∃ t, exec (.lzd .complete) s = .next t := by
    obtain haddr | hready := exec_lzd_of_no_clash hb hc
    · exact ⟨_, haddr⟩
    · obtain ⟨t, ht, -⟩ := exec_lzd_ends hready
      exact ⟨t, ht⟩
  obtain ⟨t, ht⟩ := hnext
  obtain ⟨hrun, hbusy, hdone, hok, hcomplete, hshort, hin, hlevel⟩ := finished_of_exec_lzd ht
  exact ⟨t, ht, hrun, hbusy, hdone, hok, hcomplete, hshort, hin, hlevel⟩

/-- A decompression changes no byte outside the output it reports. -/
theorem LoopEnd.sameOutside_output {s t : State} (hm : memWf s.mem = true) (h : LoopEnd s freshRun t) :
    sameOutside { base := s.lzd.dst.toNat, len := t.lzd.outLen.toNat } s.mem t.mem := by
  cases h with
  | @success r' m h hcursors hop =>
    have hlen : (lzdDone r' { s with mem := m }).lzd.outLen.toNat = r'.op := toNat_ofNat_of_le hcursors.op_le
    rw [hlen]
    exact h.same hm
  | @failure c r' m h hcause haddr hip hop hlevel =>
    have hlen : (lzdFailed c r' { s with mem := m }).lzd.outLen.toNat = r'.op := toNat_ofNat_of_le hop.le
    rw [hlen]
    exact h.same hm

theorem LoopEnd.frame {s t : State} {r : LzRun} (h : LoopEnd s r t) : sameButLzd s t ∧ sameLzdDescriptors s t := by
  cases h <;> exact ⟨rfl, rfl, rfl, rfl, rfl, rfl⟩

/-- Settles O32: the loop writes up to its output cursor, which OUT_LEN reports; an address error writes nothing. -/
theorem lzdWritesOnlyItsOutput : Obligations.LzdWritesOnlyItsOutput := by
  intro s t hm h
  obtain ⟨-, rfl | ⟨-, hend⟩⟩ := exec_lzd_next h
  · exact ⟨fun _ _ => rfl, rfl, rfl, rfl, rfl, rfl, rfl⟩
  · exact ⟨hend.sameOutside_output hm, hend.frame⟩

/-! ## The loop as steps of the machine -/

/-- Each turn of the loop is a step of the machine. -/
theorem stepsTo_of_lzdLoop {fuel : Nat} {s t : State} {r : LzRun} (hr : s.lzd.run = some r)
    (h : lzdLoop fuel s = .next t) : ∃ n, stepsTo n s t := by
  induction fuel generalizing s r with
  | zero => cases h; exact ⟨0, rfl⟩
  | succ fuel ih =>
    rw [lzdLoop] at h
    split at h
    · rename_i u htick
      have hstep : step s = .next u := (step_of_run hr).trans htick
      split at h
      · cases h
        exact ⟨1, t, hstep, rfl⟩
      · rename_i r' hr'
        obtain ⟨n, hn⟩ := ih hr' h
        exact ⟨n + 1, u, hstep, hn⟩
    · cases h
    · cases h

/-- Settles O33. -/
theorem lzdIsItsTokenSteps : Obligations.LzdIsItsTokenSteps := by
  intro s hready
  obtain ⟨t, ht, -⟩ := exec_lzd_ends hready
  have hloop := ht
  rw [exec_lzd_of_ready hready] at hloop
  obtain ⟨n, hn⟩ := stepsTo_of_lzdLoop (r := freshRun) rfl hloop
  exact ⟨t, n, ht, hn⟩

/-! ## Bytes that make no difference

Two states with the same LZD registers, whose memories agree at some addresses: if those are the output range and the
input (or, for a decompression that succeeds, the input it uses), the loop does the same in both. -/

/-- Two memories agree at the addresses of `P`. -/
def AgreeOn (P : Nat → Prop) (m m' : List Host.Cell) : Prop := ∀ a, P a → memGet m' a = memGet m a

section Agree

variable {P : Nat → Prop} {m m' : List Host.Cell}

theorem AgreeOn.memPut (hm : memWf m = true) (hm' : memWf m' = true) (h : AgreeOn P m m') (a : Nat) (v : Byte) :
    AgreeOn P (memPut m a v) (memPut m' a v) := by
  intro b hb
  rw [memGet_memPut hm, memGet_memPut hm', h b hb]

theorem AgreeOn.memWrite (hm : memWf m = true) (hm' : memWf m' = true) (h : AgreeOn P m m') (a : Nat)
    (bs : List Byte) : AgreeOn P (memWrite m a bs) (memWrite m' a bs) := by
  intro b hb
  rw [memGet_memWrite hm, memGet_memWrite hm', h b hb]

/-- A copy whose source is in `P`. -/
theorem AgreeOn.copyMatch {dist n a : Nat} (hm : memWf m = true) (hm' : memWf m' = true) (h : AgreeOn P m m')
    (hsrc : ∀ k < n, P (a + k - dist)) : AgreeOn P (copyMatch dist a n m) (copyMatch dist a n m') := by
  induction n generalizing a m m' with
  | zero => exact h
  | succ n ih =>
    rw [Machine.copyMatch, Machine.copyMatch, h (a - dist) (hsrc 0 n.succ_pos)]
    refine ih (memWf_memPut hm _ _) (memWf_memPut hm' _ _) (h.memPut hm hm' _ _) fun k hk => ?_
    rw [show a + 1 + k - dist = a + (k + 1) - dist by omega]
    exact hsrc (k + 1) (by omega)

theorem AgreeOn.memRead {a n : Nat} (h : AgreeOn P m m') (hP : ∀ b, a ≤ b → b < a + n → P b) :
    memRead m' a n = memRead m a n := memRead_congr fun b hlo hhi => h b (hP b hlo hhi)

end Agree

theorem reads_congr {rd rd' : Nat → Option Byte} {pos : Nat} {bs : List Byte}
    (h : ∀ j, pos ≤ j → j < pos + bs.length → rd' j = rd j) (hrd : Reads rd pos bs) : Reads rd' pos bs := by
  induction bs generalizing pos with
  | nil => trivial
  | cons b bs ih =>
    rw [List.length_cons] at h
    obtain ⟨hb, hbs⟩ := hrd
    exact ⟨(h pos (by omega) (by omega)).trans hb, ih (fun j h1 h2 => h j (by omega) (by omega)) hbs⟩

section OtherMemory

variable {s s' : State} {P : Nat → Prop}

theorem srcByte_withRun (s : State) (r : LzRun) (j : Nat) : srcByte (withRun r s) r j =
    if r.ip + j < s.lzd.len.toNat then some (memGet s.mem (s.lzd.src.toNat + r.ip + j)) else none := rfl

theorem srcByte_of_agreeOn {r : LzRun} {j : Nat} (hlzd : s'.lzd = s.lzd) (h : AgreeOn P s.mem s'.mem)
    (hP : r.ip + j < s.lzd.len.toNat → P (s.lzd.src.toNat + (r.ip + j))) :
    srcByte (withRun r s') r j = srcByte (withRun r s) r j := by
  rw [srcByte_withRun, srcByte_withRun, hlzd]
  by_cases hj : r.ip + j < s.lzd.len.toNat
  · rw [if_pos hj, if_pos hj, Nat.add_assoc, h _ (hP hj)]
  · rw [if_neg hj, if_neg hj]

/-- With the whole input in `P` the view is the same. -/
theorem sameView_of_agreeOn {r : LzRun} (hlzd : s'.lzd = s.lzd) (h : AgreeOn P s.mem s'.mem)
    (hP : ∀ a, spanHas (lzdClaim s).rd a = true → P a) : SameView s s' r := by
  have hin : ∀ {k}, k < s.lzd.len.toNat → P (s.lzd.src.toNat + k) := fun hk => by
    refine hP _ ((spanHas_iff _ _).mpr ?_)
    simp only [lzdClaim, spanOf_base, spanOf_len]
    omega
  refine ⟨hlzd, ?_, fun hip => h _ (hin hip)⟩
  have hrd : srcByte (withRun r s') r = srcByte (withRun r s) r := funext fun j => srcByte_of_agreeOn hlzd h hin
  simp only [fetchToken, hrd, withRun_lzd, hlzd]

/-- A token fetched from bytes in `P` is fetched from the other memory too. -/
theorem fetchToken_of_agreeOn {r : LzRun} {i : Instr} (hlzd : s'.lzd = s.lzd) (h : AgreeOn P s.mem s'.mem)
    (hfetch : fetchToken (withRun r s) r = .ok i) (hin : r.ip + tokenSize i ≤ s.lzd.len.toNat)
    (hP : ∀ k < r.ip + tokenSize i, P (s.lzd.src.toNat + k)) : fetchToken (withRun r s') r = .ok i := by
  obtain ⟨htoken, hw, hfit, hreads⟩ := readsToken_of_fetchToken hfetch
  refine decodeToken_of_reads htoken hw hfit (reads_congr (fun j _ hj => ?_) hreads)
    (by rw [withRun_lzd, hlzd]; simp only; omega)
  rw [tokenBytes_length] at hj
  exact srcByte_of_agreeOn hlzd h fun _ => hP _ (by omega)

/-- A token does the same to the other memory, as far as `P` goes. -/
theorem TokenRuns.of_agreeOn {r r' : LzRun} {i : Instr} {m : List Host.Cell} (hruns : TokenRuns s r i r' m)
    (hlzd : s'.lzd = s.lzd) (hwf : memWf s.mem = true) (hwf' : memWf s'.mem = true) (h : AgreeOn P s.mem s'.mem)
    (hP : ∀ a, spanHas (lzdClaim s).wr a = true → P a) (hout : r'.op ≤ s.lzd.expLen.toNat) :
    ∃ m', TokenRuns s' r i r' m' ∧ AgreeOn P m m' := by
  cases hruns with
  | lit mark data => exact ⟨_, .lit mark data, by rw [hlzd]; exact h.memWrite hwf hwf' _ _⟩
  | copy hpair hdist =>
    rw [advance_op] at hout
    refine ⟨_, .copy hpair hdist, ?_⟩
    rw [hlzd]
    refine h.copyMatch hwf hwf' fun k hk => hP _ ((spanHas_iff _ _).mpr ?_)
    simp only [lzdClaim, spanOf_base, spanOf_len]
    omega

theorem LoopEnd.ip_le_inUsed {t : State} {r : LzRun} (h : LoopEnd s r t) : r.ip ≤ t.lzd.inUsed.toNat := by
  cases h with
  | @success r' m h hcursors hop => exact h.ip_le.trans (toNat_ofNat_of_le hcursors.ip_le).ge
  | @failure c r' m h hcause haddr hip hop hlevel => exact h.ip_le.trans (toNat_ofNat_of_le hip).ge

/-- The loop does the same in the other memory. -/
theorem lzdLoop_of_agreeOn {t : State} {r : LzRun} {fuel : Nat} (hr : CursorsOk s.lzd r)
    (hfuel : s.lzd.len.toNat - r.ip < fuel) (hlzd : s'.lzd = s.lzd) (hwf : memWf s.mem = true)
    (hwf' : memWf s'.mem = true) (h : AgreeOn P s.mem s'.mem) (hwr : ∀ a, spanHas (lzdClaim s).wr a = true → P a)
    (hrd : (∀ a, spanHas (lzdClaim s).rd a = true → P a) ∨
      t.lzd.status.err = false ∧ ∀ k < t.lzd.inUsed.toNat, P (s.lzd.src.toNat + k))
    (hloop : lzdLoop fuel (withRun r s) = .next t) :
    ∃ t', lzdLoop fuel (withRun r s') = .next t' ∧ t'.lzd = t.lzd ∧ AgreeOn P t.mem t'.mem := by
  induction fuel generalizing s s' r with
  | zero => omega
  | succ fuel ih =>
    obtain ⟨u, htick, hresult⟩ := lzdTick_result hr
    cases hresult with
    | success hop =>
      cases (lzdLoop_of_end fuel htick rfl).symm.trans hloop
      have htick' : lzdTick (withRun r s') = .next (lzdDone r (withRun r s')) :=
        lzdTick_of_complete rfl (by rw [withRun_lzd, hlzd]; exact hop.ge)
      exact ⟨_, lzdLoop_of_end fuel htick' rfl, by simp only [lzdDone_lzd, withRun_lzd, hlzd], h⟩
    | failure c r' _ _ _ _ _ _ hagain =>
      cases (lzdLoop_of_end fuel htick rfl).symm.trans hloop
      obtain hrd | ⟨hok, -⟩ := hrd
      · have htick' := hagain s' (sameView_of_agreeOn hlzd h hrd)
        exact ⟨_, lzdLoop_of_end fuel htick' rfl, by simp only [lzdFailed, hlzd], h⟩
      · cases hok
    | @token i r' m hop hip hfetch hruns hcursors =>
      rw [lzdLoop_of_continue fuel htick rfl] at hloop
      obtain ⟨htoken, hw, -, -⟩ := readsToken_of_fetchToken hfetch
      have hpos := tokenSize_pos htoken hw
      have hsize := hruns.ip_eq
      have hle := hcursors.ip_le
      have hfuel₁ : s.lzd.len.toNat - r'.ip < fuel := by omega
      have hused : r'.ip ≤ t.lzd.inUsed.toNat := by
        obtain ⟨t', ht', hend⟩ := lzdLoop_ends (s := { s with mem := m }) hcursors hfuel₁
        cases hloop.symm.trans ht'
        exact hend.ip_le_inUsed
      have hread : ∀ k < r.ip + tokenSize i, P (s.lzd.src.toNat + k) := fun k hk => by
        obtain hrd | ⟨-, hrd⟩ := hrd
        · refine hrd _ ((spanHas_iff _ _).mpr ?_)
          simp only [lzdClaim, spanOf_base, spanOf_len]
          omega
        · exact hrd k (by omega)
      have hfetch' := fetchToken_of_agreeOn hlzd h hfetch (by omega) hread
      obtain ⟨m', hruns', h₁⟩ := hruns.of_agreeOn hlzd hwf hwf' h hwr hcursors.op_le
      have htick' : lzdTick (withRun r s') = .next (midRun s' r' m') :=
        (lzdTick_of_token rfl (by rwa [withRun_lzd, hlzd]) (by rwa [withRun_lzd, hlzd]) hfetch').trans
          (hruns'.runToken_eq (by rwa [hlzd]) (by rw [hlzd]; exact hcursors.op_le))
      obtain ⟨t', hloop', hsame, hmem⟩ := ih (s := { s with mem := m }) (s' := { s' with mem := m' }) hcursors hfuel₁ hlzd
        (hruns.progress.wf hwf) (hruns'.progress.wf hwf') h₁ hwr hrd hloop
      exact ⟨t', (lzdLoop_of_continue fuel htick' rfl).trans hloop', hsame, hmem⟩

end OtherMemory

/-- An address in the output range is not in the input range. -/
theorem input_of_output_eq_false {s : State} (h : lzdReady s = true) {a : Nat}
    (ha : spanHas (lzdClaim s).wr a = true) : spanHas (lzdClaim s).rd a = false := by
  obtain ⟨-, -, -, hmeet, -⟩ := (lzdReady_iff s).mp h
  by_contra hrd
  exact absurd (spansMeet_of_spanHas (eq_true_of_ne_false hrd) ha) (ne_true_of_eq_false hmeet)

/-- Settles O35: the two memories agree but for the input after the bytes that were used. -/
theorem trailingInputIsIgnored : Obligations.TrailingInputIsIgnored := by
  intro s t m hwf hwf' hexec hok hsame
  obtain ⟨-, rfl | ⟨hready, hend⟩⟩ := exec_lzd_next hexec
  · cases hok
  · have hready' : lzdReady { s with mem := m } = true := hready
    have hwr : ∀ a, spanHas (lzdClaim s).wr a = true →
        a < s.lzd.src.toNat + t.lzd.inUsed.toNat ∨ s.lzd.src.toNat + s.lzd.len.toNat ≤ a := fun a ha => by
      have hout := (spanHas_false_iff _ _).mp (input_of_output_eq_false hready ha)
      simp only [lzdClaim, spanOf_base, spanOf_len] at hout
      omega
    rw [exec_lzd_of_ready hready] at hexec
    obtain ⟨t', ht', hlzd, hmem⟩ := lzdLoop_of_agreeOn (s' := { s with mem := m }) (cursorsOk_freshRun s.lzd)
      (by simp only [freshRun]; omega) rfl hwf hwf' hsame hwr (.inr ⟨hok, fun k hk => .inl (by omega)⟩) hexec
    refine ⟨t', (exec_lzd_of_ready hready').trans ht', hlzd, hmem.memRead fun a hlo hhi => hwr a ?_⟩
    rw [spanHas_iff]
    exact ⟨hlo, hhi⟩

end Machine

end Sys2Proof
end

section
/-! The host's accesses (spec/10_state.md, spec/20_memory.md, spec/40_commands.md): the register window register by
register, buffer memory and who owns it, RESET, and what a step does with the next event. -/

namespace Sys2Proof

/-! ## Numbered registers -/

theorem Quad.get_set {α : Type} (a : Quad α) (i j : Fin 4) (x : α) :
    (a.set i x).get j = if j = i then x else a.get j := by
  fin_cases i <;> fin_cases j <;> rfl

theorem Oct.get_set {α : Type} (a : Oct α) (i j : Fin 8) (x : α) :
    (a.set i x).get j = if j = i then x else a.get j := by
  fin_cases i <;> fin_cases j <;> rfl

namespace Machine

/-! ## The register map -/

/-- The offset of a register (spec/10_state.md R23). -/
def regOffset : Reg → Nat
  | .crcCtrl => 0x000
  | .crcStatus => 0x004
  | .crcSrc => 0x008
  | .crcLen => 0x00C
  | .crcResult => 0x010
  | .ciphCtrl => 0x100
  | .ciphStatus => 0x104
  | .ciphSrc => 0x108
  | .ciphLen => 0x10C
  | .ciphDst => 0x110
  | .ciphMode => 0x114
  | .ciphKey i => 0x120 + 4 * i.val
  | .ciphIv i => 0x140 + 4 * i.val
  | .lzdCtrl => 0x200
  | .lzdStatus => 0x204
  | .lzdSrc => 0x208
  | .lzdLen => 0x20C
  | .lzdDst => 0x210
  | .lzdExpLen => 0x214
  | .lzdOutLen => 0x218
  | .lzdInUsed => 0x21C
  | .blkId => 0x300

theorem regAt_regOffset (r : Reg) : regAt (regOffset r) = some r := by
  cases r with
  | ciphKey i => fin_cases i <;> rfl
  | ciphIv i => fin_cases i <;> rfl
  | _ => rfl

/-- The map is a list of pairs of an offset and its register. -/
theorem regOffset_of_mem_regMap : ∀ p ∈ regMap, p.1 = regOffset p.2 := by decide

theorem mem_of_lookup_eq_some {α β : Type} [BEq α] [LawfulBEq α] {l : List (α × β)} {a : α} {b : β}
    (h : l.lookup a = some b) : (a, b) ∈ l := by
  obtain ⟨l₁, l₂, rfl, -⟩ := List.lookup_eq_some_iff.mp h
  simp

/-- Offsets and registers determine each other. -/
theorem regAt_eq_some_iff (off : Nat) (r : Reg) : regAt off = some r ↔ off = regOffset r :=
  ⟨fun h => regOffset_of_mem_regMap _ (mem_of_lookup_eq_some h), fun h => h ▸ regAt_regOffset r⟩

theorem readOffset_of_regAt {off : Nat} {r : Reg} (h : regAt off = some r) (s : State) :
    readOffset s off = regValue s r := by
  simp only [readOffset, h]

theorem readOffset_of_reserved {off : Nat} (h : regAt off = none) (s : State) : readOffset s off = 0 := by
  simp only [readOffset, h]

/-- Two states whose registers read the same read the same at every offset. -/
theorem readOffset_congr {s t : State} (h : ∀ r, regValue t r = regValue s r) (off : Nat) :
    readOffset t off = readOffset s off := by
  unfold readOffset
  split
  · exact h _
  · rfl

/-! ## Register reads -/

/-- A read puts the word on the bus; a read of STATUS with DONE = 1 also gives the unit's buffers back. -/
theorem readRegister_cases (off : Nat) (s : State) :
    (∃ u, statusUnit off = some u ∧ (unitStatus s u).done = true ∧
      readRegister off s = releaseClaims u { s with busData := readOffset s off }) ∨
    ((∀ u, statusUnit off = some u → (unitStatus s u).done = false) ∧
      readRegister off s = { s with busData := readOffset s off }) := by
  unfold readRegister
  cases hu : statusUnit off with
  | none => exact .inr ⟨nofun, rfl⟩
  | some u =>
    cases hd : (unitStatus s u).done with
    | true => exact .inl ⟨u, rfl, hd, by simp [hd]⟩
    | false => exact .inr ⟨fun u' h => by cases h; exact hd, by simp [hd]⟩

theorem regValue_releaseClaims (u : UnitId) (s : State) (r : Reg) :
    regValue (releaseClaims u s) r = regValue s r := by
  cases u <;> cases r <;> rfl

theorem regValue_withBusData (s : State) (w : Word) (r : Reg) : regValue { s with busData := w } r = regValue s r := by
  cases r <;> rfl

theorem readOffset_readRegister (off : Nat) (s : State) (off' : Nat) :
    readOffset (readRegister off s) off' = readOffset s off' := by
  refine readOffset_congr (fun r => ?_) off'
  obtain ⟨u, -, -, h⟩ | ⟨-, h⟩ := readRegister_cases off s
  · rw [h, regValue_releaseClaims, regValue_withBusData]
  · rw [h, regValue_withBusData]

theorem unitClaims_readRegister (off : Nat) (s : State) (v : UnitId) :
    unitClaims (readRegister off s) v =
      if statusUnit off = some v ∧ (unitStatus s v).done = true then [] else unitClaims s v := by
  obtain ⟨u, hu, hd, h⟩ | ⟨hd, h⟩ := readRegister_cases off s
  · rw [h, unitClaims_releaseClaims, hu]
    by_cases hv : v = u
    · subst hv
      rw [if_pos rfl, if_pos ⟨rfl, hd⟩]
    · rw [if_neg hv, if_neg fun hcon => hv (Option.some.inj hcon.1).symm]
      cases v <;> rfl
  · rw [h, if_neg fun hcon => by rw [hd v hcon.1] at hcon; exact Bool.false_ne_true hcon.2]
    cases v <;> rfl

@[simp] theorem releaseClaims_ciph_key (u : UnitId) (s : State) : (releaseClaims u s).ciph.key = s.ciph.key := by
  cases u <;> rfl

@[simp] theorem releaseClaims_lzd_run (u : UnitId) (s : State) : (releaseClaims u s).lzd.run = s.lzd.run := by
  cases u <;> rfl

theorem readRegister_ciph_key (off : Nat) (s : State) : (readRegister off s).ciph.key = s.ciph.key := by
  obtain ⟨u, -, -, h⟩ | ⟨-, h⟩ := readRegister_cases off s <;> simp [h]

theorem readRegister_lzd_run (off : Nat) (s : State) : (readRegister off s).lzd.run = s.lzd.run := by
  obtain ⟨u, -, -, h⟩ | ⟨-, h⟩ := readRegister_cases off s <;> simp [h]

/-- Settles O43. -/
theorem registerReadChangesNoRegister : Obligations.RegisterReadChangesNoRegister := fun s off hlegal =>
  ⟨readRegister off s, hostRead_of_legal hlegal s, readRegister_busData off s, readOffset_readRegister off s,
    readRegister_ciph_key off s, readRegister_mem off s, readRegister_lzd_run off s, readRegister_memSize off s,
    readRegister_prim off s, readRegister_inputs off s, readRegister_memData off s, readRegister_resets off s,
    unitClaims_readRegister off s⟩

/-- The state with another key in the CIPH registers. -/
def withKey (key : Oct Word) (s : State) : State := { s with ciph := { s.ciph with key := key } }

theorem regValue_withKey (key : Oct Word) (s : State) (r : Reg) : regValue (withKey key s) r = regValue s r := by
  cases r <;> rfl

theorem unitStatus_withKey (key : Oct Word) (s : State) (u : UnitId) :
    unitStatus (withKey key s) u = unitStatus s u := by
  cases u <;> rfl

/-- A read does not look at the key. -/
theorem readRegister_withKey (off : Nat) (key : Oct Word) (s : State) :
    readRegister off (withKey key s) = withKey key (readRegister off s) := by
  have hword : readOffset (withKey key s) off = readOffset s off := readOffset_congr (regValue_withKey key s) off
  unfold readRegister
  cases hu : statusUnit off with
  | none => simp only [hword]; rfl
  | some u =>
    simp only [hword, unitStatus_withKey]
    split
    · cases u <;> rfl
    · rfl

/-- Settles O41. -/
theorem readsNeverShowTheKey : Obligations.ReadsNeverShowTheKey := by
  intro s key width off t h
  obtain ⟨hlegal, rfl⟩ := hostRead_next h
  exact (hostRead_of_legal hlegal (withKey key s)).trans (congrArg _ (readRegister_withKey off key s))

/-! ## Register writes -/

/-- The read-write registers (spec/10_state.md R23). -/
def isReadWrite : Reg → Bool
  | .crcSrc | .crcLen | .ciphSrc | .ciphLen | .ciphDst | .ciphMode | .ciphIv _ | .lzdSrc | .lzdLen | .lzdDst
  | .lzdExpLen => true
  | _ => false

theorem regOffset_mem_rwOffsets_iff (r : Reg) : regOffset r ∈ rwOffsets ↔ isReadWrite r = true := by
  cases r with
  | ciphKey i => fin_cases i <;> decide
  | ciphIv i => fin_cases i <;> decide
  | _ => decide

/-- What a read-write register holds after a write (spec/40_commands.md R131). -/
theorem regValue_setReg_same {r : Reg} (h : isReadWrite r = true) (v : Word) (s : State) :
    regValue (setReg r v s) r = if regOffset r = 0x114 then v &&& 0x103 else v := by
  cases r with
  | ciphIv i =>
    have hne : regOffset (.ciphIv i) ≠ 0x114 := by simp only [regOffset]; omega
    rw [if_neg hne]
    exact (Quad.get_set s.ciph.iv i i v).trans (if_pos rfl)
  | crcSrc | crcLen | ciphSrc | ciphLen | ciphDst | ciphMode | lzdSrc | lzdLen | lzdDst | lzdExpLen => rfl
  | crcCtrl | crcStatus | crcResult | ciphCtrl | ciphStatus | ciphKey | lzdCtrl | lzdStatus | lzdOutLen | lzdInUsed
  | blkId => cases h

/-- A write changes what no other register reads as, and nothing that reads if the register is not read-write. -/
theorem regValue_setReg_other {r r' : Reg} (h : r' = r → isReadWrite r = false) (v : Word) (s : State) :
    regValue (setReg r v s) r' = regValue s r' := by
  cases r with
  | crcCtrl | crcStatus | crcResult | ciphCtrl | ciphStatus | lzdCtrl | lzdStatus | lzdOutLen | lzdInUsed
  | blkId => rfl
  | ciphKey i => cases r' <;> rfl
  | ciphIv i =>
    cases r' with
    | ciphIv j => exact (Quad.get_set s.ciph.iv i j v).trans (if_neg fun hj : j = i => absurd (h (congrArg Reg.ciphIv hj)) nofun)
    | _ => rfl
  | crcSrc | crcLen | ciphSrc | ciphLen | ciphDst | ciphMode | lzdSrc | lzdLen | lzdDst | lzdExpLen =>
    -- Every register but `r` itself reads a field that the write leaves alone.
    cases r' <;> first | rfl | cases h rfl

/-- What a write at an offset can do: nothing, or write the register there, its unit not busy. -/
theorem writeOffset_cases (off : Nat) (v : Word) (s : State) :
    writeOffset off v s = s ∨
      ∃ r, regAt off = some r ∧ writeLocked s off = false ∧ writeOffset off v s = setReg r v s := by
  unfold writeOffset
  cases hl : writeLocked s off with
  | true => exact .inl rfl
  | false =>
    cases hr : regAt off with
    | none => exact .inl rfl
    | some r => exact .inr ⟨r, rfl, rfl, rfl⟩

theorem writeOffset_of_regAt {off : Nat} {r : Reg} {s : State} (hr : regAt off = some r)
    (hl : writeLocked s off = false) (v : Word) : writeOffset off v s = setReg r v s := by
  simp [writeOffset, hl, hr]

theorem writeOffset_of_reserved {off : Nat} (hr : regAt off = none) (v : Word) (s : State) :
    writeOffset off v s = s := by
  simp [writeOffset, hr]

theorem readOffset_writeOffset {off : Nat} {s : State} (hl : writeLocked s off = false) (v : Word) (off' : Nat) :
    readOffset (writeOffset off v s) off' =
      if off' = off ∧ off ∈ rwOffsets then (if off = 0x114 then v &&& 0x103 else v) else readOffset s off' := by
  cases hr : regAt off with
  | none =>
    have hnot : off ∉ rwOffsets := fun hmem => by
      have hall : ∀ o ∈ rwOffsets, regAt o ≠ none := by decide
      exact hall off hmem hr
    rw [writeOffset_of_reserved hr, if_neg fun h => hnot h.2]
  | some r =>
    obtain rfl := (regAt_eq_some_iff off r).mp hr
    simp only [writeOffset_of_regAt hr hl, regOffset_mem_rwOffsets_iff]
    by_cases h : off' = regOffset r ∧ isReadWrite r = true
    · obtain ⟨rfl, hrw⟩ := h
      rw [if_pos ⟨rfl, hrw⟩, readOffset_of_regAt hr, regValue_setReg_same hrw]
    · rw [if_neg h]
      cases hr' : regAt off' with
      | none => rw [readOffset_of_reserved hr', readOffset_of_reserved hr']
      | some r' =>
        rw [readOffset_of_regAt hr', readOffset_of_regAt hr']
        refine regValue_setReg_other (fun heq => eq_false_of_ne_true fun hrw => h ⟨?_, hrw⟩) v s
        rw [(regAt_eq_some_iff off' r').mp hr', heq]

/-- Settles O44. -/
theorem registerWriteReadsBack : Obligations.RegisterWriteReadsBack := fun s off v hlegal hctrl hlock =>
  ⟨writeOffset off v s, hostWrite_of_not_ctrl hlegal hctrl v s, writeOffset_mem off v s,
    readOffset_writeOffset hlock v⟩

/-- The key registers lie in the window, in CIPH's region, and are no CTRL ports. -/
theorem key_offset_facts (i : Fin 8) : legalAccess 32 (0x120 + 4 * i.val) = true ∧
    ctrlUnit (0x120 + 4 * i.val) = none ∧ regionUnit (0x120 + 4 * i.val) = some .ciph := by
  revert i; decide

/-- Settles O45. -/
theorem keyWriteSetsOneRegister : Obligations.KeyWriteSetsOneRegister := by
  intro s i v hidle
  obtain ⟨hlegal, hctrl, hregion⟩ := key_offset_facts i
  have hlock : writeLocked s (0x120 + 4 * i.val) = false := by simp only [writeLocked, hregion, hidle]
  refine ⟨?_, fun j => Oct.get_set s.ciph.key i j v⟩
  have hreg : regAt (0x120 + 4 * i.val) = some (.ciphKey i) := regAt_regOffset (.ciphKey i)
  rw [hostWrite_of_not_ctrl hlegal hctrl, writeOffset_of_regAt hreg hlock]
  rfl

/-! ## START -/

theorem startCommand_of_idle {u : UnitId} {s : State} (hb : unitBusy s u = false) (c : Claim) :
    startCommand u c s = .next (startUnit u c s) := by
  rw [startCommand_eq, hb, if_neg Bool.false_ne_true]

theorem decodeCtrl_start {v : Word} (h0 : v.getLsbD 0 = true) (u : UnitId) (mode : Word) :
    decodeCtrl u mode v = .ok (decodeCommand u mode .start) := by
  rw [decodeCtrl, if_pos h0]

theorem decodeCtrl_noCommand {v : Word} (h0 : v.getLsbD 0 = false) (h1 : v.getLsbD 1 = false) (u : UnitId)
    (mode : Word) : decodeCtrl u mode v = .error .noCommand := by
  rw [decodeCtrl, h0, h1, if_neg Bool.false_ne_true, if_neg Bool.false_ne_true]

/-- Settles O36: each START is `startUnit` on its unit, and bits 1:0 alone choose the command. -/
theorem startBeginsOperation : Obligations.StartBeginsOperation := by
  refine ⟨fun s hb => startCommand_of_idle hb (crcClaim s), ?cipher, fun s _ _ hb => startCommand_of_idle hb emptyClaim,
    fun s hb => startCommand_of_idle hb (lzdClaim s), by decide, fun s u v h0 => ?start, fun s u v h0 h1 => ?nothing⟩
  case cipher =>
    rintro s i (rfl | rfl | rfl | rfl) hb <;> exact startCommand_of_idle hb (ciphClaim s)
  case start =>
    rw [hostWrite_of_ctrl (legalAccess_ctrlOffset u) (ctrlUnit_ctrlOffset u),
      writeCtrl_of_decodeCtrl (ctrlUnit_ctrlOffset u) (decodeCtrl_start h0 u _)]
  case nothing =>
    rw [hostWrite_of_ctrl (legalAccess_ctrlOffset u) (ctrlUnit_ctrlOffset u)]
    obtain ⟨i, hd, -⟩ | ⟨e, -, hw⟩ := writeCtrl_cases (ctrlUnit_ctrlOffset u) v s
    · rw [decodeCtrl_noCommand h0 h1] at hd
      cases hd
    · exact hw

/-! ## Buffer memory -/

/-- A host read returns what was written there. -/
theorem memRead_memWrite {m : List Host.Cell} (hm : memWf m = true) (a : Nat) (bs : List Byte) :
    memRead (memWrite m a bs) a bs.length = bs := by
  apply List.ext_getElem?
  intro i
  rw [memRead_getElem?]
  split
  · rename_i hi
    rw [memGet_memWrite hm, if_pos (by omega), Nat.add_sub_cancel_left, List.getD_eq_getElem _ _ hi,
      List.getElem?_eq_getElem hi]
  · rename_i hi
    rw [List.getElem?_eq_none (Nat.not_lt.mp hi)]

theorem owned_iff (s : State) (r : Span) (u : UnitId) :
    owned s r u = true ↔ ∃ c ∈ unitClaims s u, spansMeet c.wr r = true ∨ spansMeet c.rd r = true := by
  simp [owned]

theorem ownedForWrite_iff (s : State) (r : Span) (u : UnitId) :
    ownedForWrite s r u = true ↔ ∃ c ∈ unitClaims s u, spansMeet c.wr r = true := by
  simp [ownedForWrite]

section HostMemory

variable {s : State} {addr : Nat}

theorem hostMemWrite_of_free {bytes : List Byte} (hin : addr + bytes.length ≤ s.memSize)
    (hfree : ∀ u, owned s { base := addr, len := bytes.length } u = false) :
    hostMemWrite addr bytes s = .next { s with mem := memWrite s.mem addr bytes } := by
  have hspan : spanInMemory s.memSize { base := addr, len := bytes.length } = true :=
    (spanInMemory_iff _ _).mpr (.inr hin)
  simp [hostMemWrite, hspan, hfree]

theorem hostMemWrite_of_owned {bytes : List Byte} (hin : addr + bytes.length ≤ s.memSize) {u : UnitId}
    (hown : owned s { base := addr, len := bytes.length } u = true) :
    hostMemWrite addr bytes s = .refused .rangeOwned := by
  have hspan : spanInMemory s.memSize { base := addr, len := bytes.length } = true :=
    (spanInMemory_iff _ _).mpr (.inr hin)
  cases u <;> simp [hostMemWrite, hspan, hown]

theorem hostMemRead_of_free {n : Nat} (hin : addr + n ≤ s.memSize)
    (hfree : ∀ u, ownedForWrite s { base := addr, len := n } u = false) :
    hostMemRead addr n s = .next { s with memData := memRead s.mem addr n } := by
  have hspan : spanInMemory s.memSize { base := addr, len := n } = true := (spanInMemory_iff _ _).mpr (.inr hin)
  simp [hostMemRead, hspan, hfree]

theorem hostMemRead_of_owned {n : Nat} (hin : addr + n ≤ s.memSize) {u : UnitId}
    (hown : ownedForWrite s { base := addr, len := n } u = true) : hostMemRead addr n s = .refused .rangeOwned := by
  have hspan : spanInMemory s.memSize { base := addr, len := n } = true := (spanInMemory_iff _ _).mpr (.inr hin)
  cases u <;> simp [hostMemRead, hspan, hown]

end HostMemory

/-- Ownership does not look at the contents of memory. -/
theorem ownedForWrite_withMem (s : State) (m : List Host.Cell) (r : Span) (u : UnitId) :
    ownedForWrite { s with mem := m } r u = ownedForWrite s r u := by
  cases u <;> rfl

/-- Settles O47. -/
theorem hostWriteThenReadReturnsBytes : Obligations.HostWriteThenReadReturnsBytes := by
  intro s addr bytes hm hin hfree
  have hwrite : ∀ u, owned s { base := addr, len := bytes.length } u = false := fun u => by
    by_contra hown
    obtain ⟨c, hc, hmeet⟩ := (owned_iff _ _ _).mp (eq_true_of_ne_false hown)
    obtain ⟨hrd, hwr⟩ := hfree u c hc
    rw [hrd, hwr] at hmeet
    exact hmeet.elim Bool.false_ne_true Bool.false_ne_true
  have hread : ∀ u, ownedForWrite { s with mem := memWrite s.mem addr bytes } { base := addr, len := bytes.length } u =
      false := fun u => by
    rw [ownedForWrite_withMem]
    by_contra hown
    obtain ⟨c, hc, hmeet⟩ := (ownedForWrite_iff _ _ _).mp (eq_true_of_ne_false hown)
    exact Bool.false_ne_true ((hfree u c hc).2.symm.trans hmeet)
  refine ⟨_, _, hostMemWrite_of_free hin hwrite, rfl, fun a ha => ?_, hostMemRead_of_free hin hread, ?_⟩
  · exact memGet_memWrite_outside hm ((spanHas_false_iff _ _).mp ha)
  · simp only [memRead_memWrite hm]

/-- Settles O48. -/
theorem ownedBufferAccessIsRefused : Obligations.OwnedBufferAccessIsRefused := by
  intro s u c addr n bytes hc
  refine ⟨fun hin hmeet => ?write, fun hin hmeet => ?read⟩
  case write => exact hostMemWrite_of_owned hin ((owned_iff s _ u).mpr ⟨c, hc, hmeet.symm⟩)
  case read => exact hostMemRead_of_owned hin ((ownedForWrite_iff s _ u).mpr ⟨c, hc, hmeet⟩)

/-! ## Clashes -/

theorem clashesWith_iff (s : State) (u v : UnitId) :
    clashesWith s u v = true ↔ ∃ a b : Claim, v ≠ u ∧ unitBusy s v = true ∧ unitClaim s u = some a ∧
      unitClaim s v = some b ∧ claimsClash a b = true := by
  unfold clashesWith
  cases hu : unitClaim s u with
  | none => simp
  | some a =>
    cases hv : unitClaim s v with
    | none => simp
    | some b => simp [and_assoc, ne_comm]

theorem unitClash_eq_true_iff (s : State) (u : UnitId) : unitClash s u = true ↔ ∃ v, clashesWith s u v = true := by
  simp only [unitClash, Bool.or_eq_true]
  constructor
  · rintro ((h | h) | h)
    · exact ⟨_, h⟩
    · exact ⟨_, h⟩
    · exact ⟨_, h⟩
  · rintro ⟨v, h⟩
    cases v with
    | crc => exact .inl (.inl h)
    | ciph => exact .inl (.inr h)
    | lzd => exact .inr h

theorem claimsClash_iff (a b : Claim) : claimsClash a b = true ↔
    spansMeet a.wr b.rd = true ∨ spansMeet a.wr b.wr = true ∨ spansMeet a.rd b.wr = true := by
  simp [claimsClash, or_assoc]

/-- A completion that is refused under a clash and answers a next state without one. -/
theorem refused_iff_clash {o : Host.Outcome State Fault Refusal} {clash : Bool}
    (hclash : clash = true → o = .refused .rangeOwned) (hfree : clash = false → ∃ t, o = .next t) :
    o = .refused .rangeOwned ↔ clash = true := by
  refine ⟨fun h => ?_, hclash⟩
  by_contra hno
  obtain ⟨t, ht⟩ := hfree (eq_false_of_ne_true hno)
  rw [h] at ht
  cases ht

/-- Settles O59. -/
theorem clashingCompletionIsRefused : Obligations.ClashingCompletionIsRefused := by
  refine ⟨fun s u => ?clash, fun s hb hrd => ?crc, fun s i hi hb hlen hrd hwr hov => ?ciph,
    fun s hb hrd hwr hmeet => ?lzd⟩
  case clash => simp only [unitClash_eq_true_iff, clashesWith_iff, claimsClash_iff]
  case crc =>
    refine refused_iff_clash (fun hc => ?_) fun hc => ⟨_, completeCrc_of_no_clash hb hrd hc⟩
    simp [exec_crc32_complete, completeCrc, hb, hrd, hc]
  case ciph =>
    obtain ⟨f, chain, hexec⟩ := exec_cipher_complete hi s
    rw [hexec]
    refine refused_iff_clash (fun hc => ?_) fun hc => ⟨_, completeCiph_of_checks_pass f chain hb hlen hrd hwr hov hc⟩
    simp [completeCiph, hb, Config.blockBytes, hlen, hrd, hwr, hov, hc]
  case lzd =>
    refine refused_iff_clash (fun hc => ?_) fun hc => ?_
    · simp [exec_lzd_complete, completeLzd, hb, hrd, hwr, hmeet, hc]
    · obtain ⟨t, ht, -⟩ := exec_lzd_ends ((lzdReady_iff s).mpr ⟨hb, hrd, hwr, hmeet, hc⟩)
      exact ⟨t, ht⟩

/-! ## The next event -/

/-- Outside a decompression a step runs the next event. -/
theorem step_of_input {s : State} {i : Input} {rest : List Input} (hrun : s.lzd.run = none)
    (hin : s.inputs = i :: rest) : step s = runInput i { s with inputs := rest } := by
  simp only [step, hrun, nextEvent, hin]

theorem step_of_no_input {s : State} (hrun : s.lzd.run = none) (hin : s.inputs = []) : step s = quietStep s := by
  simp only [step, hrun, nextEvent, hin]

theorem unitTurn_of_busy {u : UnitId} {s : State} (hb : unitBusy s u = true) :
    unitTurn u s = exec (decodeCommand u s.ciph.mode .complete) s := by
  rw [unitTurn_eq, if_pos hb]

theorem unitTurn_of_idle {u : UnitId} {s : State} (hb : unitBusy s u = false) : unitTurn u s = .next s := by
  rw [unitTurn_eq, hb, if_neg Bool.false_ne_true]

@[simp] theorem unitBusy_withInputs (s : State) (l : List Input) (u : UnitId) :
    unitBusy { s with inputs := l } u = unitBusy s u := by
  cases u <;> rfl

/-- Settles O53. -/
theorem stepRunsTheDecodedCommand : Obligations.StepRunsTheDecodedCommand := by
  intro s rest i hrun
  refine ⟨fun off v hlegal hin hd => ?write, fun u hin hb hd => ?turn⟩
  case write =>
    have hport : ∃ u, ctrlUnit off = some u := by
      cases hc : ctrlUnit off with
      | none => simp [decode, hc] at hd
      | some u => exact ⟨u, rfl⟩
    obtain ⟨u, hu⟩ := hport
    have hd' : decodeCtrl u s.ciph.mode v = .ok i := by simpa [decode, hu] using hd
    rw [step_of_input hrun hin]
    exact (hostWrite_of_ctrl hlegal hu v _).trans (writeCtrl_of_decodeCtrl (s := { s with inputs := rest }) hu hd')
  case turn =>
    cases hd
    rw [step_of_input hrun hin]
    exact unitTurn_of_busy (s := { s with inputs := rest }) (by rw [unitBusy_withInputs, hb])

/-! ## RESET -/

theorem memGet_scramble_outside {ep size n a a' : Nat} {m : List Host.Cell} (h : a' < a ∨ a + n ≤ a') :
    memGet (scramble ep size a n m) a' = memGet m a' := by
  induction n generalizing a m with
  | zero => rfl
  | succ n ih =>
    rw [scramble, ih (by omega)]
    split
    · exact memGet_memPut_ne m _ (by omega)
    · rfl

theorem memGet_scrambleUnit_outside {s : State} {u : UnitId} {a : Nat} (h : spanHas (abandonedSpan s u) a = false)
    (m : List Host.Cell) : memGet (scrambleUnit s u m) a = memGet m a :=
  memGet_scramble_outside ((spanHas_false_iff _ _).mp h)

/-- RESET leaves every byte outside the outputs it abandons. -/
theorem memGet_resetBlock {s : State} {a : Nat} (h : ∀ u, spanHas (abandonedSpan s u) a = false) :
    memGet (resetBlock s).mem a = memGet s.mem a := by
  rw [resetBlock_mem, memGet_scrambleUnit_outside (h .lzd), memGet_scrambleUnit_outside (h .ciph),
    memGet_scrambleUnit_outside (h .crc)]

theorem regValue_resetBlock (s : State) (r : Reg) :
    regValue (resetBlock s) r = if regOffset r = 0x300 then 0x46424A44 else 0 := by
  cases r with
  | ciphKey i =>
    have hne : regOffset (.ciphKey i) ≠ 0x300 := by simp only [regOffset]; omega
    rw [if_neg hne]; rfl
  | ciphIv i =>
    have hne : regOffset (.ciphIv i) ≠ 0x300 := by simp only [regOffset]; omega
    rw [if_neg hne]
    fin_cases i <;> rfl
  | _ => rfl

theorem readOffset_resetBlock (s : State) (off : Nat) :
    readOffset (resetBlock s) off = if off = 0x300 then 0x46424A44 else 0 := by
  cases hr : regAt off with
  | none =>
    have hne : off ≠ 0x300 := by
      rintro rfl
      cases hr
    rw [readOffset_of_reserved hr, if_neg hne]
  | some r => rw [readOffset_of_regAt hr, regValue_resetBlock, (regAt_eq_some_iff off r).mp hr]

theorem abandonedSpan_withInputs (s : State) (l : List Input) (u : UnitId) :
    abandonedSpan { s with inputs := l } u = abandonedSpan s u := by
  cases u <;> rfl

/-- Settles O49. -/
theorem resetClearsRegistersKeepsMemory : Obligations.ResetClearsRegistersKeepsMemory := by
  intro s rest _ hrun hin
  refine ⟨resetBlock { s with inputs := rest }, step_of_input hrun hin, rfl, rfl, rfl, readOffset_resetBlock _,
    fun a ha => ?_, rfl, rfl, rfl, rfl, rfl⟩
  exact memGet_resetBlock (s := { s with inputs := rest }) fun u => by rw [abandonedSpan_withInputs]; exact ha u

/-- Settles O51: at reset no unit is busy, so what the invariant says of busy units and of a decompression is empty. -/
theorem resetHasInvariant : Obligations.ResetHasInvariant := by
  have hreset : ∀ (m : List Host.Cell) (n : Nat) (p : Primitive), 1 ≤ n → n ≤ 2 ^ 32 → memWf m = true →
      (∀ c ∈ m, c.1 < n) → Inv (State.atReset m n p) := fun m n p hlo hhi hm hcells =>
    { crcStatus := rfl, ciphStatus := rfl, lzdStatus := rfl, crcLevel := rfl, ciphLevel := rfl,
      mode := (by decide : (0 : Word) &&& ~~~modeMask = 0), mem := hm, memIn := hcells, size := ⟨hlo, hhi⟩,
      crcResult := nofun, lzdResult := nofun, crcOwns := nofun,
      ciphOwns := nofun, lzdOwns := nofun, run := nofun }
  exact ⟨hreset, hreset [] Config.memSizeAtReset .aes256 (by decide) (by decide) rfl nofun⟩

end Machine

end Sys2Proof
end

section
/-! What an instruction, a completion and a step can change (spec/40_commands.md R134, R135, R142): one frame for every
instruction, one list of cases for every completion and for every event, and what follows from them. -/

namespace Sys2Proof

namespace Machine

/-! ## The frame of an instruction -/

/-- Everything but unit `u`, its results and the memory is as before, and no argument register changed. -/
structure Frame (u : UnitId) (s t : State) : Prop where
  crc : u ≠ .crc → t.crc = s.crc
  ciph : u ≠ .ciph → t.ciph = s.ciph
  lzd : u ≠ .lzd → t.lzd = s.lzd
  memSize : t.memSize = s.memSize
  prim : t.prim = s.prim
  inputs : t.inputs = s.inputs
  busData : t.busData = s.busData
  memData : t.memData = s.memData
  resets : t.resets = s.resets
  crcArgs : t.crc.src = s.crc.src ∧ t.crc.len = s.crc.len
  ciphArgs : t.ciph.src = s.ciph.src ∧ t.ciph.len = s.ciph.len ∧ t.ciph.dst = s.ciph.dst ∧ t.ciph.mode = s.ciph.mode ∧
    t.ciph.key = s.ciph.key ∧ t.ciph.iv = s.ciph.iv
  lzdArgs : t.lzd.src = s.lzd.src ∧ t.lzd.len = s.lzd.len ∧ t.lzd.dst = s.lzd.dst ∧ t.lzd.expLen = s.lzd.expLen

theorem Frame.refl (u : UnitId) (s : State) : Frame u s s := by constructor <;> simp

theorem frame_setStatus (u : UnitId) (st : Status) (s : State) : Frame u s (setStatus u st s) := by
  cases u <;> constructor <;> simp

theorem frame_startUnit (u : UnitId) (c : Claim) (s : State) : Frame u s (startUnit u c s) := by
  cases u <;> constructor <;> simp

theorem frame_startCommand {u : UnitId} {c : Claim} {s t : State} (h : startCommand u c s = .next t) : Frame u s t := by
  rw [startCommand_eq] at h
  cases h
  split
  · exact .refl u s
  · exact frame_startUnit u c s

theorem frame_clearUnit (u : UnitId) (s : State) : Frame u s (clearUnit u s) := by
  rw [clearUnit_eq]
  split
  · exact .refl u s
  · exact frame_setStatus u _ s

theorem frame_crcDone (s : State) : Frame .crc s (crcDone s) := by constructor <;> simp

theorem frame_ciphDone (f : ModeStep) (chain : Block) (s : State) : Frame .ciph s (ciphDone f chain s) := by
  constructor <;> simp

/-- LZD's part of the frame in the words of spec/44_lz_decompressor.md R222. -/
theorem frame_lzd {s t : State} (h : sameButLzd s t) (hd : sameLzdDescriptors s t) : Frame .lzd s t := by
  obtain ⟨hsrc, hlen, hdst, hexp, -⟩ := hd
  have heq : t = { s with lzd := t.lzd, mem := t.mem } := h
  have hcrc : t.crc = s.crc := by rw [heq]
  have hciph : t.ciph = s.ciph := by rw [heq]
  exact
    { crc := fun _ => hcrc, ciph := fun _ => hciph, lzd := fun hne => absurd rfl hne,
      memSize := by rw [heq], prim := by rw [heq], inputs := by rw [heq],
      busData := by rw [heq], memData := by rw [heq], resets := by rw [heq],
      crcArgs := by simp only [hcrc, and_self], ciphArgs := by simp only [hciph, and_self],
      lzdArgs := ⟨hsrc, hlen, hdst, hexp⟩ }

theorem frame_raiseError (u : UnitId) (c : Cause) (s : State) : Frame u s (raiseError u c s) := by
  cases u with
  | crc => exact frame_setStatus .crc _ s
  | ciph => exact frame_setStatus .ciph _ s
  | lzd =>
    cases hr : s.lzd.run with
    | none => constructor <;> simp [raiseError_lzd_idle c s hr]
    | some r => constructor <;> simp [raiseError_lzd_run c s r hr]

/-- An error reports a working state that need not be the one in the state. -/
theorem frame_raiseError_withRun (c : Cause) (r : LzRun) (s : State) : Frame .lzd s (raiseError .lzd c (withRun r s)) :=
  frame_lzd rfl ⟨rfl, rfl, rfl, rfl, rfl⟩

theorem frame_completeCiph {f : ModeStep} {chain : Block} {s t : State} (h : completeCiph f chain s = .next t) :
    Frame .ciph s t := by
  obtain ⟨-, ⟨-, rfl⟩ | ⟨-, ⟨-, rfl⟩ | ⟨-, -, -, -, rfl⟩⟩⟩ := completeCiph_next h
  · exact frame_raiseError .ciph _ s
  · exact frame_raiseError .ciph _ s
  · exact frame_ciphDone f chain s

theorem frame_runMatch {size lv dv : Nat} {s t : State} (h : runMatch size lv dv s = .next t) : Frame .lzd s t := by
  obtain ⟨r, -, ⟨-, rfl⟩ | ⟨-, ⟨-, rfl⟩ | ⟨-, ⟨-, rfl⟩ | ⟨-, rfl⟩⟩⟩⟩ := runMatch_next h
  · exact frame_raiseError .lzd _ s
  · exact frame_raiseError .lzd _ s
  · exact frame_raiseError .lzd _ s
  · exact frame_lzd rfl ⟨rfl, rfl, rfl, rfl, rfl⟩

theorem frame_execLit {mark : Option Level} {data : List Byte} {s t : State} (h : execLit mark data s = .next t) :
    Frame .lzd s t := by
  obtain ⟨r, -, ⟨-, rfl⟩ | ⟨-, ⟨-, rfl⟩ | ⟨-, rfl⟩⟩⟩ := execLit_next h
  · exact frame_raiseError_withRun _ _ s
  · exact frame_raiseError_withRun _ _ s
  · exact frame_lzd rfl ⟨rfl, rfl, rfl, rfl, rfl⟩

theorem frame_exec_lzd {s t : State} (h : exec (.lzd .complete) s = .next t) : Frame .lzd s t := by
  obtain ⟨-, rfl | ⟨-, hend⟩⟩ := exec_lzd_next h
  · exact frame_lzd rfl ⟨rfl, rfl, rfl, rfl, rfl⟩
  · exact frame_lzd hend.frame.1 hend.frame.2

theorem unitOf_match {i : Instr} {p : Nat × Nat} (h : storedPair i = some p) : unitOf i = .lzd := by
  cases i with
  | crc32 | encEcb | encCbc | decEcb | decCbc | ciphBadmode | lzd | clear | lit | lzBadlevel => cases h
  | match1S | match1L | match2S | match2L | match2SF | match2LF => rfl

theorem frame_exec_match {i : Instr} {p : Nat × Nat} {s t : State} (hp : storedPair i = some p)
    (h : exec i s = .next t) : Frame (unitOf i) s t := by
  rw [exec_match hp] at h
  rw [unitOf_match hp]
  exact frame_runMatch h

/-- No instruction changes anything but its own unit's state and results, and the memory. -/
theorem frame_exec {i : Instr} {s t : State} (h : exec i s = .next t) : Frame (unitOf i) s t := by
  cases i with
  | crc32 ph =>
    cases ph with
    | start => exact frame_startCommand h
    | complete =>
      obtain ⟨-, ⟨-, rfl⟩ | ⟨-, -, rfl⟩⟩ := completeCrc_next h
      · exact frame_raiseError .crc _ s
      · exact frame_crcDone s
  | encEcb ph =>
    cases ph with
    | start => exact frame_startCommand h
    | complete => exact frame_completeCiph h
  | encCbc ph =>
    cases ph with
    | start => exact frame_startCommand h
    | complete => exact frame_completeCiph h
  | decEcb ph =>
    cases ph with
    | start => exact frame_startCommand h
    | complete => exact frame_completeCiph h
  | decCbc ph =>
    cases ph with
    | start => exact frame_startCommand h
    | complete => exact frame_completeCiph h
  | ciphBadmode alg dir ph =>
    cases ph with
    | start => exact frame_startCommand h
    | complete =>
      obtain ⟨-, rfl⟩ := completeBadmode_next h
      exact frame_raiseError .ciph _ s
  | lzd ph =>
    cases ph with
    | start => exact frame_startCommand h
    | complete => exact frame_exec_lzd h
  | clear u =>
    cases h
    exact frame_clearUnit u s
  | lit mark data => exact frame_execLit h
  | match1S | match1L | match2S | match2L | match2SF | match2LF => exact frame_exec_match rfl h
  | lzBadlevel m h5 =>
    obtain ⟨r, -, rfl⟩ := execLzBadlevel_next (m := m) (h5 := h5) h
    exact frame_raiseError .lzd _ s

/-- Settles O39. -/
theorem instructionsLeaveOtherUnitsAlone : Obligations.InstructionsLeaveOtherUnitsAlone := fun i s t h =>
  have hf : Frame (unitOf i) s t := frame_exec h
  ⟨hf.crc, hf.ciph, hf.lzd, hf.memSize, hf.prim, hf.inputs, hf.busData, hf.memData, hf.resets⟩

/-- Settles O40. -/
theorem instructionsNeverWriteArguments : Obligations.InstructionsNeverWriteArguments := by
  intro i s t h
  have hf : Frame (unitOf i) s t := frame_exec h
  obtain ⟨hcsrc, hclen⟩ := hf.crcArgs
  obtain ⟨hsrc, hlen, hdst, hmode, hkey, hiv⟩ := hf.ciphArgs
  exact ⟨hcsrc, hclen, hsrc, hlen, hdst, hmode, hkey, hiv, hf.lzdArgs⟩

/-- A turn of the loop is LZD's alone. -/
theorem frame_lzdTick {s t : State} (h : lzdTick s = .next t) : Frame .lzd s t := by
  obtain ⟨r, -, ⟨-, rfl⟩ | ⟨-, -, rfl⟩ | ⟨-, -, ⟨e, -, rfl⟩ | ⟨i, hi, hexec⟩⟩⟩ := lzdTick_next h
  · exact frame_lzd rfl ⟨rfl, rfl, rfl, rfl, rfl⟩
  · exact frame_raiseError .lzd _ s
  · exact frame_raiseError_withRun _ _ s
  · have htoken := (readsToken_of_fetchToken hi).isToken
    rw [runToken_eq_exec htoken] at hexec
    have hunit : unitOf i = .lzd := by
      obtain ⟨mark, data, rfl⟩ | ⟨lv, dv, hpair⟩ | ⟨m, h5, rfl⟩ := token_cases htoken
      · rfl
      · exact unitOf_match hpair
      · rfl
    exact hunit ▸ frame_exec hexec

/-! ## Completions -/

/-- The buffers that a START of unit `u` claims (spec/20_memory.md R64; log entry 11). -/
def startClaim (s : State) : UnitId → Claim
  | .crc => crcClaim s
  | .ciph => ciphOwns s
  | .lzd => lzdClaim s

/-- What the completion step of a busy unit answers. -/
inductive Completes (s : State) : UnitId → State → Prop
  | crcAddr : Completes s .crc (raiseError .crc .addr s)
  | crcDone : Completes s .crc (crcDone s)
  | ciphError (c : Cause) (hc : c ≠ .noCause) : Completes s .ciph (raiseError .ciph c s)
  | ciphDone (f : ModeStep) (chain : Block) (hclaim : ciphOwns s = ciphClaim s) (hready : ciphReady s = true) :
      Completes s .ciph (ciphDone f chain s)
  | lzdAddr : Completes s .lzd (lzdFailed .addr freshRun s)
  | lzdEnd {t : State} (hready : lzdReady s = true) (h : LoopEnd s freshRun t) : Completes s .lzd t

theorem completes_of_completeCiph {f : ModeStep} {chain : Block} {s t : State} (hclaim : ciphOwns s = ciphClaim s)
    (h : completeCiph f chain s = .next t) : Completes s .ciph t := by
  obtain ⟨hb, ⟨-, rfl⟩ | ⟨hlen, ⟨-, rfl⟩ | ⟨hrd, hwr, hov, hc, rfl⟩⟩⟩ := completeCiph_next h
  · exact .ciphError .ciphLen (by decide)
  · exact .ciphError .addr (by decide)
  · exact .ciphDone f chain hclaim ((ciphReady_iff s).mpr ⟨hb, hlen, hrd, hwr, hov, hc⟩)

/-- What CIPH's turn is: one mode function, the same for every state with the same CIPH registers and primitive, or the
failure of an unsupported mode. -/
theorem exec_ciph_turn (s : State) :
    (ciphOwns s = ciphClaim s ∧ ∃ f chain, ∀ s' : State, s'.ciph = s.ciph → s'.prim = s.prim →
      exec (decodeCommand .ciph s'.ciph.mode .complete) s' = completeCiph f chain s') ∨
    (ciphOwns s = emptyClaim ∧ ∀ s' : State, s'.ciph = s.ciph →
      exec (decodeCommand .ciph s'.ciph.mode .complete) s' = completeBadmode s') := by
  have hregs : ∀ s' : State, s'.ciph = s.ciph → s'.prim = s.prim →
      bc s' = bc s ∧ unitKey s' = unitKey s ∧ unitIv s' = unitIv s := fun s' hciph hprim => by
    simp only [bc, unitKey, unitIv, hciph, hprim, and_self]
  by_cases h1 : modeAlg s.ciph.mode = 1#2
  · refine .inl ⟨if_pos (.inl h1), ?_⟩
    cases hdir : modeDir s.ciph.mode with
    | enc =>
      have hi : decodeCiph s.ciph.mode .complete = .encEcb .complete := by rw [decodeCiph, if_pos h1, hdir]
      refine ⟨ecbEncStep (bc s) (unitKey s), noChain, fun s' hciph hprim => ?_⟩
      obtain ⟨hbc, hkey, -⟩ := hregs s' hciph hprim
      rw [decodeCommand, hciph, hi, exec_encEcb_complete, hbc, hkey]
    | dec =>
      have hi : decodeCiph s.ciph.mode .complete = .decEcb .complete := by rw [decodeCiph, if_pos h1, hdir]
      refine ⟨ecbDecStep (bc s) (unitKey s), noChain, fun s' hciph hprim => ?_⟩
      obtain ⟨hbc, hkey, -⟩ := hregs s' hciph hprim
      rw [decodeCommand, hciph, hi, exec_decEcb_complete, hbc, hkey]
  · by_cases h2 : modeAlg s.ciph.mode = 2#2
    · refine .inl ⟨if_pos (.inr h2), ?_⟩
      cases hdir : modeDir s.ciph.mode with
      | enc =>
        have hi : decodeCiph s.ciph.mode .complete = .encCbc .complete := by
          rw [decodeCiph, if_neg h1, if_pos h2, hdir]
        refine ⟨cbcEncStep (bc s) (unitKey s), unitIv s, fun s' hciph hprim => ?_⟩
        obtain ⟨hbc, hkey, hiv⟩ := hregs s' hciph hprim
        rw [decodeCommand, hciph, hi, exec_encCbc_complete, hbc, hkey, hiv]
      | dec =>
        have hi : decodeCiph s.ciph.mode .complete = .decCbc .complete := by
          rw [decodeCiph, if_neg h1, if_pos h2, hdir]
        refine ⟨cbcDecStep (bc s) (unitKey s), unitIv s, fun s' hciph hprim => ?_⟩
        obtain ⟨hbc, hkey, hiv⟩ := hregs s' hciph hprim
        rw [decodeCommand, hciph, hi, exec_decCbc_complete, hbc, hkey, hiv]
    · refine .inr ⟨if_neg (not_or.mpr ⟨h1, h2⟩), fun s' hciph => ?_⟩
      obtain ⟨alg, halg⟩ := decodeCiph_of_unsupported h1 h2 .complete
      rw [decodeCommand, hciph, halg]
      rfl

/-- Every turn of a busy unit is one of the completions. -/
theorem completes_of_unitTurn {u : UnitId} {s t : State} (hb : unitBusy s u = true) (h : unitTurn u s = .next t) :
    Completes s u t := by
  rw [unitTurn_of_busy hb] at h
  cases u with
  | crc =>
    obtain ⟨-, ⟨-, rfl⟩ | ⟨-, -, rfl⟩⟩ := completeCrc_next h
    · exact .crcAddr
    · exact .crcDone
  | ciph =>
    obtain ⟨hclaim, f, chain, hturn⟩ | ⟨-, hturn⟩ := exec_ciph_turn s
    · exact completes_of_completeCiph hclaim ((hturn s rfl rfl).symm.trans h)
    · obtain ⟨-, rfl⟩ := completeBadmode_next ((hturn s rfl).symm.trans h)
      exact .ciphError .ciphMode (by decide)
  | lzd =>
    obtain ⟨-, rfl | ⟨hready, hend⟩⟩ := exec_lzd_next h
    · exact .lzdAddr
    · exact .lzdEnd hready hend

/-- A busy unit without a clash completes. -/
theorem unitTurn_of_no_clash {u : UnitId} {s : State} (hb : unitBusy s u = true) (hc : unitClash s u = false) :
    ∃ t, unitTurn u s = .next t := by
  rw [unitTurn_of_busy hb]
  cases u with
  | crc =>
    cases hrd : spanInMemory s.memSize (crcClaim s).rd with
    | true => exact ⟨_, completeCrc_of_no_clash hb hrd hc⟩
    | false => exact ⟨_, completeCrc_of_outside_memory hb hrd⟩
  | ciph =>
    obtain ⟨-, f, chain, hturn⟩ | ⟨-, hturn⟩ := exec_ciph_turn s
    · rw [hturn s rfl rfl]
      by_cases hlen : s.ciph.len.toNat % 16 = 0
      · by_cases hok : ciphReady s = true
        · exact ⟨_, completeCiph_eq_of_ready f chain hok⟩
        · refine ⟨_, completeCiph_of_bad_ranges f chain hb hlen ?_⟩
          simpa [ciphReady_iff, hb, hlen, hc, imp_iff_not_or] using hok
      · exact ⟨_, completeCiph_of_bad_length f chain hb hlen⟩
    · rw [hturn s rfl]
      exact ⟨raiseError .ciph .ciphMode s, by simp [completeBadmode, hb]⟩
  | lzd =>
    obtain haddr | hready := exec_lzd_of_no_clash hb hc
    · exact ⟨_, haddr⟩
    · obtain ⟨t, ht, -⟩ := exec_lzd_ends hready
      exact ⟨t, ht⟩

namespace Completes

variable {s t : State} {u : UnitId}

theorem frame (h : Completes s u t) : Frame u s t := by
  cases h with
  | crcAddr => exact frame_raiseError .crc _ s
  | crcDone => exact frame_crcDone s
  | ciphError c => exact frame_raiseError .ciph c s
  | ciphDone f chain => exact frame_ciphDone f chain s
  | lzdAddr => exact frame_lzd rfl ⟨rfl, rfl, rfl, rfl, rfl⟩
  | lzdEnd _ h => exact frame_lzd h.frame.1 h.frame.2

theorem unitClaims_eq (h : Completes s u t) (v : UnitId) : unitClaims t v = unitClaims s v := by
  cases h with
  | crcAddr | crcDone | ciphError | ciphDone | lzdAddr => cases v <;> rfl
  | lzdEnd _ h => cases h <;> cases v <;> rfl

/-- The unit is done, the other units' STATUS as before. -/
theorem unitStatus_self (h : Completes s u t) : (unitStatus t u).busy = false ∧ (unitStatus t u).done = true := by
  cases h with
  | crcAddr | crcDone | ciphError | ciphDone | lzdAddr => exact ⟨rfl, rfl⟩
  | lzdEnd _ h => cases h <;> exact ⟨rfl, rfl⟩

theorem unitStatus_other (h : Completes s u t) {v : UnitId} (hv : v ≠ u) : unitStatus t v = unitStatus s v := by
  have hf := h.frame
  cases v with
  | crc => exact congrArg CrcUnit.status (hf.crc hv.symm)
  | ciph => exact congrArg CiphUnit.status (hf.ciph hv.symm)
  | lzd => exact congrArg LzdUnit.status (hf.lzd hv.symm)

theorem unitBusy_of_unitBusy (h : Completes s u t) {v : UnitId} (hv : unitBusy t v = true) : unitBusy s v = true := by
  by_cases heq : v = u
  · subst heq
    exact absurd (h.unitStatus_self.1.symm.trans hv) Bool.false_ne_true
  · exact (congrArg Status.busy (h.unitStatus_other heq)).symm.trans hv

theorem lzd_run (h : Completes s u t) (hrun : s.lzd.run = none) : t.lzd.run = none := by
  cases h with
  | crcAddr | crcDone | ciphError | ciphDone => exact hrun
  | lzdAddr => rfl
  | lzdEnd _ h => exact h.finished.run

theorem memWf_mem (h : Completes s u t) (hm : memWf s.mem = true) : memWf t.mem = true := by
  cases h with
  | crcAddr | crcDone | ciphError | lzdAddr => exact hm
  | ciphDone f chain => exact memWf_cipherBlocks f _ hm _ _ _
  | lzdEnd _ h =>
    cases h with
    | success h => exact h.wf hm
    | failure c h => exact h.wf hm

/-- A completion writes nothing outside the output range that its unit claimed. -/
theorem memGet_outside (h : Completes s u t) (hm : memWf s.mem = true) {a : Nat}
    (ha : spanHas (startClaim s u).wr a = false) : memGet t.mem a = memGet s.mem a := by
  cases h with
  | crcAddr | crcDone | ciphError | lzdAddr => rfl
  | ciphDone f chain hclaim hready =>
    obtain ⟨t, ht, -, hsame, -⟩ := completeCiph_of_ready f chain hm hready
    cases (completeCiph_eq_of_ready f chain hready).symm.trans ht
    refine hsame a ?_
    rw [← hclaim]
    exact ha
  | lzdEnd _ h =>
    have hout := (spanHas_false_iff _ _).mp ha
    simp only [startClaim, lzdClaim, spanOf_base, spanOf_len] at hout
    cases h with
    | @success r' m h hcursors =>
      have hle := hcursors.op_le
      exact h.same hm a ((spanHas_false_iff _ _).mpr (by simp only [freshRun]; omega))
    | failure c h _ _ _ hop => exact h.same hm a ((spanHas_false_iff _ _).mpr (by simp only [freshRun]; omega))

/-- The addresses that memory lists after a completion. -/
theorem mem_of_mem (h : Completes s u t) {c : Host.Cell} (hc : c ∈ t.mem) (hin : ∀ c ∈ s.mem, c.1 < s.memSize) :
    c.1 < s.memSize := by
  cases h with
  | crcAddr | crcDone | ciphError | lzdAddr => exact hin c hc
  | ciphDone f chain _ hready =>
    obtain ⟨-, -, -, hwr, -⟩ := (ciphReady_iff s).mp hready
    have hspan := (spanInMemory_iff _ _).mp hwr
    simp only [ciphClaim, spanOf_base, spanOf_len] at hspan
    obtain hc | hc := mem_cipherBlocks hc
    · exact hin c hc
    · simp only [Config.blockBytes] at hc
      omega
  | lzdEnd hready h =>
    obtain ⟨-, -, hwr, -⟩ := (lzdReady_iff s).mp hready
    have hspan := (spanInMemory_iff _ _).mp hwr
    simp only [lzdClaim, spanOf_base, spanOf_len] at hspan
    cases h with
    | @success r' m h hcursors =>
      have hle := hcursors.op_le
      obtain hc | hc := h.cells c hc
      · exact hin c hc
      · omega
    | failure _ h _ _ _ hop =>
      obtain hc | hc := h.cells c hc
      · exact hin c hc
      · omega

end Completes

/-! ## Events -/

/-- What a state becomes by event `i` (`none`: nothing more comes from outside), the event already taken off. -/
inductive EventCase (i : Option Input) (s : State) : State → Prop
  | pass : EventCase i s s
  | start (u : UnitId) (hb : unitBusy s u = false) : EventCase i s (startUnit u (startClaim s u) s)
  | clear (u : UnitId) (hb : unitBusy s u = false) : EventCase i s (setStatus u (clearedStatus (unitStatus s u)) s)
  | complete {u : UnitId} {t : State} (hb : unitBusy s u = true) (h : Completes s u t) : EventCase i s t
  | read (off : Nat) : EventCase i s (readRegister off s)
  | write {off : Nat} {v : Word} (r : Reg) (hi : i = some (.regWrite 32 off v)) (hr : regAt off = some r)
      (hl : writeLocked s off = false) : EventCase i s (setReg r v s)
  | memRead (bytes : List Byte) : EventCase i s { s with memData := bytes }
  | memWrite {addr : Nat} {bytes : List Byte} (hi : i = some (.memWrite addr bytes))
      (hin : spanInMemory s.memSize { base := addr, len := bytes.length } = true) :
      EventCase i s { s with mem := memWrite s.mem addr bytes }
  | reset (hi : i = some .reset) : EventCase i s (resetBlock s)

theorem exec_start (u : UnitId) (s : State) :
    exec (decodeCommand u s.ciph.mode .start) s = startCommand u (startClaim s u) s := by
  cases u with
  | crc | lzd => rfl
  | ciph =>
    simp only [decodeCommand, decodeCiph, startClaim, ciphOwns]
    by_cases h1 : modeAlg s.ciph.mode = 1#2
    · rw [if_pos h1, if_pos (.inl h1)]
      cases modeDir s.ciph.mode <;> rfl
    · by_cases h2 : modeAlg s.ciph.mode = 2#2
      · rw [if_neg h1, if_pos h2, if_pos (.inr h2)]
        cases modeDir s.ciph.mode <;> rfl
      · rw [if_neg h1, if_neg h2, if_neg (not_or.mpr ⟨h1, h2⟩)]
        split <;> rfl

theorem eventCase_of_unitTurn {i : Option Input} {u : UnitId} {s t : State} (h : unitTurn u s = .next t) :
    EventCase i s t := by
  cases hb : unitBusy s u with
  | true => exact .complete hb (completes_of_unitTurn hb h)
  | false =>
    cases (unitTurn_of_idle hb).symm.trans h
    exact .pass

theorem eventCase_of_decodeCtrl {i : Option Input} {u : UnitId} {v : Word} {j : Instr} {s t : State}
    (hd : decodeCtrl u s.ciph.mode v = .ok j) (h : exec j s = .next t) : EventCase i s t := by
  cases hb : unitBusy s u with
  | true =>
    cases (exec_of_decodeCtrl_of_busy hd hb).symm.trans h
    exact .pass
  | false =>
    obtain rfl | rfl := decodeCtrl_ok hd
    · cases ((exec_start u s).trans (startCommand_of_idle hb _)).symm.trans h
      exact .start u hb
    · cases (exec_clear_of_idle hb).symm.trans h
      exact .clear u hb

theorem eventCase_of_hostWrite {width off : Nat} {v : Word} {s t : State} (h : hostWrite width off v s = .next t) :
    EventCase (some (.regWrite width off v)) s t := by
  obtain ⟨hlegal, ⟨-, rfl⟩ | ⟨u, -, ⟨j, hd, hexec⟩ | ⟨e, -, rfl⟩⟩⟩ := hostWrite_next h
  · obtain ⟨rfl, -, -⟩ := (legalAccess_iff width off).mp hlegal
    obtain hpass | ⟨r, hr, hl, hset⟩ := writeOffset_cases off v s
    · rw [hpass]; exact .pass
    · rw [hset]; exact .write r rfl hr hl
  · exact eventCase_of_decodeCtrl hd hexec
  · exact .pass

theorem eventCase_of_runInput {i : Input} {s t : State} (h : runInput i s = .next t) : EventCase (some i) s t := by
  cases i with
  | regRead width off =>
    obtain ⟨-, rfl⟩ := hostRead_next h
    exact .read off
  | regWrite width off v => exact eventCase_of_hostWrite h
  | memRead addr n =>
    obtain ⟨-, rfl⟩ := hostMemRead_next h
    exact .memRead _
  | memWrite addr bytes =>
    obtain ⟨hin, rfl⟩ := hostMemWrite_next h
    exact .memWrite rfl hin
  | turn u => exact eventCase_of_unitTurn h
  | reset =>
    cases h
    exact .reset rfl

/-- A quiet step is the turn of the first busy unit, or of LZD if none is. -/
theorem quietStep_eq_unitTurn (s : State) : ∃ u, quietStep s = unitTurn u s := by
  unfold quietStep
  split_ifs
  · exact ⟨_, rfl⟩
  · exact ⟨_, rfl⟩
  · exact ⟨_, rfl⟩

/-- The state with the next event taken off. -/
def popInput (s : State) : State := { s with inputs := s.inputs.tail }

theorem popInput_of_nil {s : State} (h : s.inputs = []) : popInput s = s := by
  obtain ⟨crc, ciph, lzd, prim, mem, memSize, inputs, busData, memData, resets⟩ := s
  cases h
  rfl

theorem popInput_of_cons {s : State} {i : Input} {rest : List Input} (h : s.inputs = i :: rest) :
    popInput s = { s with inputs := rest } := by rw [popInput, h]; rfl

/-- Everything a step can do: a token of the decompression under way, or an event. -/
theorem step_cases {s t : State} (h : step s = .next t) :
    (∃ r, s.lzd.run = some r ∧ lzdTick s = .next t) ∨
      (s.lzd.run = none ∧ EventCase s.inputs.head? (popInput s) t) := by
  cases hrun : s.lzd.run with
  | some r => exact .inl ⟨r, rfl, (step_of_run hrun).symm.trans h⟩
  | none =>
    refine .inr ⟨rfl, ?_⟩
    cases hin : s.inputs with
    | nil =>
      rw [step_of_no_input hrun hin] at h
      obtain ⟨u, hu⟩ := quietStep_eq_unitTurn s
      rw [popInput_of_nil hin]
      exact eventCase_of_unitTurn (hu.symm.trans h)
    | cons i rest =>
      rw [step_of_input hrun hin] at h
      rw [popInput_of_cons hin]
      exact eventCase_of_runInput h

/-! ## The parameters and the key -/

/-- Settles O60. -/
theorem stepKeepsParameters : Obligations.StepKeepsParameters := by
  intro s t h
  obtain ⟨r, -, htick⟩ | ⟨-, hev⟩ := step_cases h
  · have hf := frame_lzdTick htick
    exact ⟨hf.prim, hf.memSize⟩
  · suffices hpop : t.prim = (popInput s).prim ∧ t.memSize = (popInput s).memSize from hpop
    generalize popInput s = s' at hev
    cases hev with
    | pass | memRead | memWrite | reset => exact ⟨rfl, rfl⟩
    | start u => exact ⟨startUnit_prim u _ s', startUnit_memSize u _ s'⟩
    | clear u => exact ⟨setStatus_prim u _ s', setStatus_memSize u _ s'⟩
    | complete _ hc => exact ⟨hc.frame.prim, hc.frame.memSize⟩
    | read off => exact ⟨readRegister_prim off s', readRegister_memSize off s'⟩
    | write r => exact ⟨setReg_prim r _ s', setReg_memSize r _ s'⟩

/-- A register write changes the key only at a key register. -/
theorem setReg_ciph_key (r : Reg) (v : Word) (s : State) :
    (setReg r v s).ciph.key = s.ciph.key ∨ ∃ i, r = .ciphKey i := by
  cases r with
  | ciphKey i => exact .inr ⟨i, rfl⟩
  | _ => exact .inl rfl

/-- Settles O55. -/
theorem keyChangesOnlyByHostOrReset : Obligations.KeyChangesOnlyByHostOrReset := by
  intro s t h hne
  have hbusy : ∀ u, unitBusy (popInput s) u = unitBusy s u := unitBusy_withInputs s _
  obtain ⟨r, -, htick⟩ | ⟨-, hev⟩ := step_cases h
  · exact absurd (congrArg CiphUnit.key ((frame_lzdTick htick).ciph (by decide))) hne
  · replace hne : t.ciph.key ≠ (popInput s).ciph.key := hne
    suffices hpop : s.inputs.head? = some .reset ∨ ∃ (i : Fin 8) (v : Word),
        s.inputs.head? = some (.regWrite 32 (0x120 + 4 * i.val) v) ∧ unitBusy (popInput s) .ciph = false ∧
          t.ciph.key = (popInput s).ciph.key.set i v by rwa [hbusy] at hpop
    generalize popInput s = s' at *
    cases hev with
    | pass | memRead | memWrite => exact absurd rfl hne
    | start u =>
      obtain ⟨-, -, -, -, hkey, -⟩ := (frame_startUnit u (startClaim s' u) s').ciphArgs
      exact absurd hkey hne
    | clear u =>
      obtain ⟨-, -, -, -, hkey, -⟩ := (frame_setStatus u (clearedStatus (unitStatus s' u)) s').ciphArgs
      exact absurd hkey hne
    | complete _ hc =>
      obtain ⟨-, -, -, -, hkey, -⟩ := hc.frame.ciphArgs
      exact absurd hkey hne
    | read off => exact absurd (readRegister_ciph_key off s') hne
    | @write off v r hi hr hl =>
      obtain hkey | ⟨i, rfl⟩ := setReg_ciph_key r v s'
      · exact absurd hkey hne
      · obtain rfl := (regAt_eq_some_iff off _).mp hr
        obtain ⟨-, -, hregion⟩ := key_offset_facts i
        have hregion : regionUnit (regOffset (.ciphKey i)) = some .ciph := hregion
        exact .inr ⟨i, v, hi, by simpa only [writeLocked, hregion] using hl, rfl⟩
    | reset hi => exact .inl hi

/-! ## A quiet machine -/

theorem stepsTo_trans {m n : Nat} {s t u : State} (h : stepsTo m s t) (h' : stepsTo n t u) : stepsTo (m + n) s u := by
  induction m generalizing s with
  | zero =>
    cases h
    rwa [Nat.zero_add]
  | succ m ih =>
    obtain ⟨v, hstep, hrest⟩ := h
    rw [Nat.succ_add]
    exact ⟨v, hstep, ih hrest⟩

/-- Fewer busy units with the same buffers make no new clash. -/
theorem unitClash_of_fewer_busy {s t : State} (hclaims : ∀ v, unitClaims t v = unitClaims s v)
    (hbusy : ∀ v, unitBusy t v = true → unitBusy s v = true) {u : UnitId} (h : unitClash s u = false) :
    unitClash t u = false := by
  by_contra hclash
  obtain ⟨v, hv⟩ := (unitClash_eq_true_iff t u).mp (eq_true_of_ne_false hclash)
  obtain ⟨a, b, hne, hb, ha, hbv, hcl⟩ := (clashesWith_iff t u v).mp hv
  have hclaim : ∀ v, unitClaim t v = unitClaim s v := fun v => by rw [unitClaim, hclaims v]; rfl
  rw [hclaim] at ha hbv
  have hs := (unitClash_eq_true_iff s u).mpr ⟨v, (clashesWith_iff s u v).mpr ⟨a, b, hne, hbusy v hb, ha, hbv, hcl⟩⟩
  exact absurd (h.symm.trans hs) Bool.false_ne_true

/-- Nothing comes from outside, no decompression is under way, and no unit clashes. -/
structure Quiet (s : State) : Prop where
  run : s.lzd.run = none
  inputs : s.inputs = []
  clash : ∀ u, unitClash s u = false

theorem Quiet.of_completes {s t : State} {u : UnitId} (hq : Quiet s) (h : Completes s u t) : Quiet t where
  run := h.lzd_run hq.run
  inputs := h.frame.inputs.trans hq.inputs
  clash := fun v => unitClash_of_fewer_busy h.unitClaims_eq (fun _ => h.unitBusy_of_unitBusy) (hq.clash v)

/-- If it is unit `u`'s turn should it be busy, at most one quiet step leaves it not busy, and makes no other busy. -/
theorem Quiet.settle {s : State} (hq : Quiet s) (u : UnitId)
    (hturn : unitBusy s u = true → quietStep s = unitTurn u s) :
    ∃ n t, n ≤ 1 ∧ stepsTo n s t ∧ Quiet t ∧ unitBusy t u = false ∧
      ∀ v, unitBusy s v = false → unitBusy t v = false := by
  cases hb : unitBusy s u with
  | false => exact ⟨0, s, Nat.zero_le 1, rfl, hq, hb, fun _ h => h⟩
  | true =>
    obtain ⟨t, ht⟩ := unitTurn_of_no_clash hb (hq.clash u)
    have hc := completes_of_unitTurn hb ht
    have hstep : step s = .next t := (step_of_no_input hq.run hq.inputs).trans ((hturn hb).trans ht)
    refine ⟨1, t, Nat.le_refl 1, ⟨t, hstep, rfl⟩, hq.of_completes hc, hc.unitStatus_self.1, fun v hv => ?_⟩
    exact eq_false_of_ne_true fun hbv => absurd (hv.symm.trans (hc.unitBusy_of_unitBusy hbv)) Bool.false_ne_true

/-- Settles O58: CRC, then CIPH, then LZD, at most one step each. -/
theorem quietMachineFinishesEverything : Obligations.QuietMachineFinishesEverything := by
  intro s _ hrun hin hclash
  obtain ⟨n₁, s₁, hn₁, hs₁, hq₁, hcrc₁, -⟩ := (Quiet.mk hrun hin hclash).settle .crc fun hb => by
    rw [quietStep, if_pos hb]
  obtain ⟨n₂, s₂, hn₂, hs₂, hq₂, hciph₂, hkeep₂⟩ := hq₁.settle .ciph fun hb => by
    rw [quietStep, hcrc₁, if_neg Bool.false_ne_true, if_pos hb]
  have hcrc₂ := hkeep₂ .crc hcrc₁
  obtain ⟨n₃, s₃, hn₃, hs₃, -, hlzd₃, hkeep₃⟩ := hq₂.settle .lzd fun _ => by
    rw [quietStep, hcrc₂, hciph₂, if_neg Bool.false_ne_true, if_neg Bool.false_ne_true]
  refine ⟨n₁ + n₂ + n₃, s₃, by omega, stepsTo_trans (stepsTo_trans hs₁ hs₂) hs₃, fun u => ?_⟩
  cases u with
  | crc => exact hkeep₃ .crc hcrc₂
  | ciph => exact hkeep₃ .ciph hciph₂
  | lzd => exact hlzd₃

end Machine

end Sys2Proof
end

section
/-! The invariant (spec/10_state.md R38, R39, R50) and what every step keeps: it is split into one part for each unit and
one for memory, each part is kept by each operation that touches it, and the steps are put together from those. -/

namespace Sys2Proof

namespace Machine

/-! ## The parts of the invariant -/

/-- The invariant's part for the CRC unit. -/
structure CrcInv (c : CrcUnit) : Prop where
  status : statusOk c.status = true
  level : c.status.level = none
  result : (c.status.busy || c.status.err) = true → c.result = 0
  owns : c.status.busy = true → c.claims.head? = some { rd := spanOf c.src c.len, wr := noSpan }

/-- What a START of the CIPH unit with these registers claims. -/
def ciphUnitClaim (c : CiphUnit) : Claim :=
  if modeAlg c.mode = 1#2 ∨ modeAlg c.mode = 2#2 then { rd := spanOf c.src c.len, wr := spanOf c.dst c.len }
  else emptyClaim

theorem ciphOwns_eq (s : State) : ciphOwns s = ciphUnitClaim s.ciph := rfl

/-- The invariant's part for the CIPH unit. -/
structure CiphInv (c : CiphUnit) : Prop where
  status : statusOk c.status = true
  level : c.status.level = none
  mode : c.mode &&& ~~~modeMask = 0
  owns : c.status.busy = true → c.claims.head? = some (ciphUnitClaim c)

/-- The invariant's part for a decompression under way. -/
structure RunInv (memSize : Nat) (l : LzdUnit) (r : LzRun) : Prop where
  busy : l.status.busy = true
  input : spanInMemory memSize (spanOf l.src l.len) = true
  output : spanInMemory memSize (spanOf l.dst l.expLen) = true
  apart : spansMeet (spanOf l.src l.len) (spanOf l.dst l.expLen) = false
  cursors : CursorsOk l r

/-- The invariant's part for the LZD unit. -/
structure LzdInv (memSize : Nat) (l : LzdUnit) : Prop where
  status : statusOk l.status = true
  result : l.status.busy = true → l.outLen = 0 ∧ l.inUsed = 0
  owns : l.status.busy = true → l.claims.head? = some { rd := spanOf l.src l.len, wr := spanOf l.dst l.expLen }
  run : ∀ r, l.run = some r → RunInv memSize l r

/-- The invariant's part for memory. -/
structure MemInv (memSize : Nat) (m : List Host.Cell) : Prop where
  wf : memWf m = true
  cells : ∀ c ∈ m, c.1 < memSize
  size : 1 ≤ memSize ∧ memSize ≤ 2 ^ 32

theorem cursors_first_iff (r : LzRun) :
    (if r.first then r.level.isNone && decide (r.ip = 0) && decide (r.op = 0) else r.level.isSome) = true ↔
      (r.first = true → r = freshRun) ∧ (r.first = false → r.level.isSome = true) := by
  obtain ⟨ip, op, level, first⟩ := r
  cases first with
  | true =>
    simp only [freshRun, LzRun.mk.injEq, if_true, Bool.and_eq_true, Option.isNone_iff_eq_none, decide_eq_true_eq]
    tauto
  | false => simp

theorem runOk_iff (s : State) (r : LzRun) : runOk s r = true ↔ RunInv s.memSize s.lzd r := by
  simp only [runOk, Bool.and_eq_true, decide_eq_true_eq, Bool.not_eq_true', cursors_first_iff]
  constructor
  · rintro ⟨⟨⟨⟨⟨⟨hb, hrd⟩, hwr⟩, hmeet⟩, hip⟩, hop⟩, hfresh, hlater⟩
    exact ⟨hb, hrd, hwr, hmeet, hip, hop, hfresh, hlater⟩
  · rintro ⟨hb, hrd, hwr, hmeet, hip, hop, hfresh, hlater⟩
    exact ⟨⟨⟨⟨⟨⟨hb, hrd⟩, hwr⟩, hmeet⟩, hip⟩, hop⟩, hfresh, hlater⟩

theorem inv_iff (s : State) :
    Inv s ↔ CrcInv s.crc ∧ CiphInv s.ciph ∧ LzdInv s.memSize s.lzd ∧ MemInv s.memSize s.mem := by
  constructor
  · intro h
    exact ⟨⟨h.crcStatus, h.crcLevel, h.crcResult, h.crcOwns⟩, ⟨h.ciphStatus, h.ciphLevel, h.mode, h.ciphOwns⟩,
      ⟨h.lzdStatus, h.lzdResult, h.lzdOwns, fun r hr => (runOk_iff s r).mp (h.run r hr)⟩, ⟨h.mem, h.memIn, h.size⟩⟩
  · rintro ⟨hcrc, hciph, hlzd, hmem⟩
    exact
      { crcStatus := hcrc.status, ciphStatus := hciph.status, lzdStatus := hlzd.status, crcLevel := hcrc.level,
        ciphLevel := hciph.level, mode := hciph.mode, mem := hmem.wf, memIn := hmem.cells, size := hmem.size,
        crcResult := hcrc.result, lzdResult := hlzd.result, crcOwns := hcrc.owns, ciphOwns := hciph.owns,
        lzdOwns := hlzd.owns, run := fun r hr => (runOk_iff s r).mpr (hlzd.run r hr) }

/-- A busy unit owns what its START claimed. -/
theorem unitClaim_of_busy {s : State} (h : Inv s) {u : UnitId} (hb : unitBusy s u = true) :
    unitClaim s u = some (startClaim s u) := by
  cases u with
  | crc => exact h.crcOwns hb
  | ciph => exact h.ciphOwns hb
  | lzd => exact h.lzdOwns hb

theorem inv_popInput {s : State} (h : Inv s) : Inv (popInput s) := (inv_iff (popInput s)).mpr ((inv_iff s).mp h)

/-! ## What keeps a unit's part -/

/-- A unit that is done is not busy (spec/10_state.md R38). -/
theorem busy_eq_false_of_done {st : Status} (h : statusOk st = true) (hd : st.done = true) : st.busy = false := by
  simp only [statusOk, hd, Bool.and_true, Bool.and_eq_true, Bool.not_eq_true'] at h
  obtain ⟨⟨⟨hb, -⟩, -⟩, -⟩ := h
  exact hb

theorem statusOk_clearedStatus {st : Status} (hb : st.busy = false) : statusOk (clearedStatus st) = true := by
  simp [statusOk, clearedStatus, hb]

theorem not_of_eq_false {b : Bool} {P : Prop} (h : b = false) (ht : b = true) : P :=
  absurd (h.symm.trans ht) Bool.false_ne_true

namespace CrcInv

variable {c : CrcUnit}

theorem result_of_err (h : CrcInv c) (he : c.status.err = true) : c.result = 0 := h.result (by rw [he, Bool.or_true])

/-- A unit that is not busy owes nothing about its buffers. -/
theorem of_idle {c' : CrcUnit} (hs : statusOk c'.status = true) (hl : c'.status.level = none)
    (hb : c'.status.busy = false) (hr : c'.status.err = true → c'.result = 0) : CrcInv c' :=
  ⟨hs, hl, fun h => hr (by simpa [hb] using h), fun h => not_of_eq_false hb h⟩

theorem start (c : CrcUnit) : CrcInv { c with
    status := startedStatus, result := 0, claims := { rd := spanOf c.src c.len, wr := noSpan } :: c.claims } :=
  ⟨rfl, rfl, fun _ => rfl, fun _ => rfl⟩

theorem cleared (hb : c.status.busy = false) : CrcInv { c with status := clearedStatus c.status } :=
  of_idle (statusOk_clearedStatus hb) rfl hb nofun

theorem failed (h : CrcInv c) (hb : c.status.busy = true) : CrcInv { c with status := failedStatus .addr none } :=
  of_idle rfl rfl rfl fun _ => h.result (by rw [hb]; rfl)

theorem done (c : CrcUnit) (w : Word) : CrcInv { c with status := doneStatus none, result := w } :=
  of_idle rfl rfl rfl nofun

theorem released (h : CrcInv c) (hd : c.status.done = true) : CrcInv { c with claims := [] } :=
  of_idle h.status h.level (busy_eq_false_of_done h.status hd) h.result_of_err

theorem withArgs (h : CrcInv c) (hb : c.status.busy = false) (src len : Word) :
    CrcInv { c with src := src, len := len } :=
  of_idle h.status h.level hb h.result_of_err

end CrcInv

namespace CiphInv

variable {c : CiphUnit}

theorem of_idle {c' : CiphUnit} (hs : statusOk c'.status = true) (hl : c'.status.level = none)
    (hb : c'.status.busy = false) (hm : c'.mode &&& ~~~modeMask = 0) : CiphInv c' :=
  ⟨hs, hl, hm, fun h => not_of_eq_false hb h⟩

theorem start (h : CiphInv c) :
    CiphInv { c with status := startedStatus, claims := ciphUnitClaim c :: c.claims } :=
  ⟨rfl, rfl, h.mode, fun _ => rfl⟩

theorem cleared (h : CiphInv c) (hb : c.status.busy = false) :
    CiphInv { c with status := clearedStatus c.status } := of_idle (statusOk_clearedStatus hb) rfl hb h.mode

theorem failed (h : CiphInv c) {e : Cause} (he : e ≠ .noCause) : CiphInv { c with status := failedStatus e none } :=
  of_idle (statusOk_failedStatus he none) rfl rfl h.mode

theorem done (h : CiphInv c) : CiphInv { c with status := doneStatus none } := of_idle rfl rfl rfl h.mode

theorem released (h : CiphInv c) (hd : c.status.done = true) : CiphInv { c with claims := [] } :=
  of_idle h.status h.level (busy_eq_false_of_done h.status hd) h.mode

theorem withArgs (h : CiphInv c) (hb : c.status.busy = false) (src len dst : Word) (key : Oct Word) (iv : Quad Word) :
    CiphInv { c with src := src, len := len, dst := dst, key := key, iv := iv } := of_idle h.status h.level hb h.mode

/-- The mode register takes a value without its reserved bits. -/
theorem withMode (h : CiphInv c) (hb : c.status.busy = false) (v : Word) :
    CiphInv { c with mode := v &&& modeMask } := by
  refine of_idle h.status h.level hb ?_
  change v &&& modeMask &&& ~~~modeMask = 0#32
  rw [BitVec.and_assoc, show modeMask &&& ~~~modeMask = 0#32 by decide, BitVec.and_zero]

end CiphInv

namespace LzdInv

variable {n : Nat} {l : LzdUnit}

theorem of_idle {l' : LzdUnit} (hs : statusOk l'.status = true) (hb : l'.status.busy = false) (hr : l'.run = none) :
    LzdInv n l' :=
  ⟨hs, fun h => not_of_eq_false hb h, fun h => not_of_eq_false hb h, fun r h => by rw [hr] at h; cases h⟩

theorem start (hr : l.run = none) : LzdInv n { l with
    status := startedStatus, outLen := 0, inUsed := 0,
    claims := { rd := spanOf l.src l.len, wr := spanOf l.dst l.expLen } :: l.claims } :=
  ⟨rfl, fun _ => ⟨rfl, rfl⟩, fun _ => rfl, fun r h => by cases hr.symm.trans h⟩

theorem cleared (hb : l.status.busy = false) (hr : l.run = none) :
    LzdInv n { l with status := clearedStatus l.status } := of_idle (statusOk_clearedStatus hb) hb hr

theorem released (h : LzdInv n l) (hd : l.status.done = true) (hr : l.run = none) : LzdInv n { l with claims := [] } :=
  of_idle h.status (busy_eq_false_of_done h.status hd) hr

theorem withArgs (h : LzdInv n l) (hb : l.status.busy = false) (hr : l.run = none) (src len dst expLen : Word) :
    LzdInv n { l with src := src, len := len, dst := dst, expLen := expLen } := of_idle h.status hb hr

/-- The next working state of a decompression. -/
theorem withRun {r : LzRun} (h : LzdInv n l) (hrun : RunInv n l r) {r' : LzRun} (hr' : CursorsOk l r') :
    LzdInv n { l with run := some r' } :=
  ⟨h.status, h.result, h.owns, fun r₁ h₁ => by
    cases h₁
    exact ⟨hrun.busy, hrun.input, hrun.output, hrun.apart, hr'.ip_le, hr'.op_le, hr'.fresh, hr'.later⟩⟩

theorem of_finished {s t : State} (h : Finished s t) : LzdInv n t.lzd := of_idle h.ok h.busy h.run

end LzdInv

namespace MemInv

variable {n : Nat} {m : List Host.Cell}

theorem memWrite (h : MemInv n m) {addr : Nat} {bytes : List Byte}
    (hin : spanInMemory n { base := addr, len := bytes.length } = true) : MemInv n (memWrite m addr bytes) where
  wf := memWf_memWrite h.wf addr bytes
  cells := fun c hc => by
    have hspan := (spanInMemory_iff _ _).mp hin
    obtain hc | hc := mem_memWrite hc
    · exact h.cells c hc
    · simp only at hspan
      omega
  size := h.size

theorem completes {s t : State} {u : UnitId} (h : MemInv s.memSize s.mem) (hc : Completes s u t) :
    MemInv t.memSize t.mem := by
  rw [hc.frame.memSize]
  exact ⟨hc.memWf_mem h.wf, fun _ hin => hc.mem_of_mem hin h.cells, h.size⟩

theorem scrambleUnit {s : State} (h : MemInv s.memSize m) (u : UnitId) : MemInv s.memSize (scrambleUnit s u m) :=
  ⟨memWf_scramble _ _ _ h.wf _, fun c hc => (mem_scramble hc).elim (h.cells c) id, h.size⟩

end MemInv

/-! ## What keeps the invariant -/

section Keeps

variable {s : State}

theorem inv_startUnit (h : Inv s) (hrun : s.lzd.run = none) (u : UnitId) : Inv (startUnit u (startClaim s u) s) := by
  obtain ⟨hcrc, hciph, hlzd, hmem⟩ := (inv_iff s).mp h
  cases u with
  | crc => exact (inv_iff _).mpr ⟨.start s.crc, hciph, hlzd, hmem⟩
  | ciph => exact (inv_iff _).mpr ⟨hcrc, hciph.start, hlzd, hmem⟩
  | lzd => exact (inv_iff _).mpr ⟨hcrc, hciph, .start hrun, hmem⟩

theorem inv_cleared (h : Inv s) (hrun : s.lzd.run = none) {u : UnitId} (hb : unitBusy s u = false) :
    Inv (setStatus u (clearedStatus (unitStatus s u)) s) := by
  obtain ⟨hcrc, hciph, hlzd, hmem⟩ := (inv_iff s).mp h
  cases u with
  | crc => exact (inv_iff _).mpr ⟨.cleared hb, hciph, hlzd, hmem⟩
  | ciph => exact (inv_iff _).mpr ⟨hcrc, hciph.cleared hb, hlzd, hmem⟩
  | lzd => exact (inv_iff _).mpr ⟨hcrc, hciph, .cleared hb hrun, hmem⟩

theorem inv_completes {t : State} {u : UnitId} (h : Inv s) (hb : unitBusy s u = true) (hc : Completes s u t) :
    Inv t := by
  obtain ⟨hcrc, hciph, hlzd, hmem⟩ := (inv_iff s).mp h
  have hmem' := hmem.completes hc
  refine (inv_iff t).mpr ?_
  cases hc with
  | crcAddr => exact ⟨hcrc.failed hb, hciph, hlzd, hmem'⟩
  | crcDone => exact ⟨.done s.crc _, hciph, hlzd, hmem'⟩
  | ciphError c hcause => exact ⟨hcrc, hciph.failed hcause, hlzd, hmem'⟩
  | ciphDone f chain => exact ⟨hcrc, hciph.done, hlzd, hmem'⟩
  | lzdAddr => exact ⟨hcrc, hciph, .of_finished (finished_addr s), hmem'⟩
  | lzdEnd hready hend =>
    have hf := frame_lzd hend.frame.1 hend.frame.2
    rw [hf.crc (by decide), hf.ciph (by decide)]
    exact ⟨hcrc, hciph, .of_finished hend.finished, hmem'⟩

theorem inv_withBusData (h : Inv s) (w : Word) : Inv { s with busData := w } := (inv_iff _).mpr ((inv_iff s).mp h)

theorem inv_withMemData (h : Inv s) (bytes : List Byte) : Inv { s with memData := bytes } :=
  (inv_iff _).mpr ((inv_iff s).mp h)

theorem inv_releaseClaims (h : Inv s) (hrun : s.lzd.run = none) {u : UnitId} (hd : (unitStatus s u).done = true) :
    Inv (releaseClaims u s) := by
  obtain ⟨hcrc, hciph, hlzd, hmem⟩ := (inv_iff s).mp h
  cases u with
  | crc => exact (inv_iff _).mpr ⟨hcrc.released hd, hciph, hlzd, hmem⟩
  | ciph => exact (inv_iff _).mpr ⟨hcrc, hciph.released hd, hlzd, hmem⟩
  | lzd => exact (inv_iff _).mpr ⟨hcrc, hciph, hlzd.released hd hrun, hmem⟩

theorem unitStatus_withBusData (s : State) (w : Word) (u : UnitId) :
    unitStatus { s with busData := w } u = unitStatus s u := by
  cases u <;> rfl

theorem inv_readRegister (h : Inv s) (hrun : s.lzd.run = none) (off : Nat) : Inv (readRegister off s) := by
  obtain ⟨u, -, hd, heq⟩ | ⟨-, heq⟩ := readRegister_cases off s
  · rw [heq]
    exact inv_releaseClaims (inv_withBusData h (readOffset s off)) hrun (by rw [unitStatus_withBusData]; exact hd)
  · rw [heq]
    exact inv_withBusData h _

/-- The unit in whose region a register lies. -/
theorem regionUnit_ciphIv (i : Fin 4) : regionUnit (regOffset (.ciphIv i)) = some .ciph := by
  revert i; decide

theorem regionUnit_ciphKey (i : Fin 8) : regionUnit (regOffset (.ciphKey i)) = some .ciph := by
  revert i; decide

theorem unitBusy_of_unlocked {u : UnitId} {off : Nat} (hr : regionUnit off = some u) (hl : writeLocked s off = false) :
    unitBusy s u = false := by simpa only [writeLocked, hr] using hl

theorem inv_setReg (h : Inv s) (hrun : s.lzd.run = none) (r : Reg) (v : Word)
    (hl : writeLocked s (regOffset r) = false) : Inv (setReg r v s) := by
  obtain ⟨hcrc, hciph, hlzd, hmem⟩ := (inv_iff s).mp h
  cases r with
  | crcCtrl | crcStatus | crcResult | ciphCtrl | ciphStatus | lzdCtrl | lzdStatus | lzdOutLen | lzdInUsed
  | blkId => exact h
  | crcSrc | crcLen =>
    have hb : unitBusy s .crc = false := unitBusy_of_unlocked rfl hl
    exact (inv_iff _).mpr ⟨hcrc.withArgs hb _ _, hciph, hlzd, hmem⟩
  | ciphSrc | ciphLen | ciphDst =>
    have hb : unitBusy s .ciph = false := unitBusy_of_unlocked rfl hl
    exact (inv_iff _).mpr ⟨hcrc, hciph.withArgs hb _ _ _ _ _, hlzd, hmem⟩
  | ciphKey i =>
    have hb : unitBusy s .ciph = false := unitBusy_of_unlocked (regionUnit_ciphKey i) hl
    exact (inv_iff _).mpr ⟨hcrc, hciph.withArgs hb _ _ _ _ _, hlzd, hmem⟩
  | ciphIv i =>
    have hb : unitBusy s .ciph = false := unitBusy_of_unlocked (regionUnit_ciphIv i) hl
    exact (inv_iff _).mpr ⟨hcrc, hciph.withArgs hb _ _ _ _ _, hlzd, hmem⟩
  | ciphMode =>
    have hb : unitBusy s .ciph = false := unitBusy_of_unlocked rfl hl
    exact (inv_iff _).mpr ⟨hcrc, hciph.withMode hb v, hlzd, hmem⟩
  | lzdSrc | lzdLen | lzdDst | lzdExpLen =>
    have hb : unitBusy s .lzd = false := unitBusy_of_unlocked rfl hl
    exact (inv_iff _).mpr ⟨hcrc, hciph, hlzd.withArgs hb hrun _ _ _ _, hmem⟩

theorem inv_resetBlock (h : Inv s) : Inv (resetBlock s) := by
  obtain ⟨-, -, -, hmem⟩ := (inv_iff s).mp h
  exact (inv_iff _).mpr ⟨.of_idle rfl rfl rfl nofun, .of_idle rfl rfl rfl (by decide : (0 : Word) &&& ~~~modeMask = 0),
    .of_idle rfl rfl rfl, ((hmem.scrambleUnit .crc).scrambleUnit .ciph).scrambleUnit .lzd⟩

theorem inv_event {t : State} {i : Option Input} (h : Inv s) (hrun : s.lzd.run = none) (hev : EventCase i s t) :
    Inv t := by
  cases hev with
  | pass => exact h
  | start u => exact inv_startUnit h hrun u
  | clear u hb => exact inv_cleared h hrun hb
  | complete hb hc => exact inv_completes h hb hc
  | read off => exact inv_readRegister h hrun off
  | write r _ hr hl => exact inv_setReg h hrun r _ ((regAt_eq_some_iff _ r).mp hr ▸ hl)
  | memRead bytes => exact inv_withMemData h bytes
  | memWrite _ hin =>
    obtain ⟨hcrc, hciph, hlzd, hmem⟩ := (inv_iff s).mp h
    exact (inv_iff _).mpr ⟨hcrc, hciph, hlzd, hmem.memWrite hin⟩
  | reset => exact inv_resetBlock h

end Keeps

/-- A turn of the loop under the invariant is one of `TickResult`. -/
theorem tickResult_of_lzdTick {s t : State} {r : LzRun} (h : Inv s) (hrun : s.lzd.run = some r)
    (htick : lzdTick s = .next t) : TickResult s r t := by
  have hr := (runOk_iff s r).mp (h.run r hrun)
  obtain ⟨t', ht', hresult⟩ := lzdTick_result hr.cursors
  rw [withRun_self hrun] at ht'
  cases htick.symm.trans ht'
  exact hresult

theorem inv_tick {s t : State} {r : LzRun} (h : Inv s) (hrun : s.lzd.run = some r) (hresult : TickResult s r t) :
    Inv t := by
  have hr := (runOk_iff s r).mp (h.run r hrun)
  obtain ⟨hcrc, hciph, hlzd, hmem⟩ := (inv_iff s).mp h
  refine (inv_iff t).mpr ?_
  cases hresult with
  | success => exact ⟨hcrc, hciph, .of_idle (statusOk_doneStatus _) rfl rfl, hmem⟩
  | failure c r' hcause => exact ⟨hcrc, hciph, .of_idle (statusOk_failedStatus hcause _) rfl rfl, hmem⟩
  | @token i r' m _ _ _ hruns hcursors =>
    have hp := hruns.progress
    have hspan := (spanInMemory_iff _ _).mp hr.output
    have hop := hcursors.op_le
    simp only [spanOf_base, spanOf_len] at hspan
    refine ⟨hcrc, hciph, hlzd.withRun hr hcursors, hp.wf hmem.wf, fun c hc => ?_, hmem.size⟩
    obtain hc | hc := hp.cells c hc
    · exact hmem.cells c hc
    · simp only [midRun, withRun_memSize]
      omega

/-- Settles O50. -/
theorem stepKeepsInvariant : Obligations.StepKeepsInvariant := by
  intro s t h hstep
  obtain ⟨r, hrun, htick⟩ | ⟨hrun, hev⟩ := step_cases hstep
  · exact inv_tick h hrun (tickResult_of_lzdTick h hrun htick)
  · exact inv_event (inv_popInput h) hrun hev

/-! ## The life cycle -/

theorem unitStatus_setStatus_eq (u v : UnitId) (st : Status) (s : State) :
    unitStatus (setStatus u st s) v = if v = u then st else unitStatus s v := by
  cases u <;> cases v <;> rfl

theorem unitStatus_startUnit (u v : UnitId) (c : Claim) (s : State) :
    unitStatus (startUnit u c s) v = if v = u then startedStatus else unitStatus s v := by
  cases u <;> cases v <;> rfl

theorem unitStatus_readRegister (off : Nat) (s : State) (v : UnitId) :
    unitStatus (readRegister off s) v = unitStatus s v := by
  have hrel : ∀ u s, unitStatus (releaseClaims u s) v = unitStatus s v := fun u s => by cases u <;> cases v <;> rfl
  obtain ⟨u, -, -, heq⟩ | ⟨-, heq⟩ := readRegister_cases off s
  · rw [heq, hrel, unitStatus_withBusData]
  · rw [heq, unitStatus_withBusData]

theorem unitStatus_setReg (r : Reg) (w : Word) (s : State) (v : UnitId) :
    unitStatus (setReg r w s) v = unitStatus s v := by
  cases v with
  | crc => exact setReg_crc_status r w s
  | ciph => exact setReg_ciph_status r w s
  | lzd => exact setReg_lzd_status r w s

theorem lifeCycle_event {s t : State} {i : Option Input} (hev : EventCase i s t) (v : UnitId) :
    lifeCycle (unitStatus s v) (unitStatus t v) ∨ (unitStatus t v = idleStatus ∧ i = some .reset) := by
  cases hev with
  | pass => exact .inl (.inl rfl)
  | start u hb =>
    rw [unitStatus_startUnit]
    split
    · subst_vars
      exact .inl (.inr (.inl ⟨hb, rfl⟩))
    · exact .inl (.inl rfl)
  | clear u hb =>
    rw [unitStatus_setStatus_eq]
    split
    · subst_vars
      exact .inl (.inr (.inr (.inr ⟨hb, rfl⟩)))
    · exact .inl (.inl rfl)
  | @complete u t hb hc =>
    by_cases hv : v = u
    · subst hv
      exact .inl (.inr (.inr (.inl ⟨hb, hc.unitStatus_self⟩)))
    · exact .inl (.inl (hc.unitStatus_other hv))
  | read off => exact .inl (.inl (unitStatus_readRegister off s v))
  | write r => exact .inl (.inl (unitStatus_setReg r _ s v))
  | memRead | memWrite => exact .inl (.inl (by cases v <;> rfl))
  | reset hi => exact .inr ⟨by cases v <;> rfl, hi⟩

theorem lifeCycle_tick {s t : State} {r : LzRun} (hb : s.lzd.status.busy = true) (hresult : TickResult s r t)
    (v : UnitId) : lifeCycle (unitStatus s v) (unitStatus t v) := by
  cases hresult with
  | success | failure =>
    cases v with
    | crc | ciph => exact .inl rfl
    | lzd => exact .inr (.inr (.inl ⟨hb, rfl, rfl⟩))
  | token => exact .inl (by cases v <;> rfl)

/-- Settles O54. -/
theorem statusFollowsLifeCycle : Obligations.StatusFollowsLifeCycle := by
  intro s t u h hstep
  obtain ⟨r, hrun, htick⟩ | ⟨hrun, hev⟩ := step_cases hstep
  · have hb := ((runOk_iff s r).mp (h.run r hrun)).busy
    exact .inl (lifeCycle_tick hb (tickResult_of_lzdTick h hrun htick) u)
  · have hpop : unitStatus (popInput s) u = unitStatus s u := by cases u <;> rfl
    obtain hlife | ⟨hidle, hi⟩ := lifeCycle_event hev u
    · exact .inl (hpop ▸ hlife)
    · exact .inr ⟨hidle, hi, hrun⟩

/-! ## Where memory changes -/

/-- Some busy unit owns an output range that holds an address. -/
def InBusyOutput (s : State) (a : Nat) : Prop :=
  ∃ u c, unitBusy s u = true ∧ unitClaim s u = some c ∧ spanHas c.wr a = true

theorem inBusyOutput_of_startClaim {s : State} (h : Inv s) {u : UnitId} (hb : unitBusy s u = true) {a : Nat}
    (ha : spanHas (startClaim s u).wr a = true) : InBusyOutput s a := ⟨u, _, hb, unitClaim_of_busy h hb, ha⟩

theorem inBusyOutput_of_abandonedSpan {s : State} {u : UnitId} {a : Nat} (ha : spanHas (abandonedSpan s u) a = true) :
    InBusyOutput s a := by
  have hempty : spanHas noSpan a = false := (spanHas_false_iff _ _).mpr (.inr (Nat.zero_le a))
  unfold abandonedSpan at ha
  split at ha
  · rename_i hb
    split at ha
    · rename_i c hc
      exact ⟨u, c, hb, hc, ha⟩
    · exact not_of_eq_false hempty ha
  · exact not_of_eq_false hempty ha

theorem inBusyOutput_of_tick {s t : State} {r : LzRun} {a : Nat} (h : Inv s) (hrun : s.lzd.run = some r)
    (hresult : TickResult s r t) (hne : memGet t.mem a ≠ memGet s.mem a) : InBusyOutput s a := by
  cases hresult with
  | success | failure => exact absurd rfl hne
  | @token i r' m _ _ _ hruns hcursors =>
    refine inBusyOutput_of_startClaim (u := .lzd) h ((runOk_iff s r).mp (h.run r hrun)).busy ?_
    by_contra hout
    have hbounds := (spanHas_false_iff _ _).mp (eq_false_of_ne_true hout)
    have hop := hcursors.op_le
    have hle := hruns.op_le
    simp only [startClaim, lzdClaim, spanOf_base, spanOf_len] at hbounds
    exact hne (hruns.progress.same h.mem a ((spanHas_false_iff _ _).mpr (by simp only; omega)))

theorem memory_event {s t : State} {i : Option Input} {a : Nat} (h : Inv s) (hev : EventCase i s t)
    (hne : memGet t.mem a ≠ memGet s.mem a) :
    (∃ addr bytes, i = some (.memWrite addr bytes) ∧ addr ≤ a ∧ a < addr + bytes.length) ∨ InBusyOutput s a := by
  cases hev with
  | pass | memRead => exact absurd rfl hne
  | start u => rw [startUnit_mem] at hne; exact absurd rfl hne
  | clear u => rw [setStatus_mem] at hne; exact absurd rfl hne
  | complete hb hc =>
    refine .inr (inBusyOutput_of_startClaim h hb ?_)
    by_contra hout
    exact hne (hc.memGet_outside h.mem (eq_false_of_ne_true hout))
  | read off => rw [readRegister_mem] at hne; exact absurd rfl hne
  | write r => rw [setReg_mem] at hne; exact absurd rfl hne
  | @memWrite addr bytes hi =>
    refine .inl ⟨addr, bytes, hi, ?_⟩
    by_contra hout
    exact hne (memGet_memWrite_outside h.mem (by omega))
  | reset =>
    refine .inr ?_
    by_contra hout
    refine hne (memGet_resetBlock fun u => eq_false_of_ne_true fun ha => hout (inBusyOutput_of_abandonedSpan ha))

/-- Settles O56. -/
theorem memoryChangesOnlyWhereAllowed : Obligations.MemoryChangesOnlyWhereAllowed := by
  intro s t a h hstep hne
  obtain ⟨r, hrun, htick⟩ | ⟨-, hev⟩ := step_cases hstep
  · exact .inr (inBusyOutput_of_tick h hrun (tickResult_of_lzdTick h hrun htick) hne)
  · obtain hwrite | ⟨u, c, hb, hc, ha⟩ := memory_event (inv_popInput h) hev hne
    · exact .inl hwrite
    · refine .inr ⟨u, c, (unitBusy_withInputs s _ u).symm.trans hb, Eq.trans ?_ hc, ha⟩
      cases u <;> rfl

end Machine

end Sys2Proof
end

section
/-! Two units that do not clash (spec/60_exceptions.md R291): a completion looks at its own unit's registers and at the
ranges it claimed only, so that of another unit before it makes no difference, and the two may come in either order. -/

namespace Sys2Proof

namespace Machine

/-! ## What a completion looks at -/

/-- Unit `u` is the same in both states. -/
def SameUnit (s t : State) : UnitId → Prop
  | .crc => t.crc = s.crc
  | .ciph => t.ciph = s.ciph
  | .lzd => t.lzd = s.lzd

/-- An address in one of the ranges that unit `u` claims. -/
def Touches (s : State) (u : UnitId) (a : Nat) : Prop :=
  spanHas (startClaim s u).rd a = true ∨ spanHas (startClaim s u).wr a = true

theorem sameUnit_of_frame {s t : State} {u v : UnitId} (h : Frame u s t) (hv : v ≠ u) : SameUnit s t v := by
  cases v with
  | crc => exact h.crc hv.symm
  | ciph => exact h.ciph hv.symm
  | lzd => exact h.lzd hv.symm

theorem SameUnit.trans {s t t' : State} {u : UnitId} (h : SameUnit s t u) (h' : SameUnit t t' u) : SameUnit s t' u := by
  cases u with
  | crc => exact Eq.trans h' h
  | ciph => exact Eq.trans h' h
  | lzd => exact Eq.trans h' h

theorem SameUnit.trans_symm {s t t' : State} {u : UnitId} (h : SameUnit s t u) (h' : SameUnit s t' u) :
    SameUnit t' t u := by
  cases u with
  | crc => exact Eq.trans h (Eq.symm h')
  | ciph => exact Eq.trans h (Eq.symm h')
  | lzd => exact Eq.trans h (Eq.symm h')

theorem startClaim_of_sameUnit {s t : State} {u : UnitId} (h : SameUnit s t u) : startClaim t u = startClaim s u := by
  cases u with
  | crc =>
    have h : t.crc = s.crc := h
    simp only [startClaim, crcClaim, h]
  | ciph =>
    have h : t.ciph = s.ciph := h
    simp only [startClaim, ciphOwns_eq, h]
  | lzd =>
    have h : t.lzd = s.lzd := h
    simp only [startClaim, lzdClaim, h]

theorem unitBusy_of_sameUnit {s t : State} {u : UnitId} (h : SameUnit s t u) : unitBusy t u = unitBusy s u := by
  cases u with
  | crc => exact congrArg (fun c => c.status.busy) h
  | ciph => exact congrArg (fun c => c.status.busy) h
  | lzd => exact congrArg (fun c => c.status.busy) h

/-- A mode function whose input is in `P` does the same to both memories. -/
theorem AgreeOn.cipherBlocks {P : Nat → Prop} {m m' : List Host.Cell} {f : ModeStep} {n src dst : Nat} {chain : Block}
    (hm : memWf m = true) (hm' : memWf m' = true) (h : AgreeOn P m m') (hsrc : ∀ k < 16 * n, P (src + k)) :
    AgreeOn P (cipherBlocks f n chain src dst m) (cipherBlocks f n chain src dst m') := by
  induction n generalizing m m' chain src dst with
  | zero => exact h
  | succ n ih =>
    have hblock : readBlock m' src = readBlock m src := readBlock_congr fun b hlo hhi => by
      obtain ⟨k, rfl⟩ := Nat.exists_eq_add_of_le hlo
      exact h _ (hsrc k (by omega))
    rw [Machine.cipherBlocks, Machine.cipherBlocks, hblock]
    refine ih (memWf_writeBlock hm _ _) (memWf_writeBlock hm' _ _) (h.memWrite hm hm' _ _) fun k hk => ?_
    rw [Nat.add_assoc]
    exact hsrc _ (by simp only [Config.blockBytes]; omega)

section Again

variable {s s' t : State}

theorem completeCrc_again (hb : unitBusy s' .crc = true) (hcrc : s'.crc = s.crc) (hsize : s'.memSize = s.memSize)
    (hc : unitClash s' .crc = false) (hagree : AgreeOn (Touches s .crc) s.mem s'.mem) (h : completeCrc s = .next t) :
    ∃ t', completeCrc s' = .next t' ∧ t'.crc = t.crc ∧ AgreeOn (Touches s .crc) t.mem t'.mem := by
  have hclaim : crcClaim s' = crcClaim s := by simp only [crcClaim, hcrc]
  obtain ⟨-, ⟨hrd, rfl⟩ | ⟨hrd, -, rfl⟩⟩ := completeCrc_next h
  · refine ⟨_, completeCrc_of_outside_memory hb (by rw [hsize, hclaim]; exact hrd), ?_, hagree⟩
    simp only [raiseError_crc, hcrc]
  · refine ⟨_, completeCrc_of_no_clash hb (by rw [hsize, hclaim]; exact hrd) hc, ?_, hagree⟩
    have hbytes := hagree.memRead (a := s.crc.src.toNat) (n := s.crc.len.toNat) fun b hlo hhi =>
      .inl ((spanHas_iff _ _).mpr ⟨hlo, hhi⟩)
    simp only [crcDone_crc, hcrc, hbytes]

theorem completeCiph_again {f : ModeStep} {chain : Block} (hb : unitBusy s' .ciph = true) (hciph : s'.ciph = s.ciph)
    (hsize : s'.memSize = s.memSize) (hc : unitClash s' .ciph = false) (hclaims : ciphOwns s = ciphClaim s)
    (hwf : memWf s.mem = true) (hwf' : memWf s'.mem = true) (hagree : AgreeOn (Touches s .ciph) s.mem s'.mem)
    (h : completeCiph f chain s = .next t) :
    ∃ t', completeCiph f chain s' = .next t' ∧ t'.ciph = t.ciph ∧ AgreeOn (Touches s .ciph) t.mem t'.mem := by
  have hclaim : ciphClaim s' = ciphClaim s := by simp only [ciphClaim, hciph]
  have hoverlap : badOverlap s' = badOverlap s := by simp only [badOverlap, hclaim, hciph]
  obtain ⟨-, ⟨hlen, rfl⟩ | ⟨hlen, ⟨hbad, rfl⟩ | ⟨hrd, hwr, hov, -, rfl⟩⟩⟩ := completeCiph_next h
  · refine ⟨_, completeCiph_of_bad_length f chain hb (by rw [hciph]; exact hlen), ?_, hagree⟩
    simp only [raiseError_ciph, hciph]
  · refine ⟨_, completeCiph_of_bad_ranges f chain hb (by rw [hciph]; exact hlen)
      (by rw [hsize, hclaim, hoverlap]; exact hbad), ?_, hagree⟩
    simp only [raiseError_ciph, hciph]
  · refine ⟨_, completeCiph_of_checks_pass f chain hb (by rw [hciph]; exact hlen) (by rw [hsize, hclaim]; exact hrd)
      (by rw [hsize, hclaim]; exact hwr) (by rw [hoverlap]; exact hov) hc, ?_, ?_⟩
    · simp only [ciphDone_ciph, hciph]
    · simp only [ciphDone_mem, ciphMem, hciph]
      refine hagree.cipherBlocks hwf hwf' fun k hk => .inl ((spanHas_iff _ _).mpr ?_)
      simp only [startClaim, hclaims, ciphClaim, spanOf_base, spanOf_len]
      simp only [Config.blockBytes] at hk
      omega

theorem exec_lzd_again (hb : unitBusy s' .lzd = true) (hlzd : s'.lzd = s.lzd) (hsize : s'.memSize = s.memSize)
    (hc : unitClash s' .lzd = false) (hwf : memWf s.mem = true) (hwf' : memWf s'.mem = true)
    (hagree : AgreeOn (Touches s .lzd) s.mem s'.mem) (h : completeLzd s = .next t) :
    ∃ t', completeLzd s' = .next t' ∧ t'.lzd = t.lzd ∧ AgreeOn (Touches s .lzd) t.mem t'.mem := by
  have hclaim : lzdClaim s' = lzdClaim s := by simp only [lzdClaim, hlzd]
  obtain ⟨-, ⟨hbad, rfl⟩ | ⟨hrd, hwr, hmeet, -, hloop⟩⟩ := completeLzd_next h
  · refine ⟨_, completeLzd_of_bad_ranges hb (by rw [hsize, hclaim]; exact hbad), ?_, hagree⟩
    simp only [lzdFailed, raiseError_withRun, hlzd]
  · have hready : lzdReady s' = true := (lzdReady_iff s').mpr ⟨hb, by rw [hsize, hclaim]; exact hrd,
      by rw [hsize, hclaim]; exact hwr, by rw [hclaim]; exact hmeet, hc⟩
    obtain ⟨t', ht', hsame, hmem⟩ := lzdLoop_of_agreeOn (cursorsOk_freshRun s.lzd) (by simp only [freshRun]; omega) hlzd
      hwf hwf' hagree (fun _ ha => .inr ha) (.inl fun _ ha => .inl ha) hloop
    rw [← hlzd] at ht'
    exact ⟨t', (exec_lzd_of_ready hready).trans ht', hsame, hmem⟩

/-- The turn of a unit does the same in any state with the same unit, in which no unit clashes with it and memory agrees
in its ranges. -/
theorem unitTurn_again {u : UnitId} (hb : unitBusy s u = true) (hsame : SameUnit s s' u)
    (hsize : s'.memSize = s.memSize) (hprim : s'.prim = s.prim) (hc : unitClash s' u = false)
    (hwf : memWf s.mem = true) (hwf' : memWf s'.mem = true) (hagree : AgreeOn (Touches s u) s.mem s'.mem)
    (h : unitTurn u s = .next t) :
    ∃ t', unitTurn u s' = .next t' ∧ SameUnit t t' u ∧ AgreeOn (Touches s u) t.mem t'.mem := by
  have hb' : unitBusy s' u = true := (unitBusy_of_sameUnit hsame).trans hb
  rw [unitTurn_of_busy hb] at h
  rw [unitTurn_of_busy hb']
  cases u with
  | crc => exact completeCrc_again hb' hsame hsize hc hagree h
  | ciph =>
    obtain ⟨hclaims, f, chain, hturn⟩ | ⟨-, hturn⟩ := exec_ciph_turn s
    · rw [hturn s' hsame hprim]
      exact completeCiph_again hb' hsame hsize hc hclaims hwf hwf' hagree ((hturn s rfl rfl).symm.trans h)
    · obtain ⟨-, rfl⟩ := completeBadmode_next ((hturn s rfl).symm.trans h)
      have hciph : s'.ciph = s.ciph := hsame
      rw [hturn s' hsame]
      refine ⟨raiseError .ciph .ciphMode s', by simp [completeBadmode, hb'], ?_, hagree⟩
      simp only [SameUnit, raiseError_ciph, hciph]
  | lzd => exact exec_lzd_again hb' hsame hsize hc hwf hwf' hagree h

end Again

/-! ## Two completions -/

/-- What a busy unit writes, another busy unit that does not clash with it does not touch. -/
theorem not_touches_of_no_clash {s : State} (h : Inv s) {u v : UnitId} (huv : u ≠ v) (hbu : unitBusy s u = true)
    (hbv : unitBusy s v = true) (hc : unitClash s u = false) {a : Nat} (ha : spanHas (startClaim s u).wr a = true) :
    ¬ Touches s v a := by
  intro htouch
  have hclash : claimsClash (startClaim s u) (startClaim s v) = true := by
    rw [claimsClash_iff]
    obtain hrd | hwr := htouch
    · exact .inl (spansMeet_of_spanHas ha hrd)
    · exact .inr (.inl (spansMeet_of_spanHas ha hwr))
  have hmeets : unitClash s u = true := (unitClash_eq_true_iff s u).mpr ⟨v, (clashesWith_iff s u v).mpr
    ⟨_, _, huv.symm, hbv, unitClaim_of_busy h hbu, unitClaim_of_busy h hbv, hclash⟩⟩
  exact not_of_eq_false hc hmeets

/-- States with the same units, memory and other fields are the same. -/
theorem state_eq {s t : State} (hunits : ∀ u, SameUnit s t u) (hmem : t.mem = s.mem) (hsize : t.memSize = s.memSize)
    (hprim : t.prim = s.prim) (hinputs : t.inputs = s.inputs) (hbus : t.busData = s.busData)
    (hdata : t.memData = s.memData) (hresets : t.resets = s.resets) : t = s := by
  have hcrc : t.crc = s.crc := hunits .crc
  have hciph : t.ciph = s.ciph := hunits .ciph
  have hlzd : t.lzd = s.lzd := hunits .lzd
  cases s
  cases t
  simp only at *
  subst_vars
  rfl

section Diamond

variable {s a b c d : State} {u v : UnitId}

/-- A completion of `v` leaves everything that a busy unit `u` looks at. -/
theorem agreeOn_of_other_completion (h : Inv s) (huv : u ≠ v) (hbu : unitBusy s u = true) (hbv : unitBusy s v = true)
    (hcv : unitClash s v = false) (hc : Completes s v c) : AgreeOn (Touches s u) s.mem c.mem := by
  intro x hx
  refine hc.memGet_outside h.mem (eq_false_of_ne_true fun hwr => ?_)
  exact not_touches_of_no_clash h huv.symm hbv hbu hcv hwr hx

/-- What `u` does after `v`, from what it does before. -/
theorem unitTurn_after_other (h : Inv s) (huv : u ≠ v) (hbu : unitBusy s u = true) (hbv : unitBusy s v = true)
    (hcu : unitClash s u = false) (hcv : unitClash s v = false) (ha : unitTurn u s = .next a) (hc : Completes s v c) :
    ∃ d, unitTurn u c = .next d ∧ SameUnit a d u ∧ AgreeOn (Touches s u) a.mem d.mem :=
  unitTurn_again hbu (sameUnit_of_frame hc.frame huv) hc.frame.memSize hc.frame.prim
    (unitClash_of_fewer_busy hc.unitClaims_eq (fun _ => hc.unitBusy_of_unitBusy) hcu) h.mem (hc.memWf_mem h.mem)
    (agreeOn_of_other_completion h huv hbu hbv hcv hc) ha

/-- The two orders end with the same byte at every address: each unit's output range is written by that unit alone, with
the same bytes in either order. -/
theorem memGet_of_two_orders (h : Inv s) (huv : u ≠ v) (hbu : unitBusy s u = true) (hbv : unitBusy s v = true)
    (hcu : unitClash s u = false) (hA : Completes s u a) (hB : Completes a v b) (hC : Completes s v c)
    (hD : Completes c u d) (hu : AgreeOn (Touches s u) a.mem d.mem) (hv : AgreeOn (Touches s v) c.mem b.mem) (x : Nat) :
    memGet d.mem x = memGet b.mem x := by
  have hclaimu : startClaim c u = startClaim s u := startClaim_of_sameUnit (sameUnit_of_frame hC.frame huv)
  have hclaimv : startClaim a v = startClaim s v := startClaim_of_sameUnit (sameUnit_of_frame hA.frame huv.symm)
  have hkeepB : spanHas (startClaim s v).wr x = false → memGet b.mem x = memGet a.mem x := fun hx =>
    hB.memGet_outside (hA.memWf_mem h.mem) (by rw [hclaimv]; exact hx)
  have hkeepD : spanHas (startClaim s u).wr x = false → memGet d.mem x = memGet c.mem x := fun hx =>
    hD.memGet_outside (hC.memWf_mem h.mem) (by rw [hclaimu]; exact hx)
  cases hxu : spanHas (startClaim s u).wr x with
  | true =>
    have hxv : spanHas (startClaim s v).wr x = false := eq_false_of_ne_true fun hxv =>
      not_touches_of_no_clash h huv hbu hbv hcu hxu (.inr hxv)
    rw [hu x (.inr hxu), hkeepB hxv]
  | false =>
    rw [hkeepD hxu]
    cases hxv : spanHas (startClaim s v).wr x with
    | true => exact (hv x (.inr hxv)).symm
    | false => rw [hkeepB hxv, hA.memGet_outside h.mem hxu, hC.memGet_outside h.mem hxv]

theorem state_eq_of_two_orders (h : Inv s) (huv : u ≠ v) (hbu : unitBusy s u = true) (hbv : unitBusy s v = true)
    (hcu : unitClash s u = false) (hA : Completes s u a) (hB : Completes a v b) (hC : Completes s v c)
    (hD : Completes c u d) (hsameu : SameUnit a d u) (hsamev : SameUnit c b v) (hu : AgreeOn (Touches s u) a.mem d.mem)
    (hv : AgreeOn (Touches s v) c.mem b.mem) : d = b := by
  have hfA := hA.frame
  have hfB := hB.frame
  have hfC := hC.frame
  have hfD := hD.frame
  have hunits : ∀ w, SameUnit b d w := fun w => by
    have hb : w ≠ v → SameUnit a b w := sameUnit_of_frame hfB
    have hd : w ≠ u → SameUnit c d w := sameUnit_of_frame hfD
    by_cases hwu : w = u
    · subst hwu
      exact hsameu.trans_symm (hb huv)
    · by_cases hwv : w = v
      · subst hwv
        exact (hd hwu).trans_symm hsamev
      · exact ((sameUnit_of_frame hfC hwv).trans (hd hwu)).trans_symm ((sameUnit_of_frame hfA hwu).trans (hb hwv))
  refine state_eq hunits ?_ (by rw [hfD.memSize, hfC.memSize, hfB.memSize, hfA.memSize])
    (by rw [hfD.prim, hfC.prim, hfB.prim, hfA.prim]) (by rw [hfD.inputs, hfC.inputs, hfB.inputs, hfA.inputs])
    (by rw [hfD.busData, hfC.busData, hfB.busData, hfA.busData])
    (by rw [hfD.memData, hfC.memData, hfB.memData, hfA.memData])
    (by rw [hfD.resets, hfC.resets, hfB.resets, hfA.resets])
  exact memWf_ext (hD.memWf_mem (hC.memWf_mem h.mem)) (hB.memWf_mem (hA.memWf_mem h.mem))
    (memGet_of_two_orders h huv hbu hbv hcu hA hB hC hD hu hv)

end Diamond

/-- Settles O57. -/
theorem completionsCommute : Obligations.CompletionsCommute := by
  intro s a b u v h _ huv hbu hbv hcu hcv ha hb
  have hA := completes_of_unitTurn hbu ha
  obtain ⟨c, hc⟩ := unitTurn_of_no_clash hbv hcv
  have hC := completes_of_unitTurn hbv hc
  obtain ⟨d, hd, hsameu, hu⟩ := unitTurn_after_other h huv hbu hbv hcu hcv ha hC
  obtain ⟨b', hb', hsamev, hv⟩ := unitTurn_after_other h huv.symm hbv hbu hcv hcu hc hA
  cases hb.symm.trans hb'
  have hbva : unitBusy a v = true :=
    (unitBusy_of_sameUnit (sameUnit_of_frame hA.frame huv.symm)).trans hbv
  have hbuc : unitBusy c u = true := (unitBusy_of_sameUnit (sameUnit_of_frame hC.frame huv)).trans hbu
  have heq := state_eq_of_two_orders h huv hbu hbv hcu hA (completes_of_unitTurn hbva hb) hC
    (completes_of_unitTurn hbuc hd) hsameu hsamev hu hv
  exact ⟨c, hc, heq ▸ hd⟩

end Machine

end Sys2Proof
end
